-- ==== Sys2Proof/Word.lean ====
section
/-! DEFINITION. The word types of the machine (spec/00_scope.md R8, R9). -/

namespace Sys2Proof

/-- A byte, the `u8` of R9: the width of A, X, Y, SP, P and of every memory location (R8). -/
abbrev Byte := BitVec 8

/-- A 16-bit value, the `u16` of R9: the width of PC, `addr_abs`, `addr_rel` and of an address (R8). -/
abbrev Addr := BitVec 16

end Sys2Proof
end

