-- ==== Sys2Proof/Config.lean ====
section
/-! DEFINITION. What an implementation fixes (spec/00_scope.md R8): the open parameters `BASE_CYCLES`
and `NOP_VARIANTS`, and what a memory byte that no list names reads as. The spec leaves no value of an
instruction undefined, so there is no free value here. -/

namespace Sys2Proof

/-- The two model arguments of R8 that a decoder and a cycle count read. They stand in State
(log 3, DESIGN CHOICE, safe), so that a statement about every state holds for every choice of them. -/
structure Params where
  /-- `BASE_CYCLES` (R8, D9) as the entries that differ from the table of R352: opcode byte and base
  count 0 to 7. An opcode byte that is not listed has the table's count. -/
  baseOverrides : List (Byte × Fin 8)
  /-- `NOP_VARIANTS` (R8, R91, D6): undocumented opcode bytes that are two-byte NOPs. -/
  nopVariants : List Byte
deriving DecidableEq, Repr

/-- The defaults of R8: the table of R352 and no NOP variant. -/
def Params.default : Params := { baseOverrides := [], nopVariants := [] }

/-- What a memory byte that the memory's list does not name reads as. `MEM0` (R8, D26) is open; any
image is a list over this background (log 1, DESIGN CHOICE, unsafe only for runs from `State.reset`). -/
def Config.memoryBackground : Byte := 0x00

end Sys2Proof
end

