-- ==== Sys2Proof/Syntax.lean ====
section
/-! DEFINITION. The instructions as syntax. One constructor of `Instr` for each of the 57 operation
kinds of spec/30_encoding.md R86, with the operand form as its argument; every row of
spec/opcode_table.json is one operand form of one constructor (log 10). The operand types hold exactly
the addressing modes R88 gives the mnemonic, so that a pair outside R88 (R93) is not a term at all. -/

namespace Sys2Proof

/-- The twelve addressing modes with their instruction bytes (R15, R83, R85). -/
inductive Operand where
  | imp                -- implied and accumulator
  | imm (v : Byte)     -- immediate
  | zp0 (t : Byte)     -- zero-page
  | zpx (t : Byte)     -- zero-page indexed by X
  | zpy (t : Byte)     -- zero-page indexed by Y
  | rel (d : Byte)     -- relative
  | abs (w : Addr)     -- absolute
  | abx (w : Addr)     -- absolute indexed by X
  | aby (w : Addr)     -- absolute indexed by Y
  | ind (w : Addr)     -- absolute-indirect
  | izx (t : Byte)     -- indirect-indexed-X, pre-indexed
  | izy (t : Byte)     -- indirect-indexed-Y, post-indexed
deriving DecidableEq, Repr

/-- The modes of ADC SBC AND ORA EOR CMP LDA (R88). -/
inductive ReadMode where
  | imm (v : Byte) | zp0 (t : Byte) | zpx (t : Byte)
  | abs (w : Addr) | abx (w : Addr) | aby (w : Addr) | izx (t : Byte) | izy (t : Byte)
deriving DecidableEq, Repr

/-- The modes of ASL LSR ROL ROR (R88). -/
inductive ShiftMode where
  | acc | zp0 (t : Byte) | zpx (t : Byte) | abs (w : Addr) | abx (w : Addr)
deriving DecidableEq, Repr

/-- The modes of INC DEC (R88). -/
inductive MemMode where
  | zp0 (t : Byte) | zpx (t : Byte) | abs (w : Addr) | abx (w : Addr)
deriving DecidableEq, Repr

/-- The modes of CPX CPY (R88). -/
inductive CpMode where
  | imm (v : Byte) | zp0 (t : Byte) | abs (w : Addr)
deriving DecidableEq, Repr

/-- The modes of LDX (R88). -/
inductive LdxMode where
  | imm (v : Byte) | zp0 (t : Byte) | zpy (t : Byte) | abs (w : Addr) | aby (w : Addr)
deriving DecidableEq, Repr

/-- The modes of LDY (R88). -/
inductive LdyMode where
  | imm (v : Byte) | zp0 (t : Byte) | zpx (t : Byte) | abs (w : Addr) | abx (w : Addr)
deriving DecidableEq, Repr

/-- The modes of STA (R88). -/
inductive StaMode where
  | zp0 (t : Byte) | zpx (t : Byte) | abs (w : Addr) | abx (w : Addr) | aby (w : Addr)
  | izx (t : Byte) | izy (t : Byte)
deriving DecidableEq, Repr

/-- The modes of STX (R88). -/
inductive StxMode where
  | zp0 (t : Byte) | zpy (t : Byte) | abs (w : Addr)
deriving DecidableEq, Repr

/-- The modes of STY (R88). -/
inductive StyMode where
  | zp0 (t : Byte) | zpx (t : Byte) | abs (w : Addr)
deriving DecidableEq, Repr

/-- The modes of BIT (R88). -/
inductive BitMode where
  | zp0 (t : Byte) | abs (w : Addr)
deriving DecidableEq, Repr

/-- The modes of JMP (R88). -/
inductive JmpMode where
  | abs (w : Addr) | ind (w : Addr)
deriving DecidableEq, Repr

/-- The forms of NOP: the documented one (EA), and a byte of `NOP_VARIANTS` with the operand byte it
skips (R91, R280). -/
inductive NopMode where
  | imp
  | variant (opcode : Byte) (v : Byte)
deriving DecidableEq, Repr

/-- The 56 documented mnemonics and the fallback XXX (R86). -/
inductive Instr where
  -- arithmetic and logical
  | adc (m : ReadMode) | sbc (m : ReadMode) | and (m : ReadMode) | ora (m : ReadMode) | eor (m : ReadMode)
  -- shifts and rotates
  | asl (m : ShiftMode) | lsr (m : ShiftMode) | rol (m : ShiftMode) | ror (m : ShiftMode)
  -- compares, increments, decrements
  | cmp (m : ReadMode) | cpx (m : CpMode) | cpy (m : CpMode)
  | inc (m : MemMode) | dec (m : MemMode) | inx | iny | dex | dey
  -- loads, stores, transfers
  | lda (m : ReadMode) | ldx (m : LdxMode) | ldy (m : LdyMode)
  | sta (m : StaMode) | stx (m : StxMode) | sty (m : StyMode)
  | tax | txa | tay | tya | tsx | txs
  -- stack
  | pha | pla | php | plp
  -- branches: the signed displacement byte
  | bcc (d : Byte) | bcs (d : Byte) | beq (d : Byte) | bne (d : Byte)
  | bmi (d : Byte) | bpl (d : Byte) | bvc (d : Byte) | bvs (d : Byte)
  -- jumps, subroutines, software interrupt and return
  | jmp (m : JmpMode) | jsr (w : Addr) | rts | brk | rti
  -- flags, bit test, no operation
  | sec | clc | sei | cli | sed | cld | clv
  | bit (m : BitMode)
  | nop (m : NopMode)
  /-- The illegal-opcode fallback, with the opcode byte (R90, R281). -/
  | xxx (opcode : Byte)
deriving DecidableEq, Repr

end Sys2Proof
end

