-- ==== Sys2Proof/WellFormed.lean ====
section
/-! DEFINITION. Which terms of `Instr` stand for an instruction of the machine. The operand types of
Syntax.lean admit only the (mnemonic, mode) pairs of spec/30_encoding.md R88, so two checks are left:
an XXX byte and a NOP variant byte must be bytes that decode so (R87, R90, R91). -/

namespace Sys2Proof

/-- The 105 opcode bytes that carry no documented instruction, as R90 lists them. -/
def undocumentedBytes : List Byte :=
  [0x02, 0x03, 0x04, 0x07, 0x0B, 0x0C, 0x0F] ++
  [0x12, 0x13, 0x14, 0x17, 0x1A, 0x1B, 0x1C, 0x1F] ++
  [0x22, 0x23, 0x27, 0x2B, 0x2F] ++
  [0x32, 0x33, 0x34, 0x37, 0x3A, 0x3B, 0x3C, 0x3F] ++
  [0x42, 0x43, 0x44, 0x47, 0x4B, 0x4F] ++
  [0x52, 0x53, 0x54, 0x57, 0x5A, 0x5B, 0x5C, 0x5F] ++
  [0x62, 0x63, 0x64, 0x67, 0x6B, 0x6F] ++
  [0x72, 0x73, 0x74, 0x77, 0x7A, 0x7B, 0x7C, 0x7F] ++
  [0x80, 0x82, 0x83, 0x87, 0x89, 0x8B, 0x8F] ++
  [0x92, 0x93, 0x97, 0x9B, 0x9C, 0x9E, 0x9F] ++
  [0xA3, 0xA7, 0xAB, 0xAF] ++
  [0xB2, 0xB3, 0xB7, 0xBB, 0xBF] ++
  [0xC2, 0xC3, 0xC7, 0xCB, 0xCF] ++
  [0xD2, 0xD3, 0xD4, 0xD7, 0xDA, 0xDB, 0xDC, 0xDF] ++
  [0xE2, 0xE3, 0xE7, 0xEB, 0xEF] ++
  [0xF2, 0xF3, 0xF4, 0xF7, 0xFA, 0xFB, 0xFC, 0xFF]

/-- Well-formedness under the parameter `NOP_VARIANTS` = `nv`: the byte of an XXX is undocumented and
no variant (R90), the byte of a NOP variant is undocumented and a variant (R91). -/
def Instr.wellFormed (nv : List Byte) : Instr → Bool
  | .xxx op => undocumentedBytes.contains op && !nv.contains op
  | .nop (.variant op _) => undocumentedBytes.contains op && nv.contains op
  | .nop .imp => true
  | .adc _ | .sbc _ | .and _ | .ora _ | .eor _ => true
  | .asl _ | .lsr _ | .rol _ | .ror _ => true
  | .cmp _ | .cpx _ | .cpy _ | .inc _ | .dec _ | .inx | .iny | .dex | .dey => true
  | .lda _ | .ldx _ | .ldy _ | .sta _ | .stx _ | .sty _ => true
  | .tax | .txa | .tay | .tya | .tsx | .txs => true
  | .pha | .pla | .php | .plp => true
  | .bcc _ | .bcs _ | .beq _ | .bne _ | .bmi _ | .bpl _ | .bvc _ | .bvs _ => true
  | .jmp _ | .jsr _ | .rts | .brk | .rti => true
  | .sec | .clc | .sei | .cli | .sed | .cld | .clv | .bit _ => true

end Sys2Proof
end

