-- ==== Sys2Proof/Decode.lean ====
section
/-! DEFINITION. The bit-field helpers of spec/00_scope.md R9, the decoder and the encoder of
spec/30_encoding.md, and the base cycle counts of spec/70_reset_and_hazards.md R352 (a decode-table
entry binds mnemonic, mode and base count, R80). -/

namespace Sys2Proof

/-! ## Bit-field helpers (R9) -/

/-- `lo8(w) = w[7:0]`. -/
def lo8 (w : Addr) : Byte := w.extractLsb' 0 8

/-- `hi8(w) = w[15:8]`. -/
def hi8 (w : Addr) : Byte := w.extractLsb' 8 8

/-- `{hi, lo}`, the 16-bit value of two bytes. -/
def join16 (hi lo : Byte) : Addr := hi ++ lo

/-- `zext_16(v)`. -/
def zext16 (v : Byte) : Addr := v.setWidth 16

/-- `sext_16(v)`. -/
def sext16 (v : Byte) : Addr := v.signExtend 16

/-! ## Operand forms and their bytes (R81 to R85) -/

def ReadMode.toOperand : ReadMode → Operand
  | .imm v => .imm v | .zp0 t => .zp0 t | .zpx t => .zpx t | .abs w => .abs w
  | .abx w => .abx w | .aby w => .aby w | .izx t => .izx t | .izy t => .izy t

def ShiftMode.toOperand : ShiftMode → Operand
  | .acc => .imp | .zp0 t => .zp0 t | .zpx t => .zpx t | .abs w => .abs w | .abx w => .abx w

def MemMode.toOperand : MemMode → Operand
  | .zp0 t => .zp0 t | .zpx t => .zpx t | .abs w => .abs w | .abx w => .abx w

def CpMode.toOperand : CpMode → Operand
  | .imm v => .imm v | .zp0 t => .zp0 t | .abs w => .abs w

def LdxMode.toOperand : LdxMode → Operand
  | .imm v => .imm v | .zp0 t => .zp0 t | .zpy t => .zpy t | .abs w => .abs w | .aby w => .aby w

def LdyMode.toOperand : LdyMode → Operand
  | .imm v => .imm v | .zp0 t => .zp0 t | .zpx t => .zpx t | .abs w => .abs w | .abx w => .abx w

def StaMode.toOperand : StaMode → Operand
  | .zp0 t => .zp0 t | .zpx t => .zpx t | .abs w => .abs w | .abx w => .abx w | .aby w => .aby w
  | .izx t => .izx t | .izy t => .izy t

def StxMode.toOperand : StxMode → Operand
  | .zp0 t => .zp0 t | .zpy t => .zpy t | .abs w => .abs w

def StyMode.toOperand : StyMode → Operand
  | .zp0 t => .zp0 t | .zpx t => .zpx t | .abs w => .abs w

def BitMode.toOperand : BitMode → Operand
  | .zp0 t => .zp0 t | .abs w => .abs w

def JmpMode.toOperand : JmpMode → Operand
  | .abs w => .abs w | .ind w => .ind w

/-- A NOP variant is decoded with the IMM resolver (R91). -/
def NopMode.toOperand : NopMode → Operand
  | .imp => .imp | .variant _ v => .imm v

/-- The addressing mode of an instruction with its operand bytes. -/
def Instr.operand : Instr → Operand
  | .adc m | .sbc m | .and m | .ora m | .eor m | .cmp m | .lda m => m.toOperand
  | .asl m | .lsr m | .rol m | .ror m => m.toOperand
  | .inc m | .dec m => m.toOperand
  | .cpx m | .cpy m => m.toOperand
  | .ldx m => m.toOperand
  | .ldy m => m.toOperand
  | .sta m => m.toOperand
  | .stx m => m.toOperand
  | .sty m => m.toOperand
  | .bit m => m.toOperand
  | .jmp m => m.toOperand
  | .nop m => m.toOperand
  | .jsr w => .abs w
  | .bcc d | .bcs d | .beq d | .bne d | .bmi d | .bpl d | .bvc d | .bvs d => .rel d
  | .inx | .iny | .dex | .dey | .tax | .txa | .tay | .tya | .tsx | .txs
  | .pha | .pla | .php | .plp | .rts | .brk | .rti
  | .sec | .clc | .sei | .cli | .sed | .cld | .clv | .xxx _ => .imp

/-- The operand bytes in instruction order: one byte, or an address low byte first (R82, R84). -/
def Operand.bytes : Operand → List Byte
  | .imp => []
  | .imm b | .zp0 b | .zpx b | .zpy b | .rel b | .izx b | .izy b => [b]
  | .abs w | .abx w | .aby w | .ind w => [lo8 w, hi8 w]

/-- How many operand bytes the mode consumes (R83). -/
def Operand.size : Operand → Nat
  | .imp => 0
  | .imm _ | .zp0 _ | .zpx _ | .zpy _ | .rel _ | .izx _ | .izy _ => 1
  | .abs _ | .abx _ | .aby _ | .ind _ => 2

/-- The length of an instruction in bytes (R83). -/
def Instr.length (i : Instr) : Nat := 1 + i.operand.size

/-! ## The decode table (R80, R87, R88, R90, R91) -/

/-- An entry of the decode table: the opcode byte, and the instruction it makes of the two bytes that
follow (a mode that consumes fewer ignores the rest). -/
structure Row where
  opcode : Byte
  build : Byte → Byte → Instr

def Row.imp (f : Instr) (op : Byte) : Row := ⟨op, fun _ _ => f⟩
def Row.byte (f : Byte → Instr) (op : Byte) : Row := ⟨op, fun b1 _ => f b1⟩
def Row.word (f : Addr → Instr) (op : Byte) : Row := ⟨op, fun b1 b2 => f (join16 b2 b1)⟩

/-- The cells IMM ZP0 ZPX ABS ABX ABY IZX IZY of a row of R88. -/
def readRows (f : ReadMode → Instr) (imm zp0 zpx abs abx aby izx izy : Byte) : List Row :=
  [.byte (f ∘ .imm) imm, .byte (f ∘ .zp0) zp0, .byte (f ∘ .zpx) zpx, .word (f ∘ .abs) abs,
   .word (f ∘ .abx) abx, .word (f ∘ .aby) aby, .byte (f ∘ .izx) izx, .byte (f ∘ .izy) izy]

/-- The cells IMP ZP0 ZPX ABS ABX of a row of R88. -/
def shiftRows (f : ShiftMode → Instr) (acc zp0 zpx abs abx : Byte) : List Row :=
  [.imp (f .acc) acc, .byte (f ∘ .zp0) zp0, .byte (f ∘ .zpx) zpx, .word (f ∘ .abs) abs,
   .word (f ∘ .abx) abx]

/-- The cells ZP0 ZPX ABS ABX of a row of R88. -/
def memRows (f : MemMode → Instr) (zp0 zpx abs abx : Byte) : List Row :=
  [.byte (f ∘ .zp0) zp0, .byte (f ∘ .zpx) zpx, .word (f ∘ .abs) abs, .word (f ∘ .abx) abx]

/-- The cells IMM ZP0 ABS of a row of R88. -/
def cpRows (f : CpMode → Instr) (imm zp0 abs : Byte) : List Row :=
  [.byte (f ∘ .imm) imm, .byte (f ∘ .zp0) zp0, .word (f ∘ .abs) abs]

/-- ADC SBC AND ORA EOR (R88). -/
def arithmeticRows : List Row :=
  readRows .adc 0x69 0x65 0x75 0x6D 0x7D 0x79 0x61 0x71 ++
  readRows .sbc 0xE9 0xE5 0xF5 0xED 0xFD 0xF9 0xE1 0xF1 ++
  readRows .and 0x29 0x25 0x35 0x2D 0x3D 0x39 0x21 0x31 ++
  readRows .ora 0x09 0x05 0x15 0x0D 0x1D 0x19 0x01 0x11 ++
  readRows .eor 0x49 0x45 0x55 0x4D 0x5D 0x59 0x41 0x51

/-- ASL LSR ROL ROR (R88). -/
def shiftFamilyRows : List Row :=
  shiftRows .asl 0x0A 0x06 0x16 0x0E 0x1E ++
  shiftRows .lsr 0x4A 0x46 0x56 0x4E 0x5E ++
  shiftRows .rol 0x2A 0x26 0x36 0x2E 0x3E ++
  shiftRows .ror 0x6A 0x66 0x76 0x6E 0x7E

/-- CMP CPX CPY INC DEC INX INY DEX DEY (R88). -/
def compareRows : List Row :=
  readRows .cmp 0xC9 0xC5 0xD5 0xCD 0xDD 0xD9 0xC1 0xD1 ++
  cpRows .cpx 0xE0 0xE4 0xEC ++
  cpRows .cpy 0xC0 0xC4 0xCC ++
  memRows .inc 0xE6 0xF6 0xEE 0xFE ++
  memRows .dec 0xC6 0xD6 0xCE 0xDE ++
  [.imp .inx 0xE8, .imp .iny 0xC8, .imp .dex 0xCA, .imp .dey 0x88]

/-- LDA LDX LDY STA STX STY and the transfers (R88). -/
def loadStoreRows : List Row :=
  readRows .lda 0xA9 0xA5 0xB5 0xAD 0xBD 0xB9 0xA1 0xB1 ++
  [.byte (.ldx ∘ .imm) 0xA2, .byte (.ldx ∘ .zp0) 0xA6, .byte (.ldx ∘ .zpy) 0xB6,
   .word (.ldx ∘ .abs) 0xAE, .word (.ldx ∘ .aby) 0xBE] ++
  [.byte (.ldy ∘ .imm) 0xA0, .byte (.ldy ∘ .zp0) 0xA4, .byte (.ldy ∘ .zpx) 0xB4,
   .word (.ldy ∘ .abs) 0xAC, .word (.ldy ∘ .abx) 0xBC] ++
  [.byte (.sta ∘ .zp0) 0x85, .byte (.sta ∘ .zpx) 0x95, .word (.sta ∘ .abs) 0x8D,
   .word (.sta ∘ .abx) 0x9D, .word (.sta ∘ .aby) 0x99, .byte (.sta ∘ .izx) 0x81,
   .byte (.sta ∘ .izy) 0x91] ++
  [.byte (.stx ∘ .zp0) 0x86, .byte (.stx ∘ .zpy) 0x96, .word (.stx ∘ .abs) 0x8E] ++
  [.byte (.sty ∘ .zp0) 0x84, .byte (.sty ∘ .zpx) 0x94, .word (.sty ∘ .abs) 0x8C] ++
  [.imp .tax 0xAA, .imp .txa 0x8A, .imp .tay 0xA8, .imp .tya 0x98, .imp .tsx 0xBA, .imp .txs 0x9A]

/-- The stack instructions, the branches, jumps, BRK and RTI (R88). -/
def controlRows : List Row :=
  [.imp .pha 0x48, .imp .pla 0x68, .imp .php 0x08, .imp .plp 0x28] ++
  [.byte .bcc 0x90, .byte .bcs 0xB0, .byte .beq 0xF0, .byte .bne 0xD0,
   .byte .bmi 0x30, .byte .bpl 0x10, .byte .bvc 0x50, .byte .bvs 0x70] ++
  [.word (.jmp ∘ .abs) 0x4C, .word (.jmp ∘ .ind) 0x6C, .word .jsr 0x20,
   .imp .rts 0x60, .imp .brk 0x00, .imp .rti 0x40]

/-- The flag instructions, BIT and NOP (R88). -/
def flagRows : List Row :=
  [.imp .sec 0x38, .imp .clc 0x18, .imp .sei 0x78, .imp .cli 0x58, .imp .sed 0xF8, .imp .cld 0xD8,
   .imp .clv 0xB8, .byte (.bit ∘ .zp0) 0x24, .word (.bit ∘ .abs) 0x2C, .imp (.nop .imp) 0xEA]

/-- The 151 documented entries of the decode table (R88). -/
def documentedRows : List Row :=
  arithmeticRows ++ shiftFamilyRows ++ compareRows ++ loadStoreRows ++ controlRows ++ flagRows

/-- The instruction that the opcode byte and the two bytes after it make, total on every byte (R87):
a documented entry, else a NOP variant (R91), else XXX (R90). -/
def decodeBytes (nv : List Byte) (op b1 b2 : Byte) : Instr :=
  match documentedRows.find? (fun r => r.opcode == op) with
  | some r => r.build b1 b2
  | none => if nv.contains op then .nop (.variant op b1) else .xxx op

/-- Why a list of bytes is no instruction: it ends too early. No opcode byte is rejected (R87). -/
inductive DecodeError where
  | noOpcode
  | operandMissing (op : Byte)
deriving DecidableEq, Repr

/-- The instruction at the head of a list of bytes and the bytes after it. -/
def decode (nv : List Byte) : List Byte → Except DecodeError (Instr × List Byte)
  | [] => .error .noOpcode
  | op :: rest =>
    let i := decodeBytes nv op (rest.getD 0 0) (rest.getD 1 0)
    if rest.length < i.operand.size then .error (.operandMissing op)
    else .ok (i, rest.drop i.operand.size)

/-- The instruction the decoder reads from an instruction whose bits are `w`, bit 0 the least
significant bit of the first byte, every bit above `nbits` zero, under the default parameters (R8). -/
def decodeTableWord (nbits w : Nat) : Option Instr :=
  let v := w % 2 ^ nbits
  match decode Params.default.nopVariants
      [BitVec.ofNat 8 v, BitVec.ofNat 8 (v / 256), BitVec.ofNat 8 (v / 65536)] with
  | .ok (i, _) => some i
  | .error _ => none

/-! ## The encoder (R80 to R84, R88) -/

def ReadMode.pick (imm zp0 zpx abs abx aby izx izy : Byte) : ReadMode → Byte
  | .imm _ => imm | .zp0 _ => zp0 | .zpx _ => zpx | .abs _ => abs | .abx _ => abx | .aby _ => aby
  | .izx _ => izx | .izy _ => izy

def ShiftMode.pick (acc zp0 zpx abs abx : Byte) : ShiftMode → Byte
  | .acc => acc | .zp0 _ => zp0 | .zpx _ => zpx | .abs _ => abs | .abx _ => abx

def MemMode.pick (zp0 zpx abs abx : Byte) : MemMode → Byte
  | .zp0 _ => zp0 | .zpx _ => zpx | .abs _ => abs | .abx _ => abx

def CpMode.pick (imm zp0 abs : Byte) : CpMode → Byte
  | .imm _ => imm | .zp0 _ => zp0 | .abs _ => abs

def LdxMode.pick (imm zp0 zpy abs aby : Byte) : LdxMode → Byte
  | .imm _ => imm | .zp0 _ => zp0 | .zpy _ => zpy | .abs _ => abs | .aby _ => aby

def LdyMode.pick (imm zp0 zpx abs abx : Byte) : LdyMode → Byte
  | .imm _ => imm | .zp0 _ => zp0 | .zpx _ => zpx | .abs _ => abs | .abx _ => abx

def StaMode.pick (zp0 zpx abs abx aby izx izy : Byte) : StaMode → Byte
  | .zp0 _ => zp0 | .zpx _ => zpx | .abs _ => abs | .abx _ => abx | .aby _ => aby
  | .izx _ => izx | .izy _ => izy

def StxMode.pick (zp0 zpy abs : Byte) : StxMode → Byte
  | .zp0 _ => zp0 | .zpy _ => zpy | .abs _ => abs

def StyMode.pick (zp0 zpx abs : Byte) : StyMode → Byte
  | .zp0 _ => zp0 | .zpx _ => zpx | .abs _ => abs

def BitMode.pick (zp0 abs : Byte) : BitMode → Byte
  | .zp0 _ => zp0 | .abs _ => abs

def JmpMode.pick (abs ind : Byte) : JmpMode → Byte
  | .abs _ => abs | .ind _ => ind

/-- The opcode byte of an instruction: the cells of R88 in the order of its columns. -/
def Instr.opcode : Instr → Byte
  | .adc m => m.pick 0x69 0x65 0x75 0x6D 0x7D 0x79 0x61 0x71
  | .sbc m => m.pick 0xE9 0xE5 0xF5 0xED 0xFD 0xF9 0xE1 0xF1
  | .and m => m.pick 0x29 0x25 0x35 0x2D 0x3D 0x39 0x21 0x31
  | .ora m => m.pick 0x09 0x05 0x15 0x0D 0x1D 0x19 0x01 0x11
  | .eor m => m.pick 0x49 0x45 0x55 0x4D 0x5D 0x59 0x41 0x51
  | .asl m => m.pick 0x0A 0x06 0x16 0x0E 0x1E
  | .lsr m => m.pick 0x4A 0x46 0x56 0x4E 0x5E
  | .rol m => m.pick 0x2A 0x26 0x36 0x2E 0x3E
  | .ror m => m.pick 0x6A 0x66 0x76 0x6E 0x7E
  | .cmp m => m.pick 0xC9 0xC5 0xD5 0xCD 0xDD 0xD9 0xC1 0xD1
  | .cpx m => m.pick 0xE0 0xE4 0xEC
  | .cpy m => m.pick 0xC0 0xC4 0xCC
  | .inc m => m.pick 0xE6 0xF6 0xEE 0xFE
  | .dec m => m.pick 0xC6 0xD6 0xCE 0xDE
  | .inx => 0xE8 | .iny => 0xC8 | .dex => 0xCA | .dey => 0x88
  | .lda m => m.pick 0xA9 0xA5 0xB5 0xAD 0xBD 0xB9 0xA1 0xB1
  | .ldx m => m.pick 0xA2 0xA6 0xB6 0xAE 0xBE
  | .ldy m => m.pick 0xA0 0xA4 0xB4 0xAC 0xBC
  | .sta m => m.pick 0x85 0x95 0x8D 0x9D 0x99 0x81 0x91
  | .stx m => m.pick 0x86 0x96 0x8E
  | .sty m => m.pick 0x84 0x94 0x8C
  | .tax => 0xAA | .txa => 0x8A | .tay => 0xA8 | .tya => 0x98 | .tsx => 0xBA | .txs => 0x9A
  | .pha => 0x48 | .pla => 0x68 | .php => 0x08 | .plp => 0x28
  | .bcc _ => 0x90 | .bcs _ => 0xB0 | .beq _ => 0xF0 | .bne _ => 0xD0
  | .bmi _ => 0x30 | .bpl _ => 0x10 | .bvc _ => 0x50 | .bvs _ => 0x70
  | .jmp m => m.pick 0x4C 0x6C
  | .jsr _ => 0x20 | .rts => 0x60 | .brk => 0x00 | .rti => 0x40
  | .sec => 0x38 | .clc => 0x18 | .sei => 0x78 | .cli => 0x58 | .sed => 0xF8 | .cld => 0xD8
  | .clv => 0xB8
  | .bit m => m.pick 0x24 0x2C
  | .nop .imp => 0xEA
  | .nop (.variant op _) => op
  | .xxx op => op

/-- The bytes of a well-formed instruction: the opcode byte, then the operand bytes (R80). -/
def encode (i : Instr) : List Byte := i.opcode :: i.operand.bytes

/-! ## Base cycle counts (R352, D9, D27) -/

/-- The table of R352, one list for each high nibble of the opcode byte. -/
def baseCycleRows : List (List Nat) :=
  [[7, 6, 0, 0, 0, 3, 5, 0, 3, 2, 2, 0, 0, 4, 6, 0],
   [2, 5, 0, 0, 0, 4, 6, 0, 2, 4, 0, 0, 0, 4, 7, 0],
   [6, 6, 0, 0, 3, 3, 5, 0, 4, 2, 2, 0, 4, 4, 6, 0],
   [2, 5, 0, 0, 0, 4, 6, 0, 2, 4, 0, 0, 0, 4, 7, 0],
   [6, 6, 0, 0, 0, 3, 5, 0, 3, 2, 2, 0, 3, 4, 6, 0],
   [2, 5, 0, 0, 0, 4, 6, 0, 2, 4, 0, 0, 0, 4, 7, 0],
   [6, 6, 0, 0, 0, 3, 5, 0, 4, 2, 2, 0, 5, 4, 6, 0],
   [2, 5, 0, 0, 0, 4, 6, 0, 2, 4, 0, 0, 0, 4, 7, 0],
   [0, 6, 0, 0, 3, 3, 3, 0, 2, 0, 2, 0, 4, 4, 4, 0],
   [2, 6, 0, 0, 4, 4, 4, 0, 2, 5, 2, 0, 0, 5, 0, 0],
   [2, 6, 2, 0, 3, 3, 3, 0, 2, 2, 2, 0, 4, 4, 4, 0],
   [2, 5, 0, 0, 4, 4, 4, 0, 2, 4, 2, 0, 4, 4, 4, 0],
   [2, 6, 0, 0, 3, 3, 5, 0, 2, 2, 2, 0, 4, 4, 6, 0],
   [2, 5, 0, 0, 0, 4, 6, 0, 2, 4, 0, 0, 0, 4, 7, 0],
   [2, 6, 0, 0, 3, 3, 5, 0, 2, 2, 2, 0, 4, 4, 6, 0],
   [2, 5, 0, 0, 0, 4, 6, 0, 2, 4, 0, 0, 0, 4, 7, 0]]

/-- The default `BASE_CYCLES` of an opcode byte (R352). -/
def defaultBaseCycles (op : Byte) : Nat :=
  (baseCycleRows.getD (op.toNat / 16) []).getD (op.toNat % 16) 0

/-- `BASE_CYCLES` of an opcode byte under the parameters: an override, else the table of R352, where a
NOP variant has the count 2 in place of the 0 shown (D27). -/
def Params.baseCycles (ps : Params) (op : Byte) : Nat :=
  match ps.baseOverrides.find? (fun e => e.1 == op) with
  | some e => e.2.val
  | none => if ps.nopVariants.contains op && undocumentedBytes.contains op then 2
            else defaultBaseCycles op

/-- The base count of a decode-table entry: 0 for XXX whatever the parameters (R87, R90, R353),
`BASE_CYCLES` of its opcode byte for every other (R113). -/
def Params.base (ps : Params) : Instr → Nat
  | .xxx _ => 0
  | i => ps.baseCycles i.opcode

/-- The parameters are as R8 and R91 type them: each opcode byte has at most one override, and the
variants are different undocumented bytes. -/
def Params.wf (ps : Params) : Bool :=
  decide (ps.baseOverrides.map Prod.fst).Nodup && decide ps.nopVariants.Nodup &&
  ps.nopVariants.all undocumentedBytes.contains

end Sys2Proof
end

