-- ==== Sys2Proof/Machine/State.lean ====
section
/-! DEFINITION. The state of the machine as plain data (spec/10_state.md R20 to R47), the events the host
may issue (spec/00_scope.md R6, R7), the reasons a step can stop, and the state right after reset
(R46, R340). -/

namespace Sys2Proof.Machine

/-- Memory (spec/20_memory.md R50) as a list of address and byte pairs in one canonical form
(`Memory.wf`): addresses strictly rising and below 65536, no entry equal to what an unlisted address
reads as (`Config.memoryBackground`). -/
abbrev Memory := List Host.Cell

/-- What the host can do to the machine (R6, R7, R72): the four events, and a write of one memory byte
between events. A host read changes nothing (R53) and needs no event. -/
inductive HostEvent where
  | clock
  | reset
  | irq
  | nmi
  | write (a : Addr) (v : Byte)
deriving DecidableEq, Repr

/-- Everything the spec gives the machine, and three fields of the model's own at the end. -/
@[ext]
structure State where
  /-- A, the accumulator (R21). -/
  a : Byte
  /-- X, an index register (R22). -/
  x : Byte
  /-- Y, an index register (R23). -/
  y : Byte
  /-- SP, the stack pointer, an offset into page 1 (R24). -/
  sp : Byte
  /-- P, the status register: C Z I D B U V N from bit 0 up (R26, R27). -/
  p : Byte
  /-- PC, the program counter (R25). -/
  pc : Addr
  /-- `opcode`, the current fetched opcode byte (R41). -/
  opcode : Byte
  /-- `fetched`, the operand byte after addressing-mode resolution (R41). -/
  fetched : Byte
  /-- `addr_abs`, the resolved effective address (R41). -/
  addrAbs : Addr
  /-- `addr_rel`, the sign-extended branch displacement (R41). -/
  addrRel : Addr
  /-- `is_implied`, the spec's form of `addr_mode_name` (R42). -/
  isImplied : Bool
  /-- `cycles_remaining`, the count of Idle clocks left, unsigned 8 bits (R43). -/
  cyclesRemaining : Byte
  /-- The 65536 bytes of memory (R50). -/
  mem : Memory
  /-- The model's own: the open parameters of R8 (log 3). -/
  params : Params
  /-- The model's own: whether a Reset event has happened, which R45 and U1 ask about (log 5). -/
  resetSeen : Bool
  /-- The model's own: the host's next events, first one first; when none is left the host issues
  `Clock` (log 4). -/
  hostEvents : List HostEvent
deriving DecidableEq, Repr

/-- Why the machine stops with a fault: never. No instruction raises a synchronous fault (R12, R304), so
the type has no constructor, and no state is a fault. -/
inductive Fault where
deriving DecidableEq, Repr

/-- Why a step has no next state. -/
inductive Refusal where
  /-- Raised by an arm of `exec` whose instruction has no meaning yet; no arm is left so. Safe. -/
  | notModelled (mnemonic : String)
  /-- Raised by `clock` before the first Reset, which the spec gives no meaning (R45, U1). Safe: no
  state follows. -/
  | clockBeforeReset
  /-- Raised by `irq` before the first Reset (R45, U1). Safe. -/
  | irqBeforeReset
  /-- Raised by `nmi` before the first Reset (R45, U1). Safe. -/
  | nmiBeforeReset
  /-- Raised by `irq` while `cycles_remaining` is not 0: the spec says a model refuses it (R315, D17, U2).
  Safe. -/
  | irqMidInstruction
  /-- Raised by `nmi` while `cycles_remaining` is not 0 (R315, D17, U2). Safe. -/
  | nmiMidInstruction
deriving DecidableEq, Repr

/-- The power-on state, before the first Reset (R45), over the memory image `MEM0` and the parameters of
R8. -/
def State.powerOn (mem0 : Memory) (ps : Params) : State :=
  { a := 0x00, x := 0x00, y := 0x00, sp := 0x00, p := 0x00, pc := 0x0000
    opcode := 0x00, fetched := 0x00, addrAbs := 0x0000, addrRel := 0x0000, isImplied := false
    cyclesRemaining := 0, mem := mem0, params := ps, resetSeen := false, hostEvents := [] }

/-- The machine right after reset (R46, R340). Memory lists nothing, so the reset vector reads 0x0000 and
PC is 0x0000 (logs 1 and 2); the parameters are the defaults of R8 (log 3). -/
def State.reset : State :=
  { a := 0x00, x := 0x00, y := 0x00, sp := 0xFD, p := 0x20, pc := 0x0000
    opcode := 0x00, fetched := 0x00, addrAbs := 0x0000, addrRel := 0x0000, isImplied := false
    cyclesRemaining := 8, mem := [], params := Params.default, resetSeen := true, hostEvents := [] }

end Sys2Proof.Machine
end

