-- ==== Sys2Proof/Machine/Memory.lean ====
section
/-! DEFINITION. The memory port (spec/20_memory.md R50 to R53): one byte read and one byte written, over
the canonical list of State.lean. Every address is valid and no access fails (R52). -/

namespace Sys2Proof.Machine

/-- The byte at key `k`: its entry, else the background (log 1). -/
def Memory.lookup (k : Nat) : Memory → Byte
  | [] => Config.memoryBackground
  | (k', v) :: rest => if k' = k then v else Memory.lookup k rest

/-- `read(address)` of R51. -/
def Memory.read (m : Memory) (a : Addr) : Byte := Memory.lookup a.toNat m

/-- Puts an entry before the first larger key. -/
def Memory.place (k : Nat) (v : Byte) : Memory → Memory
  | [] => [(k, v)]
  | (k', v') :: rest => if k < k' then (k, v) :: (k', v') :: rest else (k', v') :: Memory.place k v rest

/-- `write(address, value)` of R51: changes exactly the byte addressed (R53). Writing the background
removes the entry, so that equal memories are equal lists. -/
def Memory.write (m : Memory) (a : Addr) (v : Byte) : Memory :=
  let others := m.filter (fun c => c.1 != a.toNat)
  if v = Config.memoryBackground then others else Memory.place a.toNat v others

/-- The canonical form: addresses strictly rising and below 65536, no entry equal to the background. -/
def Memory.wf (m : Memory) : Bool :=
  decide (m.Pairwise (fun c d => c.1 < d.1)) &&
  m.all (fun c => decide (c.1 < 65536) && c.2 != Config.memoryBackground)

end Sys2Proof.Machine
end

