-- ==== Sys2Proof/Machine/Flags.lean ====
section
/-! DEFINITION. The status register P and every flag computation of the spec (spec/10_state.md R26 to R37,
and the helpers R160, R180, R190, R277). All are functions of bytes; none reads the machine state. -/

namespace Sys2Proof.Machine

/-- The eight flags of P (R26). -/
inductive Flag where
  | C | Z | I | D | B | U | V | N
deriving DecidableEq, Repr

/-- The bit number of a flag (R27). -/
def flagBit : Flag → Nat
  | .C => 0 | .Z => 1 | .I => 2 | .D => 3 | .B => 4 | .U => 5 | .V => 6 | .N => 7

/-- The mask of a flag (R10, R27). -/
def flagMask (f : Flag) : Byte := 1#8 <<< flagBit f

/-- Reading a flag: the masked bits are nonzero (R10, C6). -/
def getFlag (p : Byte) (f : Flag) : Bool := (p &&& flagMask f) != 0

/-- Writing a flag: "setting is 'OR in the mask', clearing is 'AND with the inverted mask'" (R10, C7). -/
def setFlag (p : Byte) (f : Flag) (b : Bool) : Byte :=
  if b then p ||| flagMask f else p &&& ~~~flagMask f

/-- Bit 7 of a byte, tested as "masked bit nonzero" (R30, C6). -/
def bit7 (v : Byte) : Bool := (v &&& 0x80) != 0

/-- Bit 6 of a byte (R277). -/
def bit6 (v : Byte) : Bool := (v &&& 0x40) != 0

/-- Bit 0 of a byte (R182). -/
def bit0 (v : Byte) : Bool := (v &&& 0x01) != 0

/-- `SetZN(v)` (R30). -/
def setZN (p v : Byte) : Byte := setFlag (setFlag p .Z (v == 0)) .N (bit7 v)

/-- The carry as a number. -/
def carryNat (p : Byte) : Nat := if getFlag p .C then 1 else 0

/-- The integer sum `A + m + P.C` of R160, 0 to 511. -/
def carrySum (p a m : Byte) : Nat := a.toNat + m.toNat + carryNat p

/-- The result of `AddWithCarry` (R160). -/
def addResult (p a m : Byte) : Byte := BitVec.ofNat 8 (carrySum p a m)

/-- The "standard sign-bit comparison" `(~(A ^ m) & (A ^ r))[7]` (R160, R161). -/
def addOverflow (a m r : Byte) : Bool := bit7 (~~~(a ^^^ m) &&& (a ^^^ r))

/-- P after `AddWithCarry(m)`: C, V, then Z and N (R160). D is neither read nor written (R162). -/
def addFlags (p a m : Byte) : Byte :=
  let r := addResult p a m
  setZN (setFlag (setFlag p .C (decide (carrySum p a m > 255))) .V (addOverflow a m r)) r

/-- P after a shift or rotate: C from the bit shifted out, Z and N from the result (R180). -/
def shiftFlags (p r : Byte) (out : Bool) : Byte := setZN (setFlag p .C out) r

/-- ASL: result and bit shifted out (R181). -/
def aslResult (v : Byte) : Byte × Bool := (v <<< 1, bit7 v)

/-- LSR: result and bit shifted out (R182). -/
def lsrResult (v : Byte) : Byte × Bool := (v >>> 1, bit0 v)

/-- ROL with the old carry entering bit 0 (R183). -/
def rolResult (c : Bool) (v : Byte) : Byte × Bool := ((v <<< 1) ||| (if c then 0x01 else 0x00), bit7 v)

/-- ROR with the old carry entering bit 7 (R184). -/
def rorResult (c : Bool) (v : Byte) : Byte × Bool := ((if c then 0x80 else 0x00) ||| (v >>> 1), bit0 v)

/-- P after `Compare(reg)` with operand `m` (R190). -/
def compareFlags (p reg m : Byte) : Byte :=
  setFlag (setFlag (setFlag p .C (decide (m.toNat ≤ reg.toNat))) .Z (reg == m)) .N (bit7 (reg - m))

/-- P after BIT with operand `m` (R277). -/
def bitFlags (p a m : Byte) : Byte :=
  setFlag (setFlag (setFlag p .Z ((a &&& m) == 0)) .N (bit7 m)) .V (bit6 m)

/-- The status byte PHP and BRK push: B and U set (R232, R254). -/
def statusPushedByInstruction (p : Byte) : Byte := p ||| 0x10 ||| 0x20

/-- The status byte an interrupt entry pushes: B clear, U set (R312). -/
def statusPushedByInterrupt (p : Byte) : Byte := (p &&& ~~~0x10) ||| 0x20

/-- P after PLP of a popped byte: U forced to 1 (R233). -/
def statusPulled (v : Byte) : Byte := v ||| 0x20

/-- P after the operation of RTI: B and U cleared in the restored status (R256). -/
def statusRestored (v : Byte) : Byte := v &&& ~~~0x10 &&& ~~~0x20

end Sys2Proof.Machine
end

