-- ==== Sys2Proof/Machine/Ops.lean ====
section
/-! DEFINITION. The named operations over memory and registers: the memory primitives (spec/00_scope.md
R11), the stack primitives (spec/20_memory.md R62 to R64), the first and the last steps of an
instruction (spec/40_fetch_decode_execute.md R111), taking an exception and returning from one
(spec/47_branch_jump_interrupt.md R254, R256; spec/60_exceptions.md R302, R312), and Reset
(spec/70_reset_and_hazards.md R340). -/

namespace Sys2Proof.Machine

/-! ## Memory -/

/-- `MemRead(addr, 1)` (R11). -/
def State.load (s : State) (a : Addr) : Byte := Memory.read s.mem a

/-- `MemWrite(addr, 1, v)` (R11). -/
def State.store (s : State) (a : Addr) (v : Byte) : State := { s with mem := Memory.write s.mem a v }

/-- `Read16(a)`: two bytes, the low one at `a`, the high one at `(a + 1) mod 65536` (R11, R54). -/
def State.read16 (s : State) (a : Addr) : Addr := join16 (s.load (a + 1)) (s.load a)

/-! ## The stack (R24, R62 to R64) -/

/-- The address of the stack slot that an SP names (R24). -/
def stackSlot (sp : Byte) : Addr := 0x0100#16 + zext16 sp

/-- `Push8(v)` (R62). -/
def State.push8 (s : State) (v : Byte) : State := { s.store (stackSlot s.sp) v with sp := s.sp - 1 }

/-- `Pop8()`: SP after the increment, and the byte of the slot it then names (R63). -/
def State.pop8 (s : State) : Byte × State :=
  (s.load (stackSlot (s.sp + 1)), { s with sp := s.sp + 1 })

/-- A 16-bit value is pushed high byte first (R64). -/
def State.push16 (s : State) (w : Addr) : State := (s.push8 (hi8 w)).push8 (lo8 w)

/-- A 16-bit value is popped low byte first (R64). -/
def State.pop16 (s : State) : Addr × State :=
  let lo := s.pop8
  let hi := lo.2.pop8
  (join16 hi.1 lo.1, hi.2)

/-! ## The frame of an instruction (R111) -/

/-- Steps 1 to 3: the opcode byte is taken, PC advanced past it, P.U forced to 1. -/
def State.beginInstr (s : State) (op : Byte) : State :=
  { s with opcode := op, pc := s.pc + 1, p := setFlag s.p .U true }

/-- The end: `cycles_remaining <- max(total - 1, 0)` (R110, R115) and step 7, P.U forced to 1. -/
def State.finishInstr (s : State) (total : Nat) : State :=
  { s with cyclesRemaining := BitVec.ofNat 8 (total - 1), p := setFlag s.p .U true }

/-- The output `complete` (R116). -/
def State.complete (s : State) : Bool := s.cyclesRemaining == 0

/-! ## Taking an exception and returning from one -/

/-- The NMI vector (R60). -/
def nmiVector : Addr := 0xFFFA

/-- The reset vector (R60). -/
def resetVector : Addr := 0xFFFC

/-- The vector shared by Irq and BRK (R60). -/
def irqVector : Addr := 0xFFFE

/-- Entering a handler: the return address is pushed high byte first, then the status byte, then I is
set, then PC is loaded from the vector (R254, R302, R312). -/
def State.takeException (s : State) (vector returnPc : Addr) (status : Byte) : State :=
  let t := (s.push16 returnPc).push8 status
  { t with p := setFlag t.p .I true, pc := t.read16 vector }

/-- `InterruptEntry(vector, n)` of Irq and Nmi (R312). -/
def State.interruptEntry (s : State) (vector : Addr) (n : Byte) : State :=
  let t := s.takeException vector s.pc (statusPushedByInterrupt s.p)
  { t with p := setFlag t.p .U true, cyclesRemaining := n }

/-- Returning from a handler: status, then PC low, then PC high are popped (R256, R320). -/
def State.returnFromException (s : State) : State :=
  let st := s.pop8
  let ret := st.2.pop16
  { ret.2 with p := statusRestored st.1, pc := ret.1 }

/-- The Reset event: the registers of R340 and R46, PC from the reset vector, memory as it was. It pushes
nothing. -/
def State.resetEvent (s : State) : State :=
  { s with
    pc := s.read16 resetVector
    a := 0x00, x := 0x00, y := 0x00, sp := 0xFD, p := 0x20
    opcode := 0x00, fetched := 0x00, addrAbs := 0x0000, addrRel := 0x0000, isImplied := false
    cyclesRemaining := 8, resetSeen := true }

end Sys2Proof.Machine
end

