-- ==== Sys2Proof/Machine/Operands.lean ====
section
/-! DEFINITION. The twelve addressing-mode resolvers, operand fetch and write-back
(spec/41_addressing_modes.md R130 to R147), and the frame every instruction runs in
(spec/40_fetch_decode_execute.md R111, R113). The operand bytes are those the decoder took from the
instruction's place in memory (log 8). -/

namespace Sys2Proof.Machine

/-- The target of the absolute-indirect pointer `w`: the high byte never comes from another page than the
low byte (R140). -/
def State.indirectTarget (s : State) (w : Addr) : Addr :=
  let lo := s.load w
  let hi := if lo8 w = 0xFF then s.load (w &&& 0xFF00) else s.load (w + 1)
  join16 hi lo

/-- The little-endian pointer at `t` in the zero page, both bytes from page 0 (R141, R142). -/
def State.zeroPagePointer (s : State) (t : Byte) : Addr :=
  join16 (s.load (zext16 (t + 1))) (s.load (zext16 t))

/-- `addr_abs` as the resolver leaves it, in the state at resolver entry (R132 to R143): IMP and REL leave
it as it was, IMM records the operand byte's own address. -/
def State.operandAddress (s : State) : Operand → Addr
  | .imp => s.addrAbs
  | .imm _ => s.pc
  | .zp0 t => zext16 t
  | .zpx t => zext16 (t + s.x)
  | .zpy t => zext16 (t + s.y)
  | .rel _ => s.addrAbs
  | .abs w => w
  | .abx w => w + zext16 s.x
  | .aby w => w + zext16 s.y
  | .ind w => s.indirectTarget w
  | .izx t => s.zeroPagePointer (t + s.x)
  | .izy t => s.zeroPagePointer t + zext16 s.y

/-- 1 when the index addition leaves the page of the base, else 0 (R144). -/
def crossBonus (base sum : Addr) : Nat := if hi8 sum ≠ hi8 base then 1 else 0

/-- The resolver's return value `e1`: only ABX, ABY and IZY can owe a cycle (R132 to R144). -/
def State.resolveBonus (s : State) : Operand → Nat
  | .abx w => crossBonus w (s.operandAddress (.abx w))
  | .aby w => crossBonus w (s.operandAddress (.aby w))
  | .izy t => crossBonus (s.zeroPagePointer t) (s.operandAddress (.izy t))
  | .imp | .imm _ | .zp0 _ | .zpx _ | .zpy _ | .rel _ | .abs _ | .ind _ | .izx _ => 0

/-- `addr_rel` as the resolver leaves it: only REL writes it (R143). -/
def State.resolveRel (s : State) : Operand → Addr
  | .rel d => sext16 d
  | .imp | .imm _ | .zp0 _ | .zpx _ | .zpy _ | .abs _ | .abx _ | .aby _ | .ind _ | .izx _ | .izy _ => s.addrRel

/-- `Resolve(mode)` (R130 to R143): PC past the operand bytes, `addr_abs` or `addr_rel`, `is_implied`, and
for IMP the copy of A in `fetched`. Its return value `e1` is `resolveBonus`. -/
def State.resolve (s : State) (m : Operand) : State :=
  { s with
    pc := s.pc + BitVec.ofNat 16 m.size
    addrAbs := s.operandAddress m
    addrRel := s.resolveRel m
    isImplied := decide (m = .imp)
    fetched := if m = .imp then s.a else s.fetched }

/-- `FetchOperand()` after the resolver (R146): `fetched` is the copy of A for IMP, the immediate byte for
IMM, the byte at `addr_abs` for every other mode. -/
def State.fetchOperand (s : State) : Operand → State
  | .imp => s
  | .imm v => { s with fetched := v }
  | .zp0 _ | .zpx _ | .zpy _ | .rel _ | .abs _ | .abx _ | .aby _ | .ind _ | .izx _ | .izy _ =>
    { s with fetched := s.load s.addrAbs }

/-- `WriteBack(v)` (R147): to A when the mode is implied, to memory at `addr_abs` otherwise. -/
def State.writeBack (s : State) (v : Byte) : State :=
  if s.isImplied then { s with a := v } else s.store s.addrAbs v

/-- `Instruction()` (R111): the opcode byte, the resolver, the operation with its bonus `e2`, the cycle
total `base + e1 + e2` (R113), and P.U forced before and after. -/
def runInstr (i : Instr) (operate : State → State × Nat) (s : State) : Host.Outcome State Fault Refusal :=
  let r := s.beginInstr i.opcode
  let q := operate (r.resolve i.operand)
  .next (q.1.finishInstr (s.params.base i + r.resolveBonus i.operand + q.2))

/-- An operation that owes no extra cycle. -/
def noBonus (f : State → State) (s : State) : State × Nat := (f s, 0)

/-- The frame of an operation that has no operand and owes no extra cycle. -/
def runPlain (i : Instr) (f : State → State) (s : State) : Host.Outcome State Fault Refusal :=
  runInstr i (noBonus f) s

/-- The frame of an operation that first calls `FetchOperand()` (R118) and owes no extra cycle. -/
def runFetched (i : Instr) (f : Byte → State → State) (s : State) : Host.Outcome State Fault Refusal :=
  runInstr i (noBonus fun t => f (t.fetchOperand i.operand).fetched (t.fetchOperand i.operand)) s

end Sys2Proof.Machine
end

