-- ==== Sys2Proof/Machine/Arithmetic.lean ====
section
/-! DEFINITION. ADC SBC AND ORA EOR (spec/42_arithmetic_logical.md R160 to R168). -/

namespace Sys2Proof.Machine

/-- `AddWithCarry(m)` (R160, R161); the D flag has no effect (R162). -/
def addWithCarry (m : Byte) (s : State) : State :=
  { s with a := addResult s.p s.a m, p := addFlags s.p s.a m }

/-- `A <- v; SetZN(A)`. -/
def loadA (v : Byte) (s : State) : State := { s with a := v, p := setZN s.p v }

/-- ADC (R163). -/
def execAdc (m : ReadMode) (s : State) : Host.Outcome State Fault Refusal :=
  runFetched (.adc m) addWithCarry s

/-- SBC adds the one's complement of the operand with the same carry (R164). -/
def execSbc (m : ReadMode) (s : State) : Host.Outcome State Fault Refusal :=
  runFetched (.sbc m) (fun v => addWithCarry (v ^^^ 0xFF)) s

/-- AND (R165). -/
def execAnd (m : ReadMode) (s : State) : Host.Outcome State Fault Refusal :=
  runFetched (.and m) (fun v t => loadA (t.a &&& v) t) s

/-- ORA (R166). -/
def execOra (m : ReadMode) (s : State) : Host.Outcome State Fault Refusal :=
  runFetched (.ora m) (fun v t => loadA (t.a ||| v) t) s

/-- EOR (R167). -/
def execEor (m : ReadMode) (s : State) : Host.Outcome State Fault Refusal :=
  runFetched (.eor m) (fun v t => loadA (t.a ^^^ v) t) s

end Sys2Proof.Machine
end

