-- ==== Sys2Proof/Machine/Compare.lean ====
section
/-! DEFINITION. CMP CPX CPY INC DEC INX INY DEX DEY (spec/44_compare_incdec.md R190 to R199). -/

namespace Sys2Proof.Machine

/-- CMP (R190, R191). -/
def execCmp (m : ReadMode) (s : State) : Host.Outcome State Fault Refusal :=
  runFetched (.cmp m) (fun v t => { t with p := compareFlags t.p t.a v }) s

/-- CPX (R190, R192). -/
def execCpx (m : CpMode) (s : State) : Host.Outcome State Fault Refusal :=
  runFetched (.cpx m) (fun v t => { t with p := compareFlags t.p t.x v }) s

/-- CPY (R190, R193). -/
def execCpy (m : CpMode) (s : State) : Host.Outcome State Fault Refusal :=
  runFetched (.cpy m) (fun v t => { t with p := compareFlags t.p t.y v }) s

/-- `MemWrite(addr_abs, 1, r); SetZN(r)` (R194, R195). -/
def storeZN (r : Byte) (s : State) : State :=
  { s.store s.addrAbs r with p := setZN s.p r }

/-- INC (R194). -/
def execInc (m : MemMode) (s : State) : Host.Outcome State Fault Refusal :=
  runFetched (.inc m) (fun v => storeZN (v + 1)) s

/-- DEC (R195). -/
def execDec (m : MemMode) (s : State) : Host.Outcome State Fault Refusal :=
  runFetched (.dec m) (fun v => storeZN (v - 1)) s

/-- `X <- v; SetZN(X)`. -/
def loadX (v : Byte) (s : State) : State := { s with x := v, p := setZN s.p v }

/-- `Y <- v; SetZN(Y)`. -/
def loadY (v : Byte) (s : State) : State := { s with y := v, p := setZN s.p v }

/-- INX (R196). -/
def execInx (s : State) : Host.Outcome State Fault Refusal :=
  runPlain .inx (fun t => loadX (t.x + 1) t) s

/-- INY (R197). -/
def execIny (s : State) : Host.Outcome State Fault Refusal :=
  runPlain .iny (fun t => loadY (t.y + 1) t) s

/-- DEX (R198). -/
def execDex (s : State) : Host.Outcome State Fault Refusal :=
  runPlain .dex (fun t => loadX (t.x - 1) t) s

/-- DEY (R199). -/
def execDey (s : State) : Host.Outcome State Fault Refusal :=
  runPlain .dey (fun t => loadY (t.y - 1) t) s

end Sys2Proof.Machine
end

