-- ==== Sys2Proof/Machine/Control.lean ====
section
/-! DEFINITION. The eight branches, JMP, JSR, RTS, BRK, RTI (spec/47_branch_jump_interrupt.md R240 to
R256). -/

namespace Sys2Proof.Machine

/-- The bonus of a taken branch: 1, or 2 when the target is in another page than the next instruction
(R240, C12). -/
def branchBonus (next target : Addr) : Nat := if hi8 target ≠ hi8 next then 2 else 1

/-- `Branch(cond)` (R240). -/
def branch (cond : State → Bool) (s : State) : State × Nat :=
  if cond s then
    let target := s.pc + s.addrRel
    ({ s with addrAbs := target, pc := target }, branchBonus s.pc target)
  else (s, 0)

/-- BCC (R241). -/
def execBcc (d : Byte) (s : State) : Host.Outcome State Fault Refusal :=
  runInstr (.bcc d) (branch fun t => !getFlag t.p .C) s

/-- BCS (R242). -/
def execBcs (d : Byte) (s : State) : Host.Outcome State Fault Refusal :=
  runInstr (.bcs d) (branch fun t => getFlag t.p .C) s

/-- BEQ (R243). -/
def execBeq (d : Byte) (s : State) : Host.Outcome State Fault Refusal :=
  runInstr (.beq d) (branch fun t => getFlag t.p .Z) s

/-- BNE (R244). -/
def execBne (d : Byte) (s : State) : Host.Outcome State Fault Refusal :=
  runInstr (.bne d) (branch fun t => !getFlag t.p .Z) s

/-- BMI (R245). -/
def execBmi (d : Byte) (s : State) : Host.Outcome State Fault Refusal :=
  runInstr (.bmi d) (branch fun t => getFlag t.p .N) s

/-- BPL (R246). -/
def execBpl (d : Byte) (s : State) : Host.Outcome State Fault Refusal :=
  runInstr (.bpl d) (branch fun t => !getFlag t.p .N) s

/-- BVC (R247). -/
def execBvc (d : Byte) (s : State) : Host.Outcome State Fault Refusal :=
  runInstr (.bvc d) (branch fun t => !getFlag t.p .V) s

/-- BVS (R248). -/
def execBvs (d : Byte) (s : State) : Host.Outcome State Fault Refusal :=
  runInstr (.bvs d) (branch fun t => getFlag t.p .V) s

/-- JMP, direct and indirect (R250). -/
def execJmp (m : JmpMode) (s : State) : Host.Outcome State Fault Refusal :=
  runPlain (.jmp m) (fun t => { t with pc := t.addrAbs }) s

/-- JSR pushes the address of its own last byte, high byte first (R252). -/
def execJsr (w : Addr) (s : State) : Host.Outcome State Fault Refusal :=
  runPlain (.jsr w) (fun t => { t.push16 (t.pc - 1) with pc := t.addrAbs }) s

/-- RTS (R253). -/
def execRts (s : State) : Host.Outcome State Fault Refusal :=
  runPlain .rts (fun t => { t.pop16.2 with pc := t.pop16.1 + 1 }) s

/-- BRK takes the exception at the IRQ/BRK vector; the return address skips one byte (R254, R302). -/
def execBrk (s : State) : Host.Outcome State Fault Refusal :=
  runPlain .brk (fun t => t.takeException irqVector (t.pc + 1) (statusPushedByInstruction t.p)) s

/-- RTI (R256, R320). -/
def execRti (s : State) : Host.Outcome State Fault Refusal :=
  runPlain .rti State.returnFromException s

end Sys2Proof.Machine
end

