-- ==== Sys2Proof/Machine/FlagOps.lean ====
section
/-! DEFINITION. SEC CLC SEI CLI SED CLD CLV BIT NOP XXX (spec/48_flag_bit_nop.md R270 to R281). -/

namespace Sys2Proof.Machine

/-- One flag set or cleared, no other bit touched. -/
def writeFlag (f : Flag) (b : Bool) (s : State) : State := { s with p := setFlag s.p f b }

/-- SEC (R270). -/
def execSec (s : State) : Host.Outcome State Fault Refusal := runPlain .sec (writeFlag .C true) s

/-- CLC (R271). -/
def execClc (s : State) : Host.Outcome State Fault Refusal := runPlain .clc (writeFlag .C false) s

/-- SEI (R272). -/
def execSei (s : State) : Host.Outcome State Fault Refusal := runPlain .sei (writeFlag .I true) s

/-- CLI (R273). -/
def execCli (s : State) : Host.Outcome State Fault Refusal := runPlain .cli (writeFlag .I false) s

/-- SED (R274). -/
def execSed (s : State) : Host.Outcome State Fault Refusal := runPlain .sed (writeFlag .D true) s

/-- CLD (R275). -/
def execCld (s : State) : Host.Outcome State Fault Refusal := runPlain .cld (writeFlag .D false) s

/-- CLV (R276). -/
def execClv (s : State) : Host.Outcome State Fault Refusal := runPlain .clv (writeFlag .V false) s

/-- BIT (R277). -/
def execBit (m : BitMode) (s : State) : Host.Outcome State Fault Refusal :=
  runFetched (.bit m) (fun v t => { t with p := bitFlags t.p t.a v }) s

/-- NOP returns the bonus 0 when implied, 1 as a variant; it fetches no operand (R280). -/
def execNop (m : NopMode) (s : State) : Host.Outcome State Fault Refusal :=
  runInstr (.nop m) (fun t => (t, if t.isImplied then 0 else 1)) s

/-- XXX changes nothing and owes no cycle (R281). -/
def execXxx (op : Byte) (s : State) : Host.Outcome State Fault Refusal := runPlain (.xxx op) (fun t => t) s

end Sys2Proof.Machine
end

