-- ==== Sys2Proof/Machine/LoadStore.lean ====
section
/-! DEFINITION. LDA LDX LDY STA STX STY TAX TXA TAY TYA TSX TXS (spec/45_load_store_transfer.md R210 to
R221). -/

namespace Sys2Proof.Machine

/-- LDA (R210). -/
def execLda (m : ReadMode) (s : State) : Host.Outcome State Fault Refusal :=
  runFetched (.lda m) loadA s

/-- LDX (R211). -/
def execLdx (m : LdxMode) (s : State) : Host.Outcome State Fault Refusal :=
  runFetched (.ldx m) loadX s

/-- LDY (R212). -/
def execLdy (m : LdyMode) (s : State) : Host.Outcome State Fault Refusal :=
  runFetched (.ldy m) loadY s

/-- STA: one write at `addr_abs`, no read, no flag (R213). -/
def execSta (m : StaMode) (s : State) : Host.Outcome State Fault Refusal :=
  runPlain (.sta m) (fun t => t.store t.addrAbs t.a) s

/-- STX (R214). -/
def execStx (m : StxMode) (s : State) : Host.Outcome State Fault Refusal :=
  runPlain (.stx m) (fun t => t.store t.addrAbs t.x) s

/-- STY (R215). -/
def execSty (m : StyMode) (s : State) : Host.Outcome State Fault Refusal :=
  runPlain (.sty m) (fun t => t.store t.addrAbs t.y) s

/-- TAX (R216). -/
def execTax (s : State) : Host.Outcome State Fault Refusal :=
  runPlain .tax (fun t => loadX t.a t) s

/-- TXA (R217). -/
def execTxa (s : State) : Host.Outcome State Fault Refusal :=
  runPlain .txa (fun t => loadA t.x t) s

/-- TAY (R218). -/
def execTay (s : State) : Host.Outcome State Fault Refusal :=
  runPlain .tay (fun t => loadY t.a t) s

/-- TYA (R219). -/
def execTya (s : State) : Host.Outcome State Fault Refusal :=
  runPlain .tya (fun t => loadA t.y t) s

/-- TSX (R220). -/
def execTsx (s : State) : Host.Outcome State Fault Refusal :=
  runPlain .tsx (fun t => loadX t.sp t) s

/-- TXS writes no flag (R221). -/
def execTxs (s : State) : Host.Outcome State Fault Refusal :=
  runPlain .txs (fun t => { t with sp := t.x }) s

end Sys2Proof.Machine
end

