-- ==== Sys2Proof/Machine/Shift.lean ====
section
/-! DEFINITION. ASL LSR ROL ROR (spec/43_shift_rotate.md R180 to R184). -/

namespace Sys2Proof.Machine

/-- The end of a shift: C from the bit shifted out, Z and N from the result, and the write-back to A or to
memory (R180). -/
def shiftEffect (r : Byte × Bool) (s : State) : State :=
  ({ s with p := shiftFlags s.p r.1 r.2 }).writeBack r.1

/-- ASL (R181). -/
def execAsl (m : ShiftMode) (s : State) : Host.Outcome State Fault Refusal :=
  runFetched (.asl m) (fun v => shiftEffect (aslResult v)) s

/-- LSR (R182). -/
def execLsr (m : ShiftMode) (s : State) : Host.Outcome State Fault Refusal :=
  runFetched (.lsr m) (fun v => shiftEffect (lsrResult v)) s

/-- ROL: the old C is read before C is written (R183). -/
def execRol (m : ShiftMode) (s : State) : Host.Outcome State Fault Refusal :=
  runFetched (.rol m) (fun v t => shiftEffect (rolResult (getFlag t.p .C) v) t) s

/-- ROR: the old C is read before C is written (R184). -/
def execRor (m : ShiftMode) (s : State) : Host.Outcome State Fault Refusal :=
  runFetched (.ror m) (fun v t => shiftEffect (rorResult (getFlag t.p .C) v) t) s

end Sys2Proof.Machine
end

