-- ==== Sys2Proof/Machine/Stack.lean ====
section
/-! DEFINITION. PHA PLA PHP PLP (spec/46_stack.md R230 to R234). -/

namespace Sys2Proof.Machine

/-- PHA (R230). -/
def execPha (s : State) : Host.Outcome State Fault Refusal :=
  runPlain .pha (fun t => t.push8 t.a) s

/-- PLA (R231). -/
def execPla (s : State) : Host.Outcome State Fault Refusal :=
  runPlain .pla (fun t => loadA t.pop8.1 t.pop8.2) s

/-- PHP: the pushed copy has B and U set, the stored P is not changed (R232). -/
def execPhp (s : State) : Host.Outcome State Fault Refusal :=
  runPlain .php (fun t => t.push8 (statusPushedByInstruction t.p)) s

/-- PLP: all of P from the popped byte, U forced to 1 (R233). -/
def execPlp (s : State) : Host.Outcome State Fault Refusal :=
  runPlain .plp (fun t => { t.pop8.2 with p := statusPulled t.pop8.1 }) s

end Sys2Proof.Machine
end

