-- ==== Sys2Proof/Machine/Events.lean ====
section
/-! DEFINITION. The host's events (spec/00_scope.md R6, R7): `Clock` (spec/40_fetch_decode_execute.md
R110), `Reset` (spec/70_reset_and_hazards.md R340), `Irq` and `Nmi` (spec/60_exceptions.md R311, R313),
and a host write of memory between events (spec/20_memory.md R72). An event outside the host's
contract is refused by name (R315, U1, U2). -/

namespace Sys2Proof.Machine

/-- The instruction whose bytes lie at PC, PC + 1 and PC + 2 (R80; the addresses wrap, R58). Reading a
byte the instruction turns out not to have changes nothing (R53, log 8). -/
def State.instrAtPc (s : State) : Instr :=
  decodeBytes s.params.nopVariants (s.load s.pc) (s.load (s.pc + 1)) (s.load (s.pc + 2))

/-- The Idle clock: nothing changes but the count (R110). -/
def State.idle (s : State) : State := { s with cyclesRemaining := s.cyclesRemaining - 1 }

/-- The `Clock` event (R110): Idle while the count is not 0, else a whole instruction (R111). -/
def clockEvent (s : State) : Host.Outcome State Fault Refusal :=
  if s.resetSeen = false then .refused .clockBeforeReset
  else if s.cyclesRemaining ≠ 0 then .next s.idle
  else exec s.instrAtPc s

/-- The `Irq` event: nothing changes when I is 1, else the entry at 0xFFFE with 7 Idle clocks (R311). -/
def irqEvent (s : State) : Host.Outcome State Fault Refusal :=
  if s.resetSeen = false then .refused .irqBeforeReset
  else if s.cyclesRemaining ≠ 0 then .refused .irqMidInstruction
  else if getFlag s.p .I then .next s
  else .next (s.interruptEntry irqVector 7)

/-- The `Nmi` event: the entry at 0xFFFA with 8 Idle clocks, whatever I is (R313). -/
def nmiEvent (s : State) : Host.Outcome State Fault Refusal :=
  if s.resetSeen = false then .refused .nmiBeforeReset
  else if s.cyclesRemaining ≠ 0 then .refused .nmiMidInstruction
  else .next (s.interruptEntry nmiVector 8)

/-- One event of the host. -/
def hostEvent (e : HostEvent) (s : State) : Host.Outcome State Fault Refusal :=
  match e with
  | .clock => clockEvent s
  | .reset => .next s.resetEvent
  | .irq => irqEvent s
  | .nmi => nmiEvent s
  | .write a v => .next (s.store a v)

/-- The next event of the host: the first of the list, or `Clock` when the list is empty (log 4). -/
def nextEvent (s : State) : Host.Outcome State Fault Refusal :=
  match s.hostEvents with
  | [] => hostEvent .clock s
  | e :: es => hostEvent e { s with hostEvents := es }

/-- The three bytes of an instruction word, bit 0 of `w` the least significant bit of the first byte,
stored at PC; every bit above `nbits` is 0. -/
def State.putWord (s : State) (nbits w : Nat) : State :=
  let v := w % 2 ^ nbits
  ((s.store s.pc (BitVec.ofNat 8 v)).store (s.pc + 1) (BitVec.ofNat 8 (v / 256))).store (s.pc + 2)
    (BitVec.ofNat 8 (v / 65536))

end Sys2Proof.Machine
end

