-- ==== Sys2Proof/Machine/Step.lean ====
section
/-! DEFINITION. One step of the machine is one event of the host (spec/00_scope.md R6, log 6). -/

namespace Sys2Proof.Machine

/-- One event: the host's next one, `Clock` when its list is empty (log 4). -/
def step (s : State) : Host.Outcome State Fault Refusal := nextEvent s

/-- `s` with an instruction word stored at PC, and with what the very next step needs to fetch it: an
instruction boundary, after a Reset, and no other host event first (log 7). -/
def State.withFetchWord (s : State) (nbits w : Nat) : State :=
  { s.putWord nbits w with cyclesRemaining := 0, resetSeen := true, hostEvents := [] }

end Sys2Proof.Machine
end

