-- ==== Sys2Proof/Machine/Bus.lean ====
section
/-! DEFINITION. The bus transactions of one instruction and of one event, in order
(spec/41_addressing_modes.md R148, spec/60_exceptions.md R312, spec/70_reset_and_hazards.md R340), as
functions of the state before it. They are no state of the machine (D25); the effect of an instruction
on memory is stated against them. -/

namespace Sys2Proof.Machine

/-- One transaction on the memory port, with the byte that is moved (R11). -/
inductive BusCycle where
  | read (a : Addr) (v : Byte)
  | write (a : Addr) (v : Byte)
deriving DecidableEq, Repr

/-- A read of the byte memory holds at `a`. -/
def State.readCycle (s : State) (a : Addr) : BusCycle := .read a (s.load a)

/-- The resolver's transactions, with the opcode at `s.pc` (R148, first table). -/
def State.resolverBus (s : State) : Operand → List BusCycle
  | .imp | .imm _ => []
  | .zp0 b | .zpx b | .zpy b | .rel b => [.read (s.pc + 1) b]
  | .abs w | .abx w | .aby w => [.read (s.pc + 1) (lo8 w), .read (s.pc + 2) (hi8 w)]
  | .ind w =>
    [.read (s.pc + 1) (lo8 w), .read (s.pc + 2) (hi8 w), s.readCycle w,
     s.readCycle (if lo8 w = 0xFF then w &&& 0xFF00 else w + 1)]
  | .izx t => [.read (s.pc + 1) t, s.readCycle (zext16 (t + s.x)), s.readCycle (zext16 (t + s.x + 1))]
  | .izy t => [.read (s.pc + 1) t, s.readCycle (zext16 t), s.readCycle (zext16 (t + 1))]

/-- The operand an operation fetches, in the state before the instruction (R85, R146). -/
def State.operandValue (s : State) : Operand → Byte
  | .imp => s.a
  | .imm v => v
  | .zp0 t => s.load (s.operandAddress (.zp0 t))
  | .zpx t => s.load (s.operandAddress (.zpx t))
  | .zpy t => s.load (s.operandAddress (.zpy t))
  | .rel d => s.load (s.operandAddress (.rel d))
  | .abs w => s.load (s.operandAddress (.abs w))
  | .abx w => s.load (s.operandAddress (.abx w))
  | .aby w => s.load (s.operandAddress (.aby w))
  | .ind w => s.load (s.operandAddress (.ind w))
  | .izx t => s.load (s.operandAddress (.izx t))
  | .izy t => s.load (s.operandAddress (.izy t))

/-- The transaction of `FetchOperand()`: none for IMP, the operand byte for IMM, else the byte at
`addr_abs` (R146). -/
def State.fetchBus (s : State) (m : Operand) : List BusCycle :=
  match m with
  | .imp => []
  | .imm v => [.read (s.pc + 1) v]
  | .zp0 _ | .zpx _ | .zpy _ | .rel _ | .abs _ | .abx _ | .aby _ | .ind _ | .izx _ | .izy _ =>
    [.read (s.operandAddress m) (s.operandValue m)]

/-- The transaction of a write-back or a store: none for IMP (R147). -/
def State.storeBus (s : State) (m : Operand) (v : Byte) : List BusCycle :=
  if m = .imp then [] else [.write (s.operandAddress m) v]

/-- The pushes of a 16-bit value, with SP before them (R64). -/
def push16Bus (sp : Byte) (w : Addr) : List BusCycle :=
  [.write (stackSlot sp) (hi8 w), .write (stackSlot (sp - 1)) (lo8 w)]

/-- An exception entry: three pushes and the two bytes of the vector (R148, R312). -/
def State.exceptionBus (s : State) (vector returnPc : Addr) (status : Byte) : List BusCycle :=
  push16Bus s.sp returnPc ++
  [.write (stackSlot (s.sp - 2)) status, s.readCycle vector, s.readCycle (vector + 1)]

/-- The operation's transactions (R148, second table). -/
def State.operationBus (s : State) (i : Instr) : List BusCycle :=
  match i with
  | .adc _ | .sbc _ | .and _ | .ora _ | .eor _ | .cmp _ | .cpx _ | .cpy _ | .bit _
  | .lda _ | .ldx _ | .ldy _ => s.fetchBus i.operand
  | .asl m => s.fetchBus m.toOperand ++ s.storeBus m.toOperand (aslResult (s.operandValue m.toOperand)).1
  | .lsr m => s.fetchBus m.toOperand ++ s.storeBus m.toOperand (lsrResult (s.operandValue m.toOperand)).1
  | .rol m =>
    s.fetchBus m.toOperand ++
    s.storeBus m.toOperand (rolResult (getFlag s.p .C) (s.operandValue m.toOperand)).1
  | .ror m =>
    s.fetchBus m.toOperand ++
    s.storeBus m.toOperand (rorResult (getFlag s.p .C) (s.operandValue m.toOperand)).1
  | .inc m => s.fetchBus m.toOperand ++ s.storeBus m.toOperand (s.operandValue m.toOperand + 1)
  | .dec m => s.fetchBus m.toOperand ++ s.storeBus m.toOperand (s.operandValue m.toOperand - 1)
  | .sta m => s.storeBus m.toOperand s.a
  | .stx m => s.storeBus m.toOperand s.x
  | .sty m => s.storeBus m.toOperand s.y
  | .pha => [.write (stackSlot s.sp) s.a]
  | .php => [.write (stackSlot s.sp) (statusPushedByInstruction s.p)]
  | .pla | .plp => [s.readCycle (stackSlot (s.sp + 1))]
  | .jsr _ => push16Bus s.sp (s.pc + 2)
  | .rts => [s.readCycle (stackSlot (s.sp + 1)), s.readCycle (stackSlot (s.sp + 2))]
  | .brk => s.exceptionBus irqVector (s.pc + 2) (statusPushedByInstruction s.p)
  | .rti =>
    [s.readCycle (stackSlot (s.sp + 1)), s.readCycle (stackSlot (s.sp + 2)),
     s.readCycle (stackSlot (s.sp + 3))]
  | .inx | .iny | .dex | .dey | .tax | .txa | .tay | .tya | .tsx | .txs
  | .bcc _ | .bcs _ | .beq _ | .bne _ | .bmi _ | .bpl _ | .bvc _ | .bvs _ | .jmp _
  | .sec | .clc | .sei | .cli | .sed | .cld | .clv | .nop _ | .xxx _ => []

/-- All transactions of an instruction: the opcode, the resolver's, the operation's (R148). -/
def State.instrBus (s : State) (i : Instr) : List BusCycle :=
  .read s.pc i.opcode :: s.resolverBus i.operand ++ s.operationBus i

/-- The core's transactions in one event; a host write is not the core's. -/
def State.eventBus (s : State) : HostEvent → List BusCycle
  | .clock => if s.complete then s.instrBus s.instrAtPc else []
  | .reset => [s.readCycle resetVector, s.readCycle (resetVector + 1)]
  | .irq =>
    if getFlag s.p .I then [] else s.exceptionBus irqVector s.pc (statusPushedByInterrupt s.p)
  | .nmi => s.exceptionBus nmiVector s.pc (statusPushedByInterrupt s.p)
  | .write _ _ => []

/-- The memory after a list of transactions, in order (R65); none when a read moves another byte than
memory then holds. -/
def replay (m : Memory) : List BusCycle → Option Memory
  | [] => some m
  | .read a v :: rest => if Memory.read m a = v then replay m rest else none
  | .write a v :: rest => replay (Memory.write m a v) rest

end Sys2Proof.Machine
end

