-- ==== Sys2Proof/Safety.lean ====
section
/-! DEFINITION. What counts as a safe run, and the words the claims use: the host's contract
(spec/00_scope.md R7), the invariant of every boundary and of every Idle clock (spec/10_state.md R34, R43,
R45), what an instruction writes (R20, R28 to R37) and what it leaves alone. -/

namespace Sys2Proof.Machine

/-! ## The host's contract and the invariant -/

/-- The events the host may issue in a state (R7): `Reset` and memory writes always, `Clock` after the
first Reset, `Irq` and `Nmi` after it and only when `complete`. -/
def State.permits (s : State) : HostEvent → Bool
  | .clock => s.resetSeen
  | .irq | .nmi => s.resetSeen && s.complete
  | .reset | .write _ _ => true

/-- The event the host issues next (log 4). -/
def State.nextHostEvent (s : State) : HostEvent := s.hostEvents.headD .clock

/-- What holds of every state of a run: memory is in canonical form, the parameters are as R8 types them,
`cycles_remaining` is at most 8, after the first Reset P.U is 1 (R34), and before it the registers are
those of the power-on state (R45). -/
def State.Inv (s : State) : Prop :=
  Memory.wf s.mem = true ∧ s.params.wf = true ∧ s.cyclesRemaining.toNat ≤ 8 ∧
  (s.resetSeen = true → getFlag s.p .U = true) ∧
  (s.resetSeen = false →
    s = { State.powerOn s.mem s.params with hostEvents := s.hostEvents })

/-- `k` steps of this machine: the host's `Host.Core.run`. -/
def run (k : Nat) (s : State) : Host.Outcome State Fault Refusal := Sys2Proof.core.run k s

/-- A run has ended at the halt address `h` the host names (R344, D18). -/
def State.haltedAt (h : Addr) (s : State) : Bool := s.complete && s.pc == h

/-! ## Registers and frames -/

/-- The numbered registers other than PC and P. -/
inductive Reg where
  | A | X | Y | SP
deriving DecidableEq, Repr

def State.reg (s : State) : Reg → Byte
  | .A => s.a | .X => s.x | .Y => s.y | .SP => s.sp

/-- Everything but the registers `rs`, the flags `fs`, PC, memory, the transients and the count is as it
was, and U is 1 (R37: "every flag not on that line keeps its value, with the one standing exception that
`P.U` is forced to 1 by every instruction"). -/
def Kept (rs : List Reg) (fs : List Flag) (s t : State) : Prop :=
  (∀ r, r ∉ rs → t.reg r = s.reg r) ∧
  (∀ f, f ∉ fs → f ≠ .U → getFlag t.p f = getFlag s.p f) ∧ getFlag t.p .U = true ∧
  t.params = s.params ∧ t.resetSeen = s.resetSeen ∧ t.hostEvents = s.hostEvents

/-- Every byte of memory outside `as` reads as before. -/
def MemKept (as : List Addr) (s t : State) : Prop := ∀ a, a ∉ as → t.load a = s.load a

/-- Z and N describe the byte `v` (R30). -/
def ZNof (t : State) (v : Byte) : Prop :=
  getFlag t.p .Z = decide (v = 0) ∧ getFlag t.p .N = decide (128 ≤ v.toNat)

/-- PC is at the byte after instruction `i` that began at `s.pc` (R25, R83). -/
def Falls (i : Instr) (s t : State) : Prop := t.pc = s.pc + BitVec.ofNat 16 i.length

/-- The registers an instruction writes, PC and P apart (R20). -/
def regsWritten : Instr → List Reg
  | .adc _ | .sbc _ | .and _ | .ora _ | .eor _ | .lda _ | .txa | .tya => [.A]
  | .asl m | .lsr m | .rol m | .ror m => if m = .acc then [.A] else []
  | .ldx _ | .tax | .tsx | .inx | .dex => [.X]
  | .ldy _ | .tay | .iny | .dey => [.Y]
  | .pla => [.A, .SP]
  | .pha | .php | .plp | .jsr _ | .rts | .brk | .rti | .txs => [.SP]
  | .cmp _ | .cpx _ | .cpy _ | .inc _ | .dec _ | .sta _ | .stx _ | .sty _
  | .bcc _ | .bcs _ | .beq _ | .bne _ | .bmi _ | .bpl _ | .bvc _ | .bvs _ | .jmp _
  | .sec | .clc | .sei | .cli | .sed | .cld | .clv | .bit _ | .nop _ | .xxx _ => []

/-- The "Flags written" line of an instruction's rule (R37), U apart. -/
def flagsWritten : Instr → List Flag
  | .adc _ | .sbc _ => [.C, .V, .Z, .N]
  | .asl _ | .lsr _ | .rol _ | .ror _ | .cmp _ | .cpx _ | .cpy _ => [.C, .Z, .N]
  | .and _ | .ora _ | .eor _ | .inc _ | .dec _ | .inx | .iny | .dex | .dey
  | .lda _ | .ldx _ | .ldy _ | .tax | .txa | .tay | .tya | .tsx | .pla => [.Z, .N]
  | .bit _ => [.Z, .N, .V]
  | .plp | .rti => [.C, .Z, .I, .D, .B, .V, .N]
  | .brk | .sei | .cli => [.I]
  | .sec | .clc => [.C]
  | .sed | .cld => [.D]
  | .clv => [.V]
  | .sta _ | .stx _ | .sty _ | .txs | .pha | .php
  | .bcc _ | .bcs _ | .beq _ | .bne _ | .bmi _ | .bpl _ | .bvc _ | .bvs _
  | .jmp _ | .jsr _ | .rts | .nop _ | .xxx _ => []

/-- The bytes of memory an instruction stores to, in the state before it (R148). -/
def State.storedTo (s : State) : Instr → List Addr
  | .sta m => [s.operandAddress m.toOperand]
  | .stx m => [s.operandAddress m.toOperand]
  | .sty m => [s.operandAddress m.toOperand]
  | .inc m | .dec m => [s.operandAddress m.toOperand]
  | .asl m | .lsr m | .rol m | .ror m => if m = .acc then [] else [s.operandAddress m.toOperand]
  | .pha | .php => [stackSlot s.sp]
  | .jsr _ => [stackSlot s.sp, stackSlot (s.sp - 1)]
  | .brk => [stackSlot s.sp, stackSlot (s.sp - 1), stackSlot (s.sp - 2)]
  | .adc _ | .sbc _ | .and _ | .ora _ | .eor _ | .cmp _ | .cpx _ | .cpy _ | .inx | .iny | .dex | .dey
  | .lda _ | .ldx _ | .ldy _ | .tax | .txa | .tay | .tya | .tsx | .txs | .pla | .plp
  | .bcc _ | .bcs _ | .beq _ | .bne _ | .bmi _ | .bpl _ | .bvc _ | .bvs _ | .jmp _ | .rts | .rti
  | .sec | .clc | .sei | .cli | .sed | .cld | .clv | .bit _ | .nop _ | .xxx _ => []

/-- The bytes of instruction `i` lie in memory from PC on, wrapping at the top (R58, R80). -/
def State.holds (s : State) (i : Instr) : Prop :=
  ∀ k, k < i.length → s.load (s.pc + BitVec.ofNat 16 k) = (encode i).getD k 0

/-- The state but for `BASE_CYCLES` and the count, which no architectural result depends on (R114). -/
def State.untimed (s : State) : State :=
  { s with cyclesRemaining := 0, params := { s.params with baseOverrides := [] } }

/-- The state but for the five transients that no instruction reads before writing them (R40). -/
def State.untransient (s : State) : State :=
  { s with opcode := 0, fetched := 0, addrAbs := 0, addrRel := 0, isImplied := false }

end Sys2Proof.Machine
end

