-- ==== Sys2Proof/Certificates/Slice0/Obligations.lean ====
section
/-! DEFINITION. The statements for the provers. Each docstring names the rule of spec/ it formalises, and
where a clause rests on a decision the spec marks as its own (D<n> of spec/92_eei_decisions.md) or on a
log entry of the model, it says so. -/

namespace Sys2Proof.Machine

/-! ## The words of the statements -/

/-- The carry as a number, before the instruction. -/
def carryIn (s : State) : Nat := if getFlag s.p .C then 1 else 0

/-- A signed value outside -128 to 127. -/
def OutOfSignedRange (z : Int) : Prop := z < -128 ∨ 127 < z

/-- An instruction that writes `val` to one register, with Z and N from it, and nothing else. -/
def WritesReg (i : Instr) (dst : Reg) (val : State → Byte) : Prop :=
  ∀ s : State, ∃ t, exec i s = .next t ∧ t.reg dst = val s ∧ ZNof t (val s) ∧ Falls i s t ∧
    Kept [dst] [.Z, .N] s t ∧ MemKept [] s t

/-- A one-bit shift or rotate (R180): the result `res c v` of the carry and the operand goes to A or to the
operand's byte, C is `out v`, Z and N describe the result. -/
def ShiftsBy (mk : ShiftMode → Instr) (res : Nat → Nat → Nat) (out : Nat → Bool) : Prop :=
  ∀ (m : ShiftMode) (s : State), ∃ t, exec (mk m) s = .next t ∧
    let v := (s.operandValue m.toOperand).toNat
    let r : Byte := BitVec.ofNat 8 (res (carryIn s) v)
    getFlag t.p .C = out v ∧ ZNof t r ∧ Falls (mk m) s t ∧
    (m = .acc → t.a = r ∧ Kept [.A] [.C, .Z, .N] s t ∧ MemKept [] s t) ∧
    (m ≠ .acc → t.load (s.operandAddress m.toOperand) = r ∧ Kept [] [.C, .Z, .N] s t ∧
      MemKept [s.operandAddress m.toOperand] s t)

/-- A compare (R190): C, Z and N from the register and the operand, nothing stored. -/
def Compares (i : Instr) (reg : State → Byte) : Prop :=
  ∀ s : State, ∃ t, exec i s = .next t ∧
    let m := s.operandValue i.operand
    getFlag t.p .C = decide (m.toNat ≤ (reg s).toNat) ∧ getFlag t.p .Z = decide (reg s = m) ∧
    getFlag t.p .N = decide (128 ≤ ((reg s).toNat + 256 - m.toNat) % 256) ∧
    Falls i s t ∧ Kept [] [.C, .Z, .N] s t ∧ MemKept [] s t

/-- A store (R213 to R215): the register's byte goes to the resolved address, no flag and no register
changes, and no other byte. -/
def StoresReg (i : Instr) (reg : State → Byte) : Prop :=
  ∀ s : State, ∃ t, exec i s = .next t ∧ t.load (s.operandAddress i.operand) = reg s ∧
    Falls i s t ∧ Kept [] [] s t ∧ MemKept [s.operandAddress i.operand] s t

/-- A branch on one flag (R240): its only bus transactions are the two reads of its bytes, it writes PC alone,
and its count has the bonus it owes. -/
def BranchesOn (mk : Byte → Instr) (f : Flag) (b : Bool) : Prop :=
  ∀ (d : Byte) (s : State), ∃ t, exec (mk d) s = .next t ∧ Kept [] [] s t ∧ MemKept [] s t ∧
    s.instrBus (mk d) = [.read s.pc (mk d).opcode, .read (s.pc + 1) d] ∧
    Params.default.base (mk d) = 2 ∧
    let next := s.pc + 2
    if getFlag s.p f = b then
      (t.pc.toNat : Int) = ((next.toNat : Int) + d.toInt) % 65536 ∧ t.addrAbs = t.pc ∧
      t.cyclesRemaining.toNat + 1 =
        max (s.params.base (mk d) + if t.pc.toNat / 256 = next.toNat / 256 then 1 else 2) 1
    else t.pc = next ∧ t.cyclesRemaining.toNat + 1 = max (s.params.base (mk d)) 1

/-- An instruction that sets or clears one flag and does nothing else. -/
def WritesFlag (i : Instr) (f : Flag) (b : Bool) : Prop :=
  ∀ s : State, ∃ t, exec i s = .next t ∧ getFlag t.p f = b ∧ Falls i s t ∧ Kept [] [f] s t ∧
    MemKept [] s t

/-- The three bytes an exception entry leaves in the stack page, the return address and the flags of the
status byte given. -/
def PushedFrame (s t : State) (ret : Addr) (status : Flag → Bool) : Prop :=
  t.sp = s.sp - 3 ∧ t.load (stackSlot s.sp) = hi8 ret ∧ t.load (stackSlot (s.sp - 1)) = lo8 ret ∧
  (∀ f, getFlag (t.load (stackSlot (s.sp - 2))) f = status f) ∧
  MemKept [stackSlot s.sp, stackSlot (s.sp - 1), stackSlot (s.sp - 2)] s t

/-- Adding the index to the base leaves the base's 256-byte page (R144). -/
def crossesPage (base : Addr) (index : Byte) : Bool :=
  decide (base.toNat / 256 ≠ (base.toNat + index.toNat) % 65536 / 256)

/-- The page-cross bonus an operand owes (R113, R144). -/
def pageBonus (s : State) : Operand → Nat
  | .abx w => if crossesPage w s.x then 1 else 0
  | .aby w => if crossesPage w s.y then 1 else 0
  | .izy t => if crossesPage (join16 (s.load (zext16 (t + 1))) (s.load (zext16 t))) s.y then 1 else 0
  | .imp | .imm _ | .zp0 _ | .zpx _ | .zpy _ | .rel _ | .abs _ | .ind _ | .izx _ => 0

/-- The flag a branch tests, the value it wants and its displacement (R241 to R248). -/
def branchTest : Instr → Option (Flag × Bool × Byte)
  | .bcc d => some (.C, false, d) | .bcs d => some (.C, true, d)
  | .bne d => some (.Z, false, d) | .beq d => some (.Z, true, d)
  | .bpl d => some (.N, false, d) | .bmi d => some (.N, true, d)
  | .bvc d => some (.V, false, d) | .bvs d => some (.V, true, d)
  | .adc _ | .sbc _ | .and _ | .ora _ | .eor _ | .asl _ | .lsr _ | .rol _ | .ror _
  | .cmp _ | .cpx _ | .cpy _ | .inc _ | .dec _ | .inx | .iny | .dex | .dey
  | .lda _ | .ldx _ | .ldy _ | .sta _ | .stx _ | .sty _ | .tax | .txa | .tay | .tya | .tsx | .txs
  | .pha | .pla | .php | .plp | .jmp _ | .jsr _ | .rts | .brk | .rti
  | .sec | .clc | .sei | .cli | .sed | .cld | .clv | .bit _ | .nop _ | .xxx _ => none

/-- The bonus of a NOP variant (R280). -/
def variantBonus : Instr → Nat
  | .nop (.variant _ _) => 1
  | .adc _ | .sbc _ | .and _ | .ora _ | .eor _ | .asl _ | .lsr _ | .rol _ | .ror _
  | .cmp _ | .cpx _ | .cpy _ | .inc _ | .dec _ | .inx | .iny | .dex | .dey
  | .lda _ | .ldx _ | .ldy _ | .sta _ | .stx _ | .sty _ | .tax | .txa | .tay | .tya | .tsx | .txs
  | .pha | .pla | .php | .plp
  | .bcc _ | .bcs _ | .beq _ | .bne _ | .bmi _ | .bpl _ | .bvc _ | .bvs _
  | .jmp _ | .jsr _ | .rts | .brk | .rti
  | .sec | .clc | .sei | .cli | .sed | .cld | .clv | .bit _ | .nop .imp | .xxx _ => 0

/-- The bonus an operation owes (R113): 1 or 2 for a taken branch, 1 for a NOP variant. -/
def operationBonus (s : State) (i : Instr) : Nat :=
  match branchTest i with
  | some (f, b, d) =>
    if getFlag s.p f = b then
      if (s.pc.toNat + 2) % 65536 / 256 = ((s.pc + 2) + d.signExtend 16).toNat / 256 then 1 else 2
    else 0
  | none => variantBonus i

/-- The instructions that load PC otherwise than by falling through (R25). -/
def transfersControl : Instr → Bool
  | .bcc _ | .bcs _ | .beq _ | .bne _ | .bmi _ | .bpl _ | .bvc _ | .bvs _
  | .jmp _ | .jsr _ | .rts | .brk | .rti => true
  | .adc _ | .sbc _ | .and _ | .ora _ | .eor _ | .asl _ | .lsr _ | .rol _ | .ror _
  | .cmp _ | .cpx _ | .cpy _ | .inc _ | .dec _ | .inx | .iny | .dex | .dey
  | .lda _ | .ldx _ | .ldy _ | .sta _ | .stx _ | .sty _ | .tax | .txa | .tay | .tya | .tsx | .txs
  | .pha | .pla | .php | .plp
  | .sec | .clc | .sei | .cli | .sed | .cld | .clv | .bit _ | .nop _ | .xxx _ => false

/-- The operations that call `FetchOperand()` (R146). -/
def fetchesOperand : Instr → Bool
  | .adc _ | .sbc _ | .and _ | .ora _ | .eor _ | .asl _ | .lsr _ | .rol _ | .ror _
  | .cmp _ | .cpx _ | .cpy _ | .inc _ | .dec _ | .lda _ | .ldx _ | .ldy _ | .bit _ => true
  | .inx | .iny | .dex | .dey | .sta _ | .stx _ | .sty _ | .tax | .txa | .tay | .tya | .tsx | .txs
  | .pha | .pla | .php | .plp
  | .bcc _ | .bcs _ | .beq _ | .bne _ | .bmi _ | .bpl _ | .bvc _ | .bvs _
  | .jmp _ | .jsr _ | .rts | .brk | .rti
  | .sec | .clc | .sei | .cli | .sed | .cld | .clv | .nop _ | .xxx _ => false

/-- The mode is immediate. -/
def isImmediate : Operand → Bool
  | .imm _ => true
  | .imp | .zp0 _ | .zpx _ | .zpy _ | .rel _ | .abs _ | .abx _ | .aby _ | .ind _ | .izx _ | .izy _ => false

/-- `k` executions of one instruction. -/
def execTimes (i : Instr) : Nat → State → Host.Outcome State Fault Refusal
  | 0, s => .next s
  | k + 1, s => match exec i s with
    | .next t => execTimes i k t
    | .fault r => .fault r
    | .refused r => .refused r

/-- The forms of a mnemonic with the eight read modes, in the column order of R88. -/
def readForms (f : ReadMode → Instr) (b : Byte) (w : Addr) : List Byte :=
  [.imm b, .zp0 b, .zpx b, .abs w, .abx w, .aby w, .izx b, .izy b].map fun m => (f m).opcode

def shiftForms (f : ShiftMode → Instr) (b : Byte) (w : Addr) : List Byte :=
  [.acc, .zp0 b, .zpx b, .abs w, .abx w].map fun m => (f m).opcode

def memForms (f : MemMode → Instr) (b : Byte) (w : Addr) : List Byte :=
  [.zp0 b, .zpx b, .abs w, .abx w].map fun m => (f m).opcode

end Sys2Proof.Machine

open Sys2Proof Sys2Proof.Machine

/-! ## Encoding and decoding -/

/-- R80 to R85, R88: decoding what a well-formed instruction encodes to gives the instruction back, with
every operand at every value, and leaves the bytes after it. The byte values rest on D8. -/
def Obligations.DecodeOfEncodeIsTheInstruction : Prop :=
  ∀ (nv : List Byte) (i : Instr) (rest : List Byte), i.wellFormed nv = true →
    decode nv (encode i ++ rest) = .ok (i, rest)

/-- R80 to R91: what the decoder reads is a well-formed instruction whose encoding is exactly the bytes it
consumed, so no two byte strings mean the same. Rests on D6, D7 and D8. -/
def Obligations.DecodedBytesAreTheEncoding : Prop :=
  ∀ (nv bs : List Byte) (i : Instr) (rest : List Byte), decode nv bs = .ok (i, rest) →
    i.wellFormed nv = true ∧ bs = encode i ++ rest

/-- R87: "Decoding is total. Every one of the 256 byte values selects exactly one table entry": one of 151
documented entries, or XXX with base cycle count 0 for each of the other 105, unless the byte is in
`NOP_VARIANTS`. -/
def Obligations.EveryOpcodeByteDecodes : Prop :=
  documentedRows.length = 151 ∧ undocumentedBytes.length = 105 ∧ undocumentedBytes.Nodup ∧
  ∀ (nv : List Byte) (op b1 b2 : Byte) (rest : List Byte), ∃ i rest',
    decode nv (op :: b1 :: b2 :: rest) = .ok (i, rest') ∧ i.opcode = op ∧
    (op ∈ undocumentedBytes → op ∈ nv → i = .nop (.variant op b1)) ∧
    (op ∈ undocumentedBytes → op ∉ nv → i = .xxx op ∧ i.operand = .imp ∧ ∀ ps : Params, ps.base i = 0) ∧
    (op ∉ undocumentedBytes → (∀ b, i ≠ .xxx b) ∧ (∀ b v, i ≠ .nop (.variant b v)) ∧
      ∃ r ∈ documentedRows, r.opcode = op ∧ r.build b1 b2 = i ∧
        ∀ r' ∈ documentedRows, r'.opcode = op → r'.build = r.build)

/-- One word of every family, written out from the cells of R88 and the formats of R81, R82 and R84, decodes
to the instruction it stands for. The byte values rest on D8, the NOP variant on D6. -/
def Obligations.SpecWordsDecode : Prop :=
  decode [] [0x69, 0x50] = .ok (.adc (.imm 0x50), []) ∧
  decode [] [0xF1, 0x20] = .ok (.sbc (.izy 0x20), []) ∧
  decode [] [0x6A] = .ok (.ror .acc, []) ∧
  decode [] [0xDE, 0x34, 0x12] = .ok (.dec (.abx 0x1234), []) ∧
  decode [] [0xEC, 0x34, 0x12] = .ok (.cpx (.abs 0x1234), []) ∧
  decode [] [0xB6, 0x10] = .ok (.ldx (.zpy 0x10), []) ∧
  decode [] [0x81, 0x20] = .ok (.sta (.izx 0x20), []) ∧
  decode [] [0x9A, 0xFF] = .ok (.txs, [0xFF]) ∧
  decode [] [0x28] = .ok (.plp, []) ∧
  decode [] [0xD0, 0xFA] = .ok (.bne 0xFA, []) ∧
  decode [] [0x6C, 0xFF, 0x02] = .ok (.jmp (.ind 0x02FF), []) ∧
  decode [] [0x20, 0x00, 0x90] = .ok (.jsr 0x9000, []) ∧
  decode [] [0x2C, 0x34, 0x12] = .ok (.bit (.abs 0x1234), []) ∧
  decode [] [0x1A, 0x55] = .ok (.xxx 0x1A, [0x55]) ∧
  decode [0x1A, 0xFC] [0x1A, 0x55] = .ok (.nop (.variant 0x1A 0x55), []) ∧
  decode [] [0xAD, 0x34] = .error (.operandMissing 0xAD) ∧ decode [] [] = .error .noOpcode

/-- The opcode byte of each of the 151 documented (mnemonic, mode) pairs, cell by cell of R88. The spec
takes them by its decision D8, so they are its own choice. -/
def Obligations.OpcodeAssignments : Prop :=
  ∀ (b : Byte) (w : Addr),
    readForms .adc b w = [0x69, 0x65, 0x75, 0x6D, 0x7D, 0x79, 0x61, 0x71] ∧
    readForms .sbc b w = [0xE9, 0xE5, 0xF5, 0xED, 0xFD, 0xF9, 0xE1, 0xF1] ∧
    readForms .and b w = [0x29, 0x25, 0x35, 0x2D, 0x3D, 0x39, 0x21, 0x31] ∧
    readForms .ora b w = [0x09, 0x05, 0x15, 0x0D, 0x1D, 0x19, 0x01, 0x11] ∧
    readForms .eor b w = [0x49, 0x45, 0x55, 0x4D, 0x5D, 0x59, 0x41, 0x51] ∧
    readForms .cmp b w = [0xC9, 0xC5, 0xD5, 0xCD, 0xDD, 0xD9, 0xC1, 0xD1] ∧
    readForms .lda b w = [0xA9, 0xA5, 0xB5, 0xAD, 0xBD, 0xB9, 0xA1, 0xB1] ∧
    shiftForms .asl b w = [0x0A, 0x06, 0x16, 0x0E, 0x1E] ∧
    shiftForms .lsr b w = [0x4A, 0x46, 0x56, 0x4E, 0x5E] ∧
    shiftForms .rol b w = [0x2A, 0x26, 0x36, 0x2E, 0x3E] ∧
    shiftForms .ror b w = [0x6A, 0x66, 0x76, 0x6E, 0x7E] ∧
    memForms .inc b w = [0xE6, 0xF6, 0xEE, 0xFE] ∧ memForms .dec b w = [0xC6, 0xD6, 0xCE, 0xDE] ∧
    [Instr.cpx (.imm b), .cpx (.zp0 b), .cpx (.abs w), .cpy (.imm b), .cpy (.zp0 b), .cpy (.abs w)].map
      Instr.opcode = [0xE0, 0xE4, 0xEC, 0xC0, 0xC4, 0xCC] ∧
    [Instr.ldx (.imm b), .ldx (.zp0 b), .ldx (.zpy b), .ldx (.abs w), .ldx (.aby w)].map
      Instr.opcode = [0xA2, 0xA6, 0xB6, 0xAE, 0xBE] ∧
    [Instr.ldy (.imm b), .ldy (.zp0 b), .ldy (.zpx b), .ldy (.abs w), .ldy (.abx w)].map
      Instr.opcode = [0xA0, 0xA4, 0xB4, 0xAC, 0xBC] ∧
    [Instr.sta (.zp0 b), .sta (.zpx b), .sta (.abs w), .sta (.abx w), .sta (.aby w), .sta (.izx b),
      .sta (.izy b)].map Instr.opcode = [0x85, 0x95, 0x8D, 0x9D, 0x99, 0x81, 0x91] ∧
    [Instr.stx (.zp0 b), .stx (.zpy b), .stx (.abs w), .sty (.zp0 b), .sty (.zpx b), .sty (.abs w)].map
      Instr.opcode = [0x86, 0x96, 0x8E, 0x84, 0x94, 0x8C] ∧
    [Instr.inx, .iny, .dex, .dey, .tax, .txa, .tay, .tya, .tsx, .txs, .pha, .pla, .php, .plp].map
      Instr.opcode =
      [0xE8, 0xC8, 0xCA, 0x88, 0xAA, 0x8A, 0xA8, 0x98, 0xBA, 0x9A, 0x48, 0x68, 0x08, 0x28] ∧
    [Instr.bcc b, .bcs b, .beq b, .bne b, .bmi b, .bpl b, .bvc b, .bvs b].map Instr.opcode =
      [0x90, 0xB0, 0xF0, 0xD0, 0x30, 0x10, 0x50, 0x70] ∧
    [Instr.jmp (.abs w), .jmp (.ind w), .jsr w, .rts, .brk, .rti].map Instr.opcode =
      [0x4C, 0x6C, 0x20, 0x60, 0x00, 0x40] ∧
    [Instr.sec, .clc, .sei, .cli, .sed, .cld, .clv, .bit (.zp0 b), .bit (.abs w), .nop .imp].map
      Instr.opcode = [0x38, 0x18, 0x78, 0x58, 0xF8, 0xD8, 0xB8, 0x24, 0x2C, 0xEA]

/-! ## The step, the events, reset -/

/-- R110, R111: a `Clock` at an instruction boundary after a Reset runs the instruction whose bytes lie at
PC; the step adds nothing around `exec`, it only takes the event off the host's list (log 4). -/
def Obligations.StepRunsTheInstructionAtPc : Prop :=
  ∀ (s : State) (i : Instr), s.resetSeen = true → s.cyclesRemaining = 0 →
    i.wellFormed s.params.nopVariants = true → s.holds i →
    (s.hostEvents = [] → step s = exec i s) ∧
    (∀ es, s.hostEvents = .clock :: es → step s = exec i { s with hostEvents := es })

/-- R80, R87: in every state exactly one well-formed instruction lies at PC, so a fetch never fails. -/
def Obligations.ExactlyOneInstructionAtPc : Prop :=
  ∀ s : State, ∃ i : Instr, i.wellFormed s.params.nopVariants = true ∧ s.holds i ∧
    ∀ j : Instr, j.wellFormed s.params.nopVariants = true → s.holds j → j = i

/-- R110: an Idle `Clock` changes nothing but `cycles_remaining`, which goes down by one. -/
def Obligations.IdleClockOnlyCountsDown : Prop :=
  ∀ s : State, s.resetSeen = true → s.hostEvents = [] → s.cyclesRemaining ≠ 0 →
    ∃ t, step s = .next t ∧ t.cyclesRemaining.toNat + 1 = s.cyclesRemaining.toNat ∧
      t = { s with cyclesRemaining := t.cyclesRemaining }

/-- R46, R340: the state a `Reset` event leaves, whatever the state before it. The five transients rest on
D16, the absence of any write on D23. -/
def Obligations.ResetEventSetsEveryRegister : Prop :=
  ∀ (s : State) (es : List HostEvent), s.hostEvents = .reset :: es →
    ∃ t, step s = .next t ∧ t.a = 0x00 ∧ t.x = 0x00 ∧ t.y = 0x00 ∧ t.sp = 0xFD ∧ t.p = 0x20 ∧
      t.pc.toNat = (s.load 0xFFFD).toNat * 256 + (s.load 0xFFFC).toNat ∧ t.cyclesRemaining = 8 ∧
      t.opcode = 0 ∧ t.fetched = 0 ∧ t.addrAbs = 0 ∧ t.addrRel = 0 ∧ t.isImplied = false ∧
      t.mem = s.mem ∧ t.params = s.params ∧ t.resetSeen = true ∧ t.hostEvents = es

/-- State.reset is what a `Reset` leaves of the power-on state over a memory that lists nothing, under the
default parameters (the model's choices of logs 1, 2 and 3). -/
def Obligations.ResetStateIsPowerOnReset : Prop :=
  State.reset = (State.powerOn [] Params.default).resetEvent

/-- R343: "the first eight `Clock` events are Idle (they count 8 down to 0 and touch nothing else), `complete`
becomes true after the eighth, and the ninth `Clock` event reads the opcode at PC". -/
def Obligations.NinthClockAfterResetFetches : Prop :=
  ∀ s : State, let r := { s.resetEvent with hostEvents := [] }
    (∀ k, k ≤ 8 → run k r = .next { r with cyclesRemaining := BitVec.ofNat 8 (8 - k) }) ∧
    run 9 r = exec r.instrAtPc { r with cyclesRemaining := 0 }

/-- R7, R315, U1, U2: the host's next event has a next state exactly when the host may issue it, and an event
it may not issue is refused by name. The refusals rest on D17. -/
def Obligations.StepStopsExactlyOutsideTheHostContract : Prop :=
  ∀ s : State,
    ((∃ t, step s = .next t) ↔ s.permits s.nextHostEvent = true) ∧
    (s.resetSeen = false → s.nextHostEvent = .clock → step s = .refused .clockBeforeReset) ∧
    (s.resetSeen = false → s.nextHostEvent = .irq → step s = .refused .irqBeforeReset) ∧
    (s.resetSeen = false → s.nextHostEvent = .nmi → step s = .refused .nmiBeforeReset) ∧
    (s.resetSeen = true → s.complete = false → s.nextHostEvent = .irq →
      step s = .refused .irqMidInstruction) ∧
    (s.resetSeen = true → s.complete = false → s.nextHostEvent = .nmi →
      step s = .refused .nmiMidInstruction)

/-- R34, R43, R45: the invariant of a run holds right after reset. -/
def Obligations.RunInvariantHoldsAtReset : Prop := State.reset.Inv

/-- R34, R43, R45, R50: every step keeps the invariant: canonical memory, legal parameters,
`cycles_remaining` at most 8, U = 1 after the first Reset and the power-on registers before it. -/
def Obligations.EveryStepKeepsTheRunInvariant : Prop :=
  ∀ s t : State, s.Inv → step s = .next t → t.Inv

/-- R112, R116: from a boundary, the instruction and its Idle clocks take `cycles_remaining + 1` `Clock`
events; before the last `complete` is false, after it the state is the instruction's with the count 0. -/
def Obligations.InstructionOccupiesItsClocks : Prop :=
  ∀ s : State, s.resetSeen = true → s.hostEvents = [] → s.cyclesRemaining = 0 →
    ∃ t, exec s.instrAtPc s = .next t ∧
      run (t.cyclesRemaining.toNat + 1) s = .next { t with cyclesRemaining := 0 } ∧
      ∀ k, 1 ≤ k → k ≤ t.cyclesRemaining.toNat →
        ∃ u, run k s = .next u ∧ u.complete = false

/-! ## Memory and the stack -/

/-- R51, R53: a read returns the last byte written there, and a write changes exactly the byte addressed; the
canonical form of the model (log 1) is kept, and canonical memories that read alike are equal. -/
def Obligations.MemoryReadsTheLastWrite : Prop :=
  (∀ (m : Memory) (a b : Addr) (v : Byte),
    Memory.read (Memory.write m a v) a = v ∧
    (b ≠ a → Memory.read (Memory.write m a v) b = Memory.read m b)) ∧
  (∀ (m : Memory) (a : Addr) (v : Byte), Memory.wf m = true → Memory.wf (Memory.write m a v) = true) ∧
  (∀ m n : Memory, Memory.wf m = true → Memory.wf n = true →
    (∀ a, Memory.read m a = Memory.read n a) → m = n)

/-- R62, R63, R64: the stack primitives, at every SP, the wraps at 0x00 and 0xFF included. -/
def Obligations.StackPrimitives : Prop :=
  ∀ (s : State) (v : Byte) (w : Addr),
    ((s.push8 v).load (0x0100 + s.sp.setWidth 16) = v ∧ (s.push8 v).sp.toNat = (s.sp.toNat + 255) % 256 ∧
      MemKept [0x0100 + s.sp.setWidth 16] s (s.push8 v)) ∧
    (s.pop8.2.sp.toNat = (s.sp.toNat + 1) % 256 ∧
      s.pop8.1 = s.load (0x0100 + (s.sp + 1).setWidth 16) ∧ s.pop8.2.mem = s.mem) ∧
    ((s.push8 v).pop8.1 = v ∧ (s.push8 v).pop8.2 = s.store (0x0100 + s.sp.setWidth 16) v) ∧
    ((s.push16 w).load (0x0100 + s.sp.setWidth 16) = hi8 w ∧
      (s.push16 w).load (0x0100 + (s.sp - 1).setWidth 16) = lo8 w ∧
      (s.push16 w).pop16.1 = w ∧ (s.push16 w).pop16.2.sp = s.sp)

/-! ## Addressing modes -/

/-- R133 to R139, R143, R144: what the immediate, zero-page, absolute and relative resolvers write, with PC at
the byte after the opcode: the effective address or the displacement, PC past the operand bytes,
`is_implied` false, and the bonus; nothing else changes. -/
def Obligations.DirectResolvers : Prop :=
  ∀ (s : State) (t : Byte) (w : Addr),
    (s.resolve (.imm t) = { s with isImplied := false, addrAbs := s.pc, pc := s.pc + 1 } ∧
      s.resolveBonus (.imm t) = 0) ∧
    (s.resolve (.rel t) =
      { s with isImplied := false, addrRel := BitVec.ofInt 16 t.toInt, pc := s.pc + 1 } ∧
      s.resolveBonus (.rel t) = 0) ∧
    (s.resolve (.zp0 t) =
      { s with isImplied := false, addrAbs := BitVec.ofNat 16 t.toNat, pc := s.pc + 1 } ∧
      s.resolveBonus (.zp0 t) = 0) ∧
    (s.resolve (.zpx t) = { s with
        isImplied := false, addrAbs := BitVec.ofNat 16 ((t.toNat + s.x.toNat) % 256), pc := s.pc + 1 } ∧
      s.resolveBonus (.zpx t) = 0) ∧
    (s.resolve (.zpy t) = { s with
        isImplied := false, addrAbs := BitVec.ofNat 16 ((t.toNat + s.y.toNat) % 256), pc := s.pc + 1 } ∧
      s.resolveBonus (.zpy t) = 0) ∧
    (s.resolve (.abs w) = { s with isImplied := false, addrAbs := w, pc := s.pc + 2 } ∧
      s.resolveBonus (.abs w) = 0) ∧
    (s.resolve (.abx w) = { s with
        isImplied := false, addrAbs := BitVec.ofNat 16 (w.toNat + s.x.toNat), pc := s.pc + 2 } ∧
      s.resolveBonus (.abx w) = if crossesPage w s.x then 1 else 0) ∧
    (s.resolve (.aby w) = { s with
        isImplied := false, addrAbs := BitVec.ofNat 16 (w.toNat + s.y.toNat), pc := s.pc + 2 } ∧
      s.resolveBonus (.aby w) = if crossesPage w s.y then 1 else 0)

/-- R58, R132, R140 to R142, R144: the implied resolver, the absolute-indirect one with its page wrap, and the
two indirect zero-page ones, whose pointers stay in page 0 (the second byte by D13, the order by D14). -/
def Obligations.ImpliedAndIndirectResolvers : Prop :=
  ∀ (s : State) (t : Byte) (w : Addr),
    (s.resolve .imp = { s with isImplied := true, fetched := s.a } ∧ s.resolveBonus .imp = 0) ∧
    (s.resolve (.ind w) = { s with
        isImplied := false, pc := s.pc + 2
        addrAbs := BitVec.ofNat 16
          ((s.load ((w &&& 0xFF00) ||| ((w + 1) &&& 0x00FF))).toNat * 256 + (s.load w).toNat) } ∧
      s.resolveBonus (.ind w) = 0) ∧
    (s.resolve (.izx t) = { s with
        isImplied := false, pc := s.pc + 1
        addrAbs := BitVec.ofNat 16
          ((s.load (BitVec.ofNat 16 ((t.toNat + s.x.toNat + 1) % 256))).toNat * 256 +
            (s.load (BitVec.ofNat 16 ((t.toNat + s.x.toNat) % 256))).toNat) } ∧
      s.resolveBonus (.izx t) = 0) ∧
    (∀ ptr : Nat,
      ptr = (s.load (BitVec.ofNat 16 ((t.toNat + 1) % 256))).toNat * 256 +
        (s.load (BitVec.ofNat 16 t.toNat)).toNat →
      s.resolve (.izy t) = { s with
        isImplied := false, pc := s.pc + 1, addrAbs := BitVec.ofNat 16 (ptr + s.y.toNat) } ∧
      s.resolveBonus (.izy t) = if crossesPage (BitVec.ofNat 16 ptr) s.y then 1 else 0)

/-! ## Arithmetic and logical -/

/-- R160, R161, R162, R163: ADC. The sum is binary whatever D is. -/
def Obligations.AdcAddsWithCarry : Prop :=
  ∀ (m : ReadMode) (s : State), ∃ t, exec (.adc m) s = .next t ∧
    let v := s.operandValue m.toOperand
    t.a.toNat = (s.a.toNat + v.toNat + carryIn s) % 256 ∧
    getFlag t.p .C = decide (s.a.toNat + v.toNat + carryIn s > 255) ∧
    (getFlag t.p .V = true ↔ OutOfSignedRange (s.a.toInt + v.toInt + carryIn s)) ∧
    ZNof t t.a ∧ Falls (.adc m) s t ∧ Kept [.A] [.C, .V, .Z, .N] s t ∧ MemKept [] s t

/-- R161, R164: SBC. The borrow is the complement of the carry. -/
def Obligations.SbcSubtractsWithBorrow : Prop :=
  ∀ (m : ReadMode) (s : State), ∃ t, exec (.sbc m) s = .next t ∧
    let v := s.operandValue m.toOperand
    let borrow : Nat := 1 - carryIn s
    (t.a.toNat : Int) = ((s.a.toNat : Int) - v.toNat - borrow) % 256 ∧
    getFlag t.p .C = decide (v.toNat + borrow ≤ s.a.toNat) ∧
    (getFlag t.p .V = true ↔ OutOfSignedRange (s.a.toInt - v.toInt - borrow)) ∧
    ZNof t t.a ∧ Falls (.sbc m) s t ∧ Kept [.A] [.C, .V, .Z, .N] s t ∧ MemKept [] s t

/-- R162: "ADC and SBC perform rule R160 whether P.D is 0 or 1, and leave P.D unchanged." The two runs that
start with D = 1 and D = 0 end in states that differ in D alone, with the binary sum of R160 in A. -/
def Obligations.DecimalFlagHasNoEffect : Prop :=
  ∀ (i : Instr) (m : ReadMode) (s : State), i = .adc m ∨ i = .sbc m →
    ∃ t u, exec i { s with p := setFlag s.p .D true } = .next t ∧
      exec i { s with p := setFlag s.p .D false } = .next u ∧
      getFlag t.p .D = true ∧ u = { t with p := setFlag t.p .D false } ∧
      let v := (s.operandValue m.toOperand).toNat
      t.a.toNat = (s.a.toNat + (if i = .adc m then v else 255 - v) + carryIn s) % 256

/-- R165, R166, R167: AND, ORA and EOR, bitwise, Z and N from the result. -/
def Obligations.LogicalInstructions : Prop :=
  ∀ m : ReadMode,
    WritesReg (.and m) .A (fun s => s.a &&& s.operandValue m.toOperand) ∧
    WritesReg (.ora m) .A (fun s => s.a ||| s.operandValue m.toOperand) ∧
    WritesReg (.eor m) .A (fun s => s.a ^^^ s.operandValue m.toOperand)

/-! ## Shifts and rotates -/

/-- R147, R180 to R184: the four shifts in both their forms: by exactly one bit, to A or to the operand's
byte, and in the memory forms A is neither read nor written. -/
def Obligations.ShiftsAndRotates : Prop :=
  ShiftsBy .asl (fun _ v => v * 2 % 256) (fun v => decide (128 ≤ v)) ∧
  ShiftsBy .lsr (fun _ v => v / 2) (fun v => decide (v % 2 = 1)) ∧
  ShiftsBy .rol (fun c v => v * 2 % 256 + c) (fun v => decide (128 ≤ v)) ∧
  ShiftsBy .ror (fun c v => 128 * c + v / 2) (fun v => decide (v % 2 = 1))

/-- R183, R184: a rotate is a 9-bit rotation of C and the operand: nine of them restore A and C. -/
def Obligations.NineRotatesRestore : Prop :=
  ∀ (i : Instr) (s : State), i = .rol .acc ∨ i = .ror .acc →
    ∃ t, execTimes i 9 s = .next t ∧ t.a = s.a ∧ getFlag t.p .C = getFlag s.p .C

/-! ## Compares, increments, decrements -/

/-- R190 to R193: the compares are unsigned, write C, Z and N and store nothing. -/
def Obligations.CompareInstructions : Prop :=
  (∀ m, Compares (.cmp m) State.a) ∧ (∀ m, Compares (.cpx m) State.x) ∧ (∀ m, Compares (.cpy m) State.y)

/-- R194, R195: INC and DEC change the byte at the resolved address by one, modulo 256. That they write Z and N
is the spec's decision D12. -/
def Obligations.IncrementAndDecrementMemory : Prop :=
  ∀ (m : MemMode) (s : State),
    let a := s.operandAddress m.toOperand
    (∃ t, exec (.inc m) s = .next t ∧ (t.load a).toNat = ((s.load a).toNat + 1) % 256 ∧
      ZNof t (t.load a) ∧ Falls (.inc m) s t ∧ Kept [] [.Z, .N] s t ∧ MemKept [a] s t) ∧
    (∃ t, exec (.dec m) s = .next t ∧ (t.load a).toNat = ((s.load a).toNat + 255) % 256 ∧
      ZNof t (t.load a) ∧ Falls (.dec m) s t ∧ Kept [] [.Z, .N] s t ∧ MemKept [a] s t)

/-- R196 to R199: INX, INY, DEX, DEY, modulo 256. That they write Z and N is the spec's decision D12. -/
def Obligations.IncrementAndDecrementRegisters : Prop :=
  WritesReg .inx .X (fun s => BitVec.ofNat 8 (s.x.toNat + 1)) ∧
  WritesReg .iny .Y (fun s => BitVec.ofNat 8 (s.y.toNat + 1)) ∧
  WritesReg .dex .X (fun s => BitVec.ofNat 8 (s.x.toNat + 255)) ∧
  WritesReg .dey .Y (fun s => BitVec.ofNat 8 (s.y.toNat + 255))

/-! ## Loads, stores, transfers -/

/-- R210, R211, R212: the loads write the register from the operand, with Z and N from it. -/
def Obligations.LoadInstructions : Prop :=
  (∀ m : ReadMode, WritesReg (.lda m) .A (fun s => s.operandValue m.toOperand)) ∧
  (∀ m : LdxMode, WritesReg (.ldx m) .X (fun s => s.operandValue m.toOperand)) ∧
  (∀ m : LdyMode, WritesReg (.ldy m) .Y (fun s => s.operandValue m.toOperand))

/-- R213, R214, R215: the stores write one byte and no flag. -/
def Obligations.StoreInstructions : Prop :=
  (∀ m, StoresReg (.sta m) State.a) ∧ (∀ m, StoresReg (.stx m) State.x) ∧ (∀ m, StoresReg (.sty m) State.y)

/-- R216 to R221: the transfers. TXS writes no flag; that the other five write Z and N is the spec's decision
D12. -/
def Obligations.TransferInstructions : Prop :=
  WritesReg .tax .X State.a ∧ WritesReg .txa .A State.x ∧ WritesReg .tay .Y State.a ∧
  WritesReg .tya .A State.y ∧ WritesReg .tsx .X State.sp ∧
  ∀ s : State, ∃ t, exec .txs s = .next t ∧ t.sp = s.x ∧ Falls .txs s t ∧ Kept [.SP] [] s t ∧
    MemKept [] s t

/-! ## Stack instructions -/

/-- R230, R232: PHA and PHP store one byte at the slot SP names. The pushed status has B and U set and the
stored P keeps its B (D10). -/
def Obligations.PushInstructions : Prop :=
  ∀ s : State,
    (∃ t, exec .pha s = .next t ∧ t.load (stackSlot s.sp) = s.a ∧ t.sp = s.sp - 1 ∧ Falls .pha s t ∧
      Kept [.SP] [] s t ∧ MemKept [stackSlot s.sp] s t) ∧
    (∃ t, exec .php s = .next t ∧
      (∀ f, getFlag (t.load (stackSlot s.sp)) f = (getFlag s.p f || f == .B || f == .U)) ∧
      t.sp = s.sp - 1 ∧ Falls .php s t ∧ Kept [.SP] [] s t ∧ MemKept [stackSlot s.sp] s t)

/-- R231, R233: PLA and PLP read the slot above SP. PLP writes every flag from the popped byte, with U forced to
1; that PLA writes Z and N is the spec's decision D12. -/
def Obligations.PullInstructions : Prop :=
  ∀ s : State,
    let v := s.load (stackSlot (s.sp + 1))
    (∃ t, exec .pla s = .next t ∧ t.a = v ∧ ZNof t v ∧ t.sp = s.sp + 1 ∧ Falls .pla s t ∧
      Kept [.A, .SP] [.Z, .N] s t ∧ MemKept [] s t) ∧
    (∃ t, exec .plp s = .next t ∧ (∀ f, f ≠ .U → getFlag t.p f = getFlag v f) ∧ t.sp = s.sp + 1 ∧
      Falls .plp s t ∧ Kept [.SP] [.C, .Z, .I, .D, .B, .V, .N] s t ∧ MemKept [] s t)

/-- R234: the stack round-trip laws. `PHA; PLA` restores A and SP, Z and N describe A; `PHP; PLP` restores SP and
every flag but B, which is 1 (by D10). Memory differs at most at the slot SP named. -/
def Obligations.StackRoundTrips : Prop :=
  ∀ s : State,
    (∃ t u, exec .pha s = .next t ∧ exec .pla t = .next u ∧ u.a = s.a ∧ u.sp = s.sp ∧ ZNof u s.a ∧
      Kept [] [.Z, .N] s u ∧ MemKept [stackSlot s.sp] s u) ∧
    (∃ t u, exec .php s = .next t ∧ exec .plp t = .next u ∧ u.sp = s.sp ∧ u.p = s.p ||| 0x30 ∧
      MemKept [stackSlot s.sp] s u)

/-! ## Branches, jumps, subroutines -/

/-- R240 to R248: each branch tests one flag; taken, PC is the address of the next instruction plus the signed
displacement modulo 65536, with bonus 1 or 2; no flag, register or memory byte changes. -/
def Obligations.BranchInstructions : Prop :=
  BranchesOn .bcc .C false ∧ BranchesOn .bcs .C true ∧ BranchesOn .bne .Z false ∧
  BranchesOn .beq .Z true ∧ BranchesOn .bpl .N false ∧ BranchesOn .bmi .N true ∧
  BranchesOn .bvc .V false ∧ BranchesOn .bvs .V true

/-- R140, R250: JMP loads PC and nothing else; the indirect form takes the high byte of its target from the
pointer's own page. -/
def Obligations.JmpLoadsPc : Prop :=
  ∀ (w : Addr) (s : State),
    (∃ t, exec (.jmp (.abs w)) s = .next t ∧ t.pc = w ∧ Kept [] [] s t ∧ MemKept [] s t) ∧
    (∃ t, exec (.jmp (.ind w)) s = .next t ∧
      t.pc.toNat = (s.load ((w &&& 0xFF00) ||| ((w + 1) &&& 0x00FF))).toNat * 256 + (s.load w).toNat ∧
      Kept [] [] s t ∧ MemKept [] s t)

/-- R252: JSR pushes the address of its third byte, high byte first, and jumps. -/
def Obligations.JsrPushesAndJumps : Prop :=
  ∀ (w : Addr) (s : State), ∃ t, exec (.jsr w) s = .next t ∧ t.pc = w ∧
    (t.load (stackSlot s.sp)).toNat = (s.pc.toNat + 2) % 65536 / 256 ∧
    (t.load (stackSlot (s.sp - 1))).toNat = (s.pc.toNat + 2) % 256 ∧ t.sp = s.sp - 2 ∧
    Kept [.SP] [] s t ∧ MemKept [stackSlot s.sp, stackSlot (s.sp - 1)] s t

/-- R253: RTS pops low then high and adds one. -/
def Obligations.RtsPopsAndIncrements : Prop :=
  ∀ s : State, ∃ t, exec .rts s = .next t ∧
    t.pc.toNat = ((s.load (stackSlot (s.sp + 2))).toNat * 256 + (s.load (stackSlot (s.sp + 1))).toNat + 1)
      % 65536 ∧
    t.sp = s.sp + 2 ∧ Kept [.SP] [] s t ∧ MemKept [] s t

/-- R253: `JSR t` followed, at t, by `RTS` leaves SP as before and PC at the instruction after the JSR; only the
two stack bytes changed. -/
def Obligations.JsrThenRtsReturns : Prop :=
  ∀ (w : Addr) (s : State), ∃ t u, exec (.jsr w) s = .next t ∧ exec .rts t = .next u ∧
    u.pc = s.pc + 3 ∧ Kept [] [] s u ∧ MemKept [stackSlot s.sp, stackSlot (s.sp - 1)] s u

/-! ## Exceptions and interrupts -/

/-- R254, R302: BRK pushes the address two past its opcode and the status with B and U set, sets I and loads PC
from 0xFFFE and 0xFFFF, whatever I was. That it sets I, and the order of the two address bytes, are the
spec's decision D11; that the stored B stays is D10. -/
def Obligations.BrkTakesTheException : Prop :=
  ∀ s : State, ∃ t, exec .brk s = .next t ∧
    PushedFrame s t (s.pc + 2) (fun f => getFlag s.p f || f == .B || f == .U) ∧
    getFlag t.p .I = true ∧ t.pc.toNat = (s.load 0xFFFF).toNat * 256 + (s.load 0xFFFE).toNat ∧
    Kept [.SP] [.I] s t

/-- R256: RTI pops the status, then PC low, then PC high; B is 0 and U is 1 at the next boundary (C4). -/
def Obligations.RtiRestoresStatusAndPc : Prop :=
  ∀ s : State, ∃ t, exec .rti s = .next t ∧
    (∀ f, f ≠ .B → f ≠ .U → getFlag t.p f = getFlag (s.load (stackSlot (s.sp + 1))) f) ∧
    getFlag t.p .B = false ∧ getFlag t.p .U = true ∧
    t.pc.toNat = (s.load (stackSlot (s.sp + 3))).toNat * 256 + (s.load (stackSlot (s.sp + 2))).toNat ∧
    t.sp = s.sp + 3 ∧ Kept [.SP] [.C, .Z, .I, .D, .B, .V, .N] s t ∧ MemKept [] s t

/-- R311: "`irq()` is a no-op when the Interrupt-disable flag is set; otherwise it pushes `PC` (high, low) and
status (with Break cleared, Unused set) onto the stack, sets Interrupt-disable, loads `PC` from
`0xFFFE`/`0xFFFF`, and sets `cycles_remaining = 7`." Raised at a boundary after a Reset (R315). -/
def Obligations.IrqEntersOrIsSuppressed : Prop :=
  ∀ (s : State) (es : List HostEvent), s.hostEvents = .irq :: es → s.resetSeen = true →
    s.complete = true →
    (getFlag s.p .I = true → step s = .next { s with hostEvents := es }) ∧
    (getFlag s.p .I = false → ∃ t, step s = .next t ∧
      PushedFrame s t s.pc (fun f => f == .U || (f != .B && getFlag s.p f)) ∧
      getFlag t.p .I = true ∧ t.pc.toNat = (s.load 0xFFFF).toNat * 256 + (s.load 0xFFFE).toNat ∧
      t.cyclesRemaining = 7 ∧ Kept [.SP] [.I, .B] { s with hostEvents := es } t)

/-- R313: "`nmi()` performs the identical push/flag sequence unconditionally (ignores Interrupt-disable) and
loads `PC` from `0xFFFA`/`0xFFFB`, with `cycles_remaining = 8`." Raised at a boundary after a Reset (R315). -/
def Obligations.NmiAlwaysEnters : Prop :=
  ∀ (s : State) (es : List HostEvent), s.hostEvents = .nmi :: es → s.resetSeen = true →
    s.complete = true → ∃ t, step s = .next t ∧
      PushedFrame s t s.pc (fun f => f == .U || (f != .B && getFlag s.p f)) ∧
      getFlag t.p .I = true ∧ t.pc.toNat = (s.load 0xFFFB).toNat * 256 + (s.load 0xFFFA).toNat ∧
      t.cyclesRemaining = 8 ∧ Kept [.SP] [.I, .B] { s with hostEvents := es } t

/-- R33, R312: an interrupt entry leaves the stored B as it was. This is the spec's decision D10. -/
def Obligations.InterruptEntryKeepsTheStoredBreakFlag : Prop :=
  ∀ (s : State) (e : HostEvent) (es : List HostEvent),
    (e = .irq ∧ getFlag s.p .I = false) ∨ e = .nmi → s.hostEvents = e :: es → s.resetSeen = true →
    s.complete = true → ∃ t, step s = .next t ∧ t.sp = s.sp - 3 ∧ getFlag t.p .B = getFlag s.p .B

/-- R320: an `Irq` with I = 0, or an `Nmi`, at a boundary, then its Idle clocks, then an RTI at the handler's
address, gives back A, X, Y, SP, PC and every flag but the stored B, which is 0; memory differs only in the
three stack bytes. The handler's first instruction, read from memory after the entry, is the RTI. -/
def Obligations.HandlerReturnRestoresTheProgram : Prop :=
  ∀ (s t : State) (e : HostEvent) (n : Nat),
    (e = .irq ∧ n = 7 ∧ getFlag s.p .I = false) ∨ (e = .nmi ∧ n = 8) →
    s.hostEvents = [e] → s.resetSeen = true → s.complete = true → getFlag s.p .U = true →
    step s = .next t → t.instrAtPc = .rti →
    ∃ u, run (n + 2) s = .next u ∧ u.pc = s.pc ∧ u.p = setFlag s.p .B false ∧
      Kept [] [.B] { s with hostEvents := [] } u ∧
      MemKept [stackSlot s.sp, stackSlot (s.sp - 1), stackSlot (s.sp - 2)] s u

/-! ## Flags, BIT, NOP, XXX -/

/-- R270 to R276: each flag instruction writes its flag and no other bit. -/
def Obligations.FlagInstructions : Prop :=
  WritesFlag .sec .C true ∧ WritesFlag .clc .C false ∧ WritesFlag .sei .I true ∧ WritesFlag .cli .I false ∧
  WritesFlag .sed .D true ∧ WritesFlag .cld .D false ∧ WritesFlag .clv .V false

/-- R277: BIT sets Z from A and the operand, and copies the operand's bits 7 and 6 to N and V. -/
def Obligations.BitTestsTheOperand : Prop :=
  ∀ (m : BitMode) (s : State), ∃ t, exec (.bit m) s = .next t ∧
    let v := s.operandValue m.toOperand
    (getFlag t.p .Z = true ↔ ∀ k, k < 8 → (s.a.getLsbD k && v.getLsbD k) = false) ∧
    getFlag t.p .N = decide (128 ≤ v.toNat) ∧ getFlag t.p .V = decide (64 ≤ v.toNat % 128) ∧
    Falls (.bit m) s t ∧ Kept [] [.Z, .N, .V] s t ∧ MemKept [] s t

/-- R280, R281: NOP and XXX change PC, the transients and the count, and nothing else. The NOP variants are D6's
parameter; the single clock of XXX rests on D5. -/
def Obligations.NopAndXxxDoNothing : Prop :=
  ∀ s : State,
    (∃ t, exec (.nop .imp) s = .next t ∧ t.pc = s.pc + 1 ∧ Kept [] [] s t ∧ MemKept [] s t ∧
      t.cyclesRemaining.toNat + 1 = max (s.params.base (.nop .imp)) 1) ∧
    (∀ op v, ∃ t, exec (.nop (.variant op v)) s = .next t ∧ t.pc = s.pc + 2 ∧ Kept [] [] s t ∧
      MemKept [] s t ∧ t.cyclesRemaining.toNat = s.params.base (.nop (.variant op v))) ∧
    (∀ op, ∃ t, exec (.xxx op) s = .next t ∧
      t = { s with
        pc := s.pc + 1, opcode := op, fetched := s.a, isImplied := true, cyclesRemaining := 0
        p := s.p ||| 0x20 })

/-! ## Rules of the whole machine -/

/-- R12, R304: no instruction faults or is refused, in any state. -/
def Obligations.NoInstructionStops : Prop := ∀ (i : Instr) (s : State), ∃ t, exec i s = .next t

/-- R37: every instruction leaves every flag that its rule does not list, every register that R20 does not name
it for, and every byte of memory it does not store to; U is 1 after it. -/
def Obligations.FrameOfEveryInstruction : Prop :=
  ∀ (i : Instr) (s t : State), exec i s = .next t →
    Kept (regsWritten i) (flagsWritten i) s t ∧ MemKept (s.storedTo i) s t

/-- R41, R42, R111, R132 to R147: what every instruction leaves in the transients: its opcode byte, whether its
mode is implied, the displacement of a branch, the operand it fetched (the copy of A for IMP), and the
effective address. That the stores, jumps, branches and NOP variants fetch nothing is D15. -/
def Obligations.TransientsAfterEveryInstruction : Prop :=
  ∀ (i : Instr) (s t : State), exec i s = .next t →
    t.opcode = i.opcode ∧ t.isImplied = decide (i.operand = .imp) ∧
    t.addrRel = (match branchTest i with | some (_, _, d) => d.signExtend 16 | none => s.addrRel) ∧
    t.fetched = (if i.operand = .imp ∨ fetchesOperand i = true then s.operandValue i.operand
      else s.fetched) ∧
    ((∃ f b d, branchTest i = some (f, b, d) ∧ getFlag s.p f = b ∧ t.addrAbs = t.pc) ∨
      (∀ f b d, branchTest i = some (f, b, d) → getFlag s.p f ≠ b) ∧
        t.addrAbs = if isImmediate i.operand then s.pc + 1 else s.operandAddress i.operand)

/-- R25: an instruction that is no branch, jump, call, return or BRK leaves PC at the byte after it, modulo
65536. -/
def Obligations.SequentialInstructionsFallThrough : Prop :=
  ∀ (i : Instr) (s t : State), exec i s = .next t → transfersControl i = false →
    t.pc.toNat = (s.pc.toNat + i.length) % 65536

/-- R110, R113, R115, R353: the Idle clocks an instruction leaves: base count, page-cross bonus and operation
bonus, less the clock just spent, never below 0. The sum rests on D4, the floor at 0 on D5. -/
def Obligations.CountAfterEveryInstruction : Prop :=
  ∀ (i : Instr) (s t : State), exec i s = .next t →
    t.cyclesRemaining.toNat = s.params.base i + pageBonus s i.operand + operationBonus s i - 1

/-- R114: no architectural result depends on `BASE_CYCLES` or on the count: two states that differ in those
alone give, under any instruction, states that differ in those alone. -/
def Obligations.BaseCyclesChangeNoResult : Prop :=
  ∀ (i : Instr) (s s' : State), s.untimed = s'.untimed →
    ∃ t t', exec i s = .next t ∧ exec i s' = .next t' ∧ t.untimed = t'.untimed

/-- R40: `opcode`, `fetched`, `addr_abs`, `addr_rel` and `is_implied` at a boundary never influence a later
instruction: two states that differ in those alone give states that differ in those alone. -/
def Obligations.TransientsInfluenceNothing : Prop :=
  ∀ (i : Instr) (s s' : State), s.untransient = s'.untransient →
    ∃ t t', exec i s = .next t ∧ exec i s' = .next t' ∧ t.untransient = t'.untransient

/-- R65, R66, R148: replaying the bus transactions of an event of the core in order, each read finding in memory
the byte it moves, gives the memory after the event. The list follows D14, D15, D23 and D25. -/
def Obligations.BusTransactionsGiveTheMemory : Prop :=
  ∀ (e : HostEvent) (s t : State), (∀ a v, e ≠ .write a v) → hostEvent e s = .next t →
    replay s.mem (s.eventBus e) = some t.mem

/-- R69: a store into the bytes of the next instruction changes what is fetched: after a `STA` to the byte after
itself, the next instruction's opcode is the byte stored. -/
def Obligations.StoredCodeIsFetched : Prop :=
  ∀ s : State, ∃ t, exec (.sta (.abs (s.pc + 3))) s = .next t ∧ t.pc = s.pc + 3 ∧
    t.instrAtPc.opcode = s.a
end

