-- ==== Sys2Proof/Laws/Flags.lean ====
section
/-! SUPPORT. The laws of P: reading a flag after a write, and each flag computation of the spec as the
arithmetic it stands for (spec/10_state.md R27 to R30, spec/42 R160, R161, spec/44 R190). -/

namespace Sys2Proof.Machine

theorem getFlag_eq_getLsbD (p : Byte) (f : Flag) : getFlag p f = p.getLsbD (flagBit f) := by
  cases f <;> revert p <;> decide

theorem flagMask_getLsbD (f : Flag) (k : Nat) (hk : k < 8) :
    (flagMask f).getLsbD k = decide (k = flagBit f) := by
  cases f <;> interval_cases k <;> rfl

theorem flagBit_lt (f : Flag) : flagBit f < 8 := by cases f <;> decide

theorem flagBit_inj {f g : Flag} : flagBit f = flagBit g ↔ f = g := by
  cases f <;> cases g <;> decide

/-- Reading a flag after writing one: no other flag is touched (R10). -/
theorem getFlag_setFlag (p : Byte) (f g : Flag) (b : Bool) :
    getFlag (setFlag p f b) g = if g = f then b else getFlag p g := by
  rw [getFlag_eq_getLsbD, getFlag_eq_getLsbD]
  have h := flagMask_getLsbD f (flagBit g) (flagBit_lt g)
  have hlt := flagBit_lt g
  simp only [flagBit_inj] at h
  cases b <;> by_cases hg : g = f <;> simp_all [setFlag]

@[simp] theorem getFlag_setFlag_same (p : Byte) (f : Flag) (b : Bool) :
    getFlag (setFlag p f b) f = b := by simp [getFlag_setFlag]

theorem getFlag_setFlag_other (p : Byte) {f g : Flag} (b : Bool) (h : g ≠ f) :
    getFlag (setFlag p f b) g = getFlag p g := by simp [getFlag_setFlag, h]

/-- P is its eight flags (R26, R27). -/
theorem status_ext {p q : Byte} (h : ∀ f, getFlag p f = getFlag q f) : p = q := by
  refine BitVec.eq_of_getLsbD_eq fun k hk => ?_
  have hf : ∃ f, flagBit f = k := by
    interval_cases k
    exacts [⟨.C, rfl⟩, ⟨.Z, rfl⟩, ⟨.I, rfl⟩, ⟨.D, rfl⟩, ⟨.B, rfl⟩, ⟨.U, rfl⟩, ⟨.V, rfl⟩, ⟨.N, rfl⟩]
  obtain ⟨f, rfl⟩ := hf
  simpa [getFlag_eq_getLsbD] using h f

theorem setFlag_setFlag (p : Byte) (f : Flag) (b c : Bool) :
    setFlag (setFlag p f b) f c = setFlag p f c := by
  refine status_ext fun g => ?_
  by_cases h : g = f <;> simp [getFlag_setFlag, h]

theorem setFlag_comm (p : Byte) {f g : Flag} (b c : Bool) (h : f ≠ g) :
    setFlag (setFlag p f b) g c = setFlag (setFlag p g c) f b := by
  refine status_ext fun k => ?_
  by_cases h1 : k = f <;> by_cases h2 : k = g <;> simp_all [getFlag_setFlag]

theorem setFlag_of_getFlag {p : Byte} {f : Flag} {b : Bool} (h : getFlag p f = b) :
    setFlag p f b = p := by
  refine status_ext fun g => ?_
  by_cases hg : g = f
  · subst hg; simp [h]
  · simp [getFlag_setFlag, hg]

theorem bit7_eq (v : Byte) : bit7 v = decide (128 ≤ v.toNat) := by revert v; decide

theorem bit6_eq (v : Byte) : bit6 v = v.getLsbD 6 := by revert v; decide

theorem bit0_eq (v : Byte) : bit0 v = decide (v.toNat % 2 = 1) := by revert v; decide

theorem bit7_eq_getLsbD (v : Byte) : bit7 v = v.getLsbD 7 := by revert v; decide

/-- `SetZN(v)` writes Z and N and no other bit (R30). -/
theorem getFlag_setZN (p v : Byte) (f : Flag) :
    getFlag (setZN p v) f =
      if f = .N then decide (128 ≤ v.toNat) else if f = .Z then decide (v = 0) else getFlag p f := by
  simp only [setZN, getFlag_setFlag, bit7_eq]
  rfl

/-- The flags after `AddWithCarry` (R160). -/
theorem getFlag_addFlags (p a m : Byte) (f : Flag) :
    getFlag (addFlags p a m) f =
      if f = .N then decide (128 ≤ (addResult p a m).toNat)
      else if f = .Z then decide (addResult p a m = 0)
      else if f = .V then addOverflow a m (addResult p a m)
      else if f = .C then decide (carrySum p a m > 255)
      else getFlag p f := by
  simp only [addFlags, getFlag_setZN, getFlag_setFlag]

theorem getFlag_shiftFlags (p r : Byte) (out : Bool) (f : Flag) :
    getFlag (shiftFlags p r out) f =
      if f = .N then decide (128 ≤ r.toNat) else if f = .Z then decide (r = 0)
      else if f = .C then out else getFlag p f := by
  simp only [shiftFlags, getFlag_setZN, getFlag_setFlag]

theorem getFlag_compareFlags (p reg m : Byte) (f : Flag) :
    getFlag (compareFlags p reg m) f =
      if f = .N then decide (128 ≤ (reg - m).toNat) else if f = .Z then decide (reg = m)
      else if f = .C then decide (m.toNat ≤ reg.toNat) else getFlag p f := by
  simp only [compareFlags, getFlag_setFlag, bit7_eq]
  rfl

theorem getFlag_bitFlags (p a m : Byte) (f : Flag) :
    getFlag (bitFlags p a m) f =
      if f = .V then m.getLsbD 6 else if f = .N then m.getLsbD 7
      else if f = .Z then decide (a &&& m = 0) else getFlag p f := by
  simp only [bitFlags, getFlag_setFlag, bit6_eq, bit7_eq_getLsbD]
  rfl

theorem getFlag_statusPushedByInstruction (p : Byte) (f : Flag) :
    getFlag (statusPushedByInstruction p) f = if f = .B ∨ f = .U then true else getFlag p f := by
  cases f <;> revert p <;> decide

theorem getFlag_statusPushedByInterrupt (p : Byte) (f : Flag) :
    getFlag (statusPushedByInterrupt p) f =
      if f = .B then false else if f = .U then true else getFlag p f := by
  cases f <;> revert p <;> decide

theorem getFlag_statusPulled (v : Byte) (f : Flag) :
    getFlag (statusPulled v) f = if f = .U then true else getFlag v f := by
  cases f <;> revert v <;> decide

theorem getFlag_statusRestored (v : Byte) (f : Flag) :
    getFlag (statusRestored v) f = if f = .B ∨ f = .U then false else getFlag v f := by
  cases f <;> revert v <;> decide

theorem statusPushedByInstruction_setU (p : Byte) (b : Bool) :
    statusPushedByInstruction (setFlag p .U b) = statusPushedByInstruction p := by
  refine status_ext fun f => ?_
  simp only [getFlag_statusPushedByInstruction, getFlag_setFlag]
  by_cases h : f = .U <;> simp [h]

theorem statusPulled_eq_setFlag (v : Byte) : statusPulled v = setFlag v .U true := by
  revert v; decide

theorem statusRestored_eq_setFlag (v : Byte) :
    statusRestored v = setFlag (setFlag v .B false) .U false := by revert v; decide

theorem statusPushedByInterrupt_eq_setFlag (p : Byte) :
    statusPushedByInterrupt p = setFlag (setFlag p .B false) .U true := by revert p; decide

theorem statusPushedByInstruction_eq_setFlag (p : Byte) :
    statusPushedByInstruction p = setFlag (setFlag p .B true) .U true := by revert p; decide

theorem toInt_eq (v : Byte) : v.toInt = if 128 ≤ v.toNat then (v.toNat : Int) - 256 else v.toNat := by
  rw [BitVec.toInt_eq_toNat_cond]
  split <;> split <;> omega

theorem addResult_toNat (p a m : Byte) : (addResult p a m).toNat = carrySum p a m % 256 := by
  simp [addResult]

theorem carryNat_le (p : Byte) : carryNat p ≤ 1 := by unfold carryNat; split <;> omega

/-- The sign-bit comparison as a statement about the three sign bits (R161). -/
theorem addOverflow_eq (a m r : Byte) :
    addOverflow a m r =
      (decide (128 ≤ a.toNat) == decide (128 ≤ m.toNat) && decide (128 ≤ a.toNat) != decide (128 ≤ r.toNat)) := by
  simp only [addOverflow, ← bit7_eq, bit7_eq_getLsbD, BitVec.getLsbD_and, BitVec.getLsbD_xor,
    BitVec.getLsbD_not]
  generalize a.getLsbD 7 = x, m.getLsbD 7 = y, r.getLsbD 7 = z
  revert x y z
  decide

/-- V is set exactly when the signed sum is out of range (R161). -/
theorem addOverflow_iff (p a m : Byte) :
    addOverflow a m (addResult p a m) = true ↔
      a.toInt + m.toInt + carryNat p < -128 ∨ 127 < a.toInt + m.toInt + carryNat p := by
  have ha := a.isLt
  have hm := m.isLt
  have hc := carryNat_le p
  rw [addOverflow_eq, addResult_toNat, toInt_eq, toInt_eq]
  unfold carrySum
  by_cases h1 : 128 ≤ a.toNat <;> by_cases h2 : 128 ≤ m.toNat <;>
    by_cases h3 : 128 ≤ (a.toNat + m.toNat + carryNat p) % 256 <;> simp [h1, h2, h3] <;> omega

end Sys2Proof.Machine
end

