-- ==== Sys2Proof/Laws/Memory.lean ====
section
/-! SUPPORT. The laws of the memory port (spec/20_memory.md R51, R53): a read after a write, the canonical
form kept by every write, and canonical memories that read alike being equal. -/

namespace Sys2Proof.Machine

theorem Memory.lookup_place (k j : Nat) (v : Byte) (m : Memory) (h : ∀ c ∈ m, c.1 ≠ k) :
    Memory.lookup j (Memory.place k v m) = if k = j then v else Memory.lookup j m := by
  induction m with
  | nil => simp [Memory.place, Memory.lookup]
  | cons c rest ih =>
    obtain ⟨k', v'⟩ := c
    have hk : k' ≠ k := h (k', v') (by simp)
    have hr : ∀ c ∈ rest, c.1 ≠ k := fun c hc => h c (by simp [hc])
    by_cases hlt : k < k'
    · simp [Memory.place, hlt, Memory.lookup]
    · simp only [Memory.place, hlt, if_false, Memory.lookup, ih hr]
      by_cases h1 : k' = j
      · subst h1; simp [Ne.symm hk]
      · simp [h1]

theorem Memory.lookup_filter (k j : Nat) (m : Memory) :
    Memory.lookup j (m.filter (fun c => c.1 != k)) =
      if k = j then Config.memoryBackground else Memory.lookup j m := by
  induction m with
  | nil => simp [Memory.lookup]
  | cons c rest ih =>
    obtain ⟨k', v'⟩ := c
    by_cases h1 : k' = k
    · subst h1
      rw [List.filter_cons_of_neg (by simp), ih]
      by_cases h2 : k' = j <;> simp [h2, Memory.lookup]
    · by_cases h2 : k' = j
      · subst h2; simp [h1, Ne.symm h1, Memory.lookup]
      · simp [h1, h2, ih, Memory.lookup]

/-- What any byte reads as after a write (R51, R53). -/
theorem Memory.read_write (m : Memory) (a b : Addr) (v : Byte) :
    Memory.read (Memory.write m a v) b = if a = b then v else Memory.read m b := by
  have hf : ∀ c ∈ m.filter (fun c => c.1 != a.toNat), c.1 ≠ a.toNat := by simp
  unfold Memory.read Memory.write
  by_cases hv : v = Config.memoryBackground
  · simp only [hv, if_true, Memory.lookup_filter, ← BitVec.toNat_inj]
  · simp only [hv, if_false, Memory.lookup_place _ _ _ _ hf, Memory.lookup_filter, ← BitVec.toNat_inj]
    split <;> simp_all

@[simp] theorem Memory.read_write_same (m : Memory) (a : Addr) (v : Byte) :
    Memory.read (Memory.write m a v) a = v := by simp [Memory.read_write]

theorem Memory.read_write_other (m : Memory) {a b : Addr} (v : Byte) (h : a ≠ b) :
    Memory.read (Memory.write m a v) b = Memory.read m b := by simp [Memory.read_write, h]

theorem Memory.wf_iff (m : Memory) :
    Memory.wf m = true ↔
      m.Pairwise (fun c d => c.1 < d.1) ∧ ∀ c ∈ m, c.1 < 65536 ∧ c.2 ≠ Config.memoryBackground := by
  simp [Memory.wf]

theorem Memory.mem_place {k : Nat} {v : Byte} {m : Memory} {c : Host.Cell}
    (h : c ∈ Memory.place k v m) : c = (k, v) ∨ c ∈ m := by
  induction m with
  | nil => simpa [Memory.place] using h
  | cons d rest ih =>
    obtain ⟨k', v'⟩ := d
    by_cases hlt : k < k'
    · simpa [Memory.place, hlt] using h
    · simp only [Memory.place, hlt, if_false, List.mem_cons] at h
      rcases h with h | h
      · simp [h]
      · rcases ih h with h | h <;> simp [h]

theorem Memory.pairwise_place {k : Nat} {v : Byte} {m : Memory}
    (h : m.Pairwise (fun c d => c.1 < d.1)) (hk : ∀ c ∈ m, c.1 ≠ k) :
    (Memory.place k v m).Pairwise (fun c d => c.1 < d.1) := by
  induction m with
  | nil => simp [Memory.place]
  | cons d rest ih =>
    obtain ⟨k', v'⟩ := d
    have hk' : k' ≠ k := hk (k', v') (by simp)
    obtain ⟨h1, h2⟩ := List.pairwise_cons.1 h
    by_cases hlt : k < k'
    · simp only [Memory.place, hlt, if_true]
      refine List.pairwise_cons.2 ⟨fun c hc => ?_, h⟩
      rcases List.mem_cons.1 hc with rfl | hc
      · exact hlt
      · exact Nat.lt_trans hlt (h1 c hc)
    · simp only [Memory.place, hlt, if_false]
      refine List.pairwise_cons.2 ⟨fun c hc => ?_, ih h2 fun c hc => hk c (by simp [hc])⟩
      rcases Memory.mem_place hc with rfl | hc
      · exact Nat.lt_of_le_of_ne (Nat.le_of_not_lt hlt) hk'
      · exact h1 c hc

/-- Every write keeps the canonical form. -/
theorem Memory.wf_write {m : Memory} (h : Memory.wf m = true) (a : Addr) (v : Byte) :
    Memory.wf (Memory.write m a v) = true := by
  obtain ⟨h1, h2⟩ := (Memory.wf_iff m).1 h
  have hp := h1.filter (fun c => c.1 != a.toNat)
  have hf : ∀ c ∈ m.filter (fun c => c.1 != a.toNat), c.1 ≠ a.toNat := by simp
  refine (Memory.wf_iff _).2 ?_
  unfold Memory.write
  by_cases hv : v = Config.memoryBackground
  · simp only [hv, if_true]
    exact ⟨hp, fun c hc => h2 c (List.mem_filter.1 hc).1⟩
  · simp only [hv, if_false]
    refine ⟨Memory.pairwise_place hp hf, fun c hc => ?_⟩
    rcases Memory.mem_place hc with rfl | hc
    · exact ⟨a.isLt, hv⟩
    · exact h2 c (List.mem_filter.1 hc).1

@[simp] theorem Memory.wf_nil : Memory.wf [] = true := by decide

theorem Memory.lookup_of_forall_lt {k : Nat} {m : Memory} (h : ∀ c ∈ m, k < c.1) :
    Memory.lookup k m = Config.memoryBackground := by
  induction m with
  | nil => rfl
  | cons c rest ih =>
    have h1 : ¬ c.1 = k := by have := h c (by simp); omega
    simp only [Memory.lookup, h1, if_false]
    exact ih fun c hc => h c (by simp [hc])

/-- A canonical list is determined by what its keys read as. -/
theorem Memory.eq_of_lookup {m n : Memory} (hm : Memory.wf m = true) (hn : Memory.wf n = true)
    (h : ∀ k, Memory.lookup k m = Memory.lookup k n) : m = n := by
  induction m generalizing n with
  | nil =>
    cases n with
    | nil => rfl
    | cons d rest =>
      have h1 := h d.1
      have h2 := (((Memory.wf_iff _).1 hn).2 d (by simp)).2
      simp only [Memory.lookup, if_true] at h1
      exact absurd h1.symm h2
  | cons c rest ih =>
    cases n with
    | nil =>
      have h1 := h c.1
      have h2 := (((Memory.wf_iff _).1 hm).2 c (by simp)).2
      simp only [Memory.lookup, if_true] at h1
      exact absurd h1 h2
    | cons d rest' =>
      obtain ⟨hm1, hm2⟩ := (Memory.wf_iff _).1 hm
      obtain ⟨hn1, hn2⟩ := (Memory.wf_iff _).1 hn
      obtain ⟨hm3, hm4⟩ := List.pairwise_cons.1 hm1
      obtain ⟨hn3, hn4⟩ := List.pairwise_cons.1 hn1
      have wfm : Memory.wf rest = true := (Memory.wf_iff _).2 ⟨hm4, fun c hc => hm2 c (by simp [hc])⟩
      have wfn : Memory.wf rest' = true := (Memory.wf_iff _).2 ⟨hn4, fun c hc => hn2 c (by simp [hc])⟩
      have hkey : c.1 = d.1 := by
        rcases Nat.lt_trichotomy c.1 d.1 with hlt | heq | hgt
        · have h1 := h c.1
          have h3 : Memory.lookup c.1 (d :: rest') = Config.memoryBackground := by
            refine Memory.lookup_of_forall_lt fun e he => ?_
            rcases List.mem_cons.1 he with rfl | he
            · exact hlt
            · exact Nat.lt_trans hlt (hn3 e he)
          rw [h3] at h1
          simp only [Memory.lookup, if_true] at h1
          exact absurd h1 (hm2 c (by simp)).2
        · exact heq
        · have h1 := h d.1
          have h3 : Memory.lookup d.1 (c :: rest) = Config.memoryBackground := by
            refine Memory.lookup_of_forall_lt fun e he => ?_
            rcases List.mem_cons.1 he with rfl | he
            · exact hgt
            · exact Nat.lt_trans hgt (hm3 e he)
          rw [h3] at h1
          simp only [Memory.lookup, if_true] at h1
          exact absurd h1.symm (hn2 d (by simp)).2
      have hval : c.2 = d.2 := by
        have h1 := h c.1
        simpa [Memory.lookup, hkey] using h1
      have hrest : ∀ k, Memory.lookup k rest = Memory.lookup k rest' := by
        intro k
        by_cases hk : c.1 = k
        · rw [Memory.lookup_of_forall_lt fun e he => hk ▸ hm3 e he,
            Memory.lookup_of_forall_lt fun e he => (hkey.symm.trans hk) ▸ hn3 e he]
        · have h1 := h k
          simpa [Memory.lookup, hk, hkey ▸ hk] using h1
      rw [ih wfm wfn hrest, show c = d from Prod.ext hkey hval]

theorem Memory.lookup_of_large {k : Nat} {m : Memory} (hm : Memory.wf m = true) (hk : 65536 ≤ k) :
    Memory.lookup k m = Config.memoryBackground := by
  have h2 := ((Memory.wf_iff _).1 hm).2
  clear hm
  induction m with
  | nil => rfl
  | cons c rest ih =>
    have h1 : ¬ c.1 = k := by have := (h2 c (by simp)).1; omega
    simp only [Memory.lookup, h1, if_false]
    exact ih fun c hc => h2 c (by simp [hc])

end Sys2Proof.Machine
end

