-- ==== Sys2Proof/Laws/State.lean ====
section
/-! SUPPORT. What each named update of the state does to each field: one lemma per field per update, so
that no later proof unfolds a record update. -/

namespace Sys2Proof.Machine

/-! `State.store` -/

@[simp] theorem State.store_a (s : State) (b : Addr) (v : Byte) : (s.store b v).a = s.a := rfl
@[simp] theorem State.store_x (s : State) (b : Addr) (v : Byte) : (s.store b v).x = s.x := rfl
@[simp] theorem State.store_y (s : State) (b : Addr) (v : Byte) : (s.store b v).y = s.y := rfl
@[simp] theorem State.store_sp (s : State) (b : Addr) (v : Byte) : (s.store b v).sp = s.sp := rfl
@[simp] theorem State.store_p (s : State) (b : Addr) (v : Byte) : (s.store b v).p = s.p := rfl
@[simp] theorem State.store_pc (s : State) (b : Addr) (v : Byte) : (s.store b v).pc = s.pc := rfl
@[simp] theorem State.store_opcode (s : State) (b : Addr) (v : Byte) : (s.store b v).opcode = s.opcode := rfl
@[simp] theorem State.store_fetched (s : State) (b : Addr) (v : Byte) :
    (s.store b v).fetched = s.fetched := rfl
@[simp] theorem State.store_addrAbs (s : State) (b : Addr) (v : Byte) :
    (s.store b v).addrAbs = s.addrAbs := rfl
@[simp] theorem State.store_addrRel (s : State) (b : Addr) (v : Byte) :
    (s.store b v).addrRel = s.addrRel := rfl
@[simp] theorem State.store_isImplied (s : State) (b : Addr) (v : Byte) :
    (s.store b v).isImplied = s.isImplied := rfl
@[simp] theorem State.store_cyclesRemaining (s : State) (b : Addr) (v : Byte) :
    (s.store b v).cyclesRemaining = s.cyclesRemaining := rfl
@[simp] theorem State.store_mem (s : State) (b : Addr) (v : Byte) :
    (s.store b v).mem = Memory.write s.mem b v := rfl
@[simp] theorem State.store_params (s : State) (b : Addr) (v : Byte) : (s.store b v).params = s.params := rfl
@[simp] theorem State.store_resetSeen (s : State) (b : Addr) (v : Byte) :
    (s.store b v).resetSeen = s.resetSeen := rfl
@[simp] theorem State.store_hostEvents (s : State) (b : Addr) (v : Byte) :
    (s.store b v).hostEvents = s.hostEvents := rfl

/-! `State.push8` -/

@[simp] theorem State.push8_a (s : State) (v : Byte) : (s.push8 v).a = s.a := rfl
@[simp] theorem State.push8_x (s : State) (v : Byte) : (s.push8 v).x = s.x := rfl
@[simp] theorem State.push8_y (s : State) (v : Byte) : (s.push8 v).y = s.y := rfl
@[simp] theorem State.push8_sp (s : State) (v : Byte) : (s.push8 v).sp = s.sp - 1 := rfl
@[simp] theorem State.push8_p (s : State) (v : Byte) : (s.push8 v).p = s.p := rfl
@[simp] theorem State.push8_pc (s : State) (v : Byte) : (s.push8 v).pc = s.pc := rfl
@[simp] theorem State.push8_opcode (s : State) (v : Byte) : (s.push8 v).opcode = s.opcode := rfl
@[simp] theorem State.push8_fetched (s : State) (v : Byte) : (s.push8 v).fetched = s.fetched := rfl
@[simp] theorem State.push8_addrAbs (s : State) (v : Byte) : (s.push8 v).addrAbs = s.addrAbs := rfl
@[simp] theorem State.push8_addrRel (s : State) (v : Byte) : (s.push8 v).addrRel = s.addrRel := rfl
@[simp] theorem State.push8_isImplied (s : State) (v : Byte) : (s.push8 v).isImplied = s.isImplied := rfl
@[simp] theorem State.push8_cyclesRemaining (s : State) (v : Byte) :
    (s.push8 v).cyclesRemaining = s.cyclesRemaining := rfl
@[simp] theorem State.push8_mem (s : State) (v : Byte) :
    (s.push8 v).mem = Memory.write s.mem (stackSlot s.sp) v := rfl
@[simp] theorem State.push8_params (s : State) (v : Byte) : (s.push8 v).params = s.params := rfl
@[simp] theorem State.push8_resetSeen (s : State) (v : Byte) : (s.push8 v).resetSeen = s.resetSeen := rfl
@[simp] theorem State.push8_hostEvents (s : State) (v : Byte) : (s.push8 v).hostEvents = s.hostEvents := rfl

/-! `State.pop8` -/

@[simp] theorem State.pop8_a (s : State) : (s.pop8.2).a = s.a := rfl
@[simp] theorem State.pop8_x (s : State) : (s.pop8.2).x = s.x := rfl
@[simp] theorem State.pop8_y (s : State) : (s.pop8.2).y = s.y := rfl
@[simp] theorem State.pop8_sp (s : State) : (s.pop8.2).sp = s.sp + 1 := rfl
@[simp] theorem State.pop8_p (s : State) : (s.pop8.2).p = s.p := rfl
@[simp] theorem State.pop8_pc (s : State) : (s.pop8.2).pc = s.pc := rfl
@[simp] theorem State.pop8_opcode (s : State) : (s.pop8.2).opcode = s.opcode := rfl
@[simp] theorem State.pop8_fetched (s : State) : (s.pop8.2).fetched = s.fetched := rfl
@[simp] theorem State.pop8_addrAbs (s : State) : (s.pop8.2).addrAbs = s.addrAbs := rfl
@[simp] theorem State.pop8_addrRel (s : State) : (s.pop8.2).addrRel = s.addrRel := rfl
@[simp] theorem State.pop8_isImplied (s : State) : (s.pop8.2).isImplied = s.isImplied := rfl
@[simp] theorem State.pop8_cyclesRemaining (s : State) : (s.pop8.2).cyclesRemaining = s.cyclesRemaining := rfl
@[simp] theorem State.pop8_mem (s : State) : (s.pop8.2).mem = s.mem := rfl
@[simp] theorem State.pop8_params (s : State) : (s.pop8.2).params = s.params := rfl
@[simp] theorem State.pop8_resetSeen (s : State) : (s.pop8.2).resetSeen = s.resetSeen := rfl
@[simp] theorem State.pop8_hostEvents (s : State) : (s.pop8.2).hostEvents = s.hostEvents := rfl

/-! `State.push16` -/

@[simp] theorem State.push16_a (s : State) (w : Addr) : (s.push16 w).a = s.a := rfl
@[simp] theorem State.push16_x (s : State) (w : Addr) : (s.push16 w).x = s.x := rfl
@[simp] theorem State.push16_y (s : State) (w : Addr) : (s.push16 w).y = s.y := rfl
@[simp] theorem State.push16_sp (s : State) (w : Addr) : (s.push16 w).sp = s.sp - 1 - 1 := rfl
@[simp] theorem State.push16_p (s : State) (w : Addr) : (s.push16 w).p = s.p := rfl
@[simp] theorem State.push16_pc (s : State) (w : Addr) : (s.push16 w).pc = s.pc := rfl
@[simp] theorem State.push16_opcode (s : State) (w : Addr) : (s.push16 w).opcode = s.opcode := rfl
@[simp] theorem State.push16_fetched (s : State) (w : Addr) : (s.push16 w).fetched = s.fetched := rfl
@[simp] theorem State.push16_addrAbs (s : State) (w : Addr) : (s.push16 w).addrAbs = s.addrAbs := rfl
@[simp] theorem State.push16_addrRel (s : State) (w : Addr) : (s.push16 w).addrRel = s.addrRel := rfl
@[simp] theorem State.push16_isImplied (s : State) (w : Addr) : (s.push16 w).isImplied = s.isImplied := rfl
@[simp] theorem State.push16_cyclesRemaining (s : State) (w : Addr) :
    (s.push16 w).cyclesRemaining = s.cyclesRemaining := rfl
@[simp] theorem State.push16_mem (s : State) (w : Addr) :
    (s.push16 w).mem = Memory.write (Memory.write s.mem (stackSlot s.sp) (hi8 w)) (stackSlot (s.sp - 1)) (lo8 w) := rfl
@[simp] theorem State.push16_params (s : State) (w : Addr) : (s.push16 w).params = s.params := rfl
@[simp] theorem State.push16_resetSeen (s : State) (w : Addr) : (s.push16 w).resetSeen = s.resetSeen := rfl
@[simp] theorem State.push16_hostEvents (s : State) (w : Addr) : (s.push16 w).hostEvents = s.hostEvents := rfl

/-! `State.pop16` -/

@[simp] theorem State.pop16_a (s : State) : (s.pop16.2).a = s.a := rfl
@[simp] theorem State.pop16_x (s : State) : (s.pop16.2).x = s.x := rfl
@[simp] theorem State.pop16_y (s : State) : (s.pop16.2).y = s.y := rfl
@[simp] theorem State.pop16_sp (s : State) : (s.pop16.2).sp = s.sp + 1 + 1 := rfl
@[simp] theorem State.pop16_p (s : State) : (s.pop16.2).p = s.p := rfl
@[simp] theorem State.pop16_pc (s : State) : (s.pop16.2).pc = s.pc := rfl
@[simp] theorem State.pop16_opcode (s : State) : (s.pop16.2).opcode = s.opcode := rfl
@[simp] theorem State.pop16_fetched (s : State) : (s.pop16.2).fetched = s.fetched := rfl
@[simp] theorem State.pop16_addrAbs (s : State) : (s.pop16.2).addrAbs = s.addrAbs := rfl
@[simp] theorem State.pop16_addrRel (s : State) : (s.pop16.2).addrRel = s.addrRel := rfl
@[simp] theorem State.pop16_isImplied (s : State) : (s.pop16.2).isImplied = s.isImplied := rfl
@[simp] theorem State.pop16_cyclesRemaining (s : State) :
    (s.pop16.2).cyclesRemaining = s.cyclesRemaining := rfl
@[simp] theorem State.pop16_mem (s : State) : (s.pop16.2).mem = s.mem := rfl
@[simp] theorem State.pop16_params (s : State) : (s.pop16.2).params = s.params := rfl
@[simp] theorem State.pop16_resetSeen (s : State) : (s.pop16.2).resetSeen = s.resetSeen := rfl
@[simp] theorem State.pop16_hostEvents (s : State) : (s.pop16.2).hostEvents = s.hostEvents := rfl

/-! `State.beginInstr` -/

@[simp] theorem State.beginInstr_a (s : State) (op : Byte) : (s.beginInstr op).a = s.a := rfl
@[simp] theorem State.beginInstr_x (s : State) (op : Byte) : (s.beginInstr op).x = s.x := rfl
@[simp] theorem State.beginInstr_y (s : State) (op : Byte) : (s.beginInstr op).y = s.y := rfl
@[simp] theorem State.beginInstr_sp (s : State) (op : Byte) : (s.beginInstr op).sp = s.sp := rfl
@[simp] theorem State.beginInstr_p (s : State) (op : Byte) : (s.beginInstr op).p = setFlag s.p .U true := rfl
@[simp] theorem State.beginInstr_pc (s : State) (op : Byte) : (s.beginInstr op).pc = s.pc + 1 := rfl
@[simp] theorem State.beginInstr_opcode (s : State) (op : Byte) : (s.beginInstr op).opcode = op := rfl
@[simp] theorem State.beginInstr_fetched (s : State) (op : Byte) :
    (s.beginInstr op).fetched = s.fetched := rfl
@[simp] theorem State.beginInstr_addrAbs (s : State) (op : Byte) :
    (s.beginInstr op).addrAbs = s.addrAbs := rfl
@[simp] theorem State.beginInstr_addrRel (s : State) (op : Byte) :
    (s.beginInstr op).addrRel = s.addrRel := rfl
@[simp] theorem State.beginInstr_isImplied (s : State) (op : Byte) :
    (s.beginInstr op).isImplied = s.isImplied := rfl
@[simp] theorem State.beginInstr_cyclesRemaining (s : State) (op : Byte) :
    (s.beginInstr op).cyclesRemaining = s.cyclesRemaining := rfl
@[simp] theorem State.beginInstr_mem (s : State) (op : Byte) : (s.beginInstr op).mem = s.mem := rfl
@[simp] theorem State.beginInstr_params (s : State) (op : Byte) : (s.beginInstr op).params = s.params := rfl
@[simp] theorem State.beginInstr_resetSeen (s : State) (op : Byte) :
    (s.beginInstr op).resetSeen = s.resetSeen := rfl
@[simp] theorem State.beginInstr_hostEvents (s : State) (op : Byte) :
    (s.beginInstr op).hostEvents = s.hostEvents := rfl

/-! `State.finishInstr` -/

@[simp] theorem State.finishInstr_a (s : State) (n : Nat) : (s.finishInstr n).a = s.a := rfl
@[simp] theorem State.finishInstr_x (s : State) (n : Nat) : (s.finishInstr n).x = s.x := rfl
@[simp] theorem State.finishInstr_y (s : State) (n : Nat) : (s.finishInstr n).y = s.y := rfl
@[simp] theorem State.finishInstr_sp (s : State) (n : Nat) : (s.finishInstr n).sp = s.sp := rfl
@[simp] theorem State.finishInstr_p (s : State) (n : Nat) : (s.finishInstr n).p = setFlag s.p .U true := rfl
@[simp] theorem State.finishInstr_pc (s : State) (n : Nat) : (s.finishInstr n).pc = s.pc := rfl
@[simp] theorem State.finishInstr_opcode (s : State) (n : Nat) : (s.finishInstr n).opcode = s.opcode := rfl
@[simp] theorem State.finishInstr_fetched (s : State) (n : Nat) : (s.finishInstr n).fetched = s.fetched := rfl
@[simp] theorem State.finishInstr_addrAbs (s : State) (n : Nat) : (s.finishInstr n).addrAbs = s.addrAbs := rfl
@[simp] theorem State.finishInstr_addrRel (s : State) (n : Nat) : (s.finishInstr n).addrRel = s.addrRel := rfl
@[simp] theorem State.finishInstr_isImplied (s : State) (n : Nat) :
    (s.finishInstr n).isImplied = s.isImplied := rfl
@[simp] theorem State.finishInstr_cyclesRemaining (s : State) (n : Nat) :
    (s.finishInstr n).cyclesRemaining = BitVec.ofNat 8 (n - 1) := rfl
@[simp] theorem State.finishInstr_mem (s : State) (n : Nat) : (s.finishInstr n).mem = s.mem := rfl
@[simp] theorem State.finishInstr_params (s : State) (n : Nat) : (s.finishInstr n).params = s.params := rfl
@[simp] theorem State.finishInstr_resetSeen (s : State) (n : Nat) :
    (s.finishInstr n).resetSeen = s.resetSeen := rfl
@[simp] theorem State.finishInstr_hostEvents (s : State) (n : Nat) :
    (s.finishInstr n).hostEvents = s.hostEvents := rfl

/-! `State.resolve` -/

@[simp] theorem State.resolve_a (s : State) (m : Operand) : (s.resolve m).a = s.a := rfl
@[simp] theorem State.resolve_x (s : State) (m : Operand) : (s.resolve m).x = s.x := rfl
@[simp] theorem State.resolve_y (s : State) (m : Operand) : (s.resolve m).y = s.y := rfl
@[simp] theorem State.resolve_sp (s : State) (m : Operand) : (s.resolve m).sp = s.sp := rfl
@[simp] theorem State.resolve_p (s : State) (m : Operand) : (s.resolve m).p = s.p := rfl
@[simp] theorem State.resolve_pc (s : State) (m : Operand) :
    (s.resolve m).pc = s.pc + BitVec.ofNat 16 m.size := rfl
@[simp] theorem State.resolve_opcode (s : State) (m : Operand) : (s.resolve m).opcode = s.opcode := rfl
@[simp] theorem State.resolve_fetched (s : State) (m : Operand) :
    (s.resolve m).fetched = if m = .imp then s.a else s.fetched := rfl
@[simp] theorem State.resolve_addrAbs (s : State) (m : Operand) :
    (s.resolve m).addrAbs = s.operandAddress m := rfl
@[simp] theorem State.resolve_addrRel (s : State) (m : Operand) :
    (s.resolve m).addrRel = s.resolveRel m := rfl
@[simp] theorem State.resolve_isImplied (s : State) (m : Operand) :
    (s.resolve m).isImplied = decide (m = .imp) := rfl
@[simp] theorem State.resolve_cyclesRemaining (s : State) (m : Operand) :
    (s.resolve m).cyclesRemaining = s.cyclesRemaining := rfl
@[simp] theorem State.resolve_mem (s : State) (m : Operand) : (s.resolve m).mem = s.mem := rfl
@[simp] theorem State.resolve_params (s : State) (m : Operand) : (s.resolve m).params = s.params := rfl
@[simp] theorem State.resolve_resetSeen (s : State) (m : Operand) :
    (s.resolve m).resetSeen = s.resetSeen := rfl
@[simp] theorem State.resolve_hostEvents (s : State) (m : Operand) :
    (s.resolve m).hostEvents = s.hostEvents := rfl

/-! `State.returnFromException` -/

@[simp] theorem State.returnFromException_a (s : State) : (s.returnFromException).a = s.a := by simp [State.returnFromException, State.pop8, State.pop16, State.load]
@[simp] theorem State.returnFromException_x (s : State) : (s.returnFromException).x = s.x := by simp [State.returnFromException, State.pop8, State.pop16, State.load]
@[simp] theorem State.returnFromException_y (s : State) : (s.returnFromException).y = s.y := by simp [State.returnFromException, State.pop8, State.pop16, State.load]
@[simp] theorem State.returnFromException_sp (s : State) :
    (s.returnFromException).sp = s.sp + 1 + 1 + 1 := by simp [State.returnFromException, State.pop8, State.pop16, State.load]
@[simp] theorem State.returnFromException_p (s : State) :
    (s.returnFromException).p = statusRestored (s.load (stackSlot (s.sp + 1))) := by simp [State.returnFromException, State.pop8, State.pop16, State.load]
@[simp] theorem State.returnFromException_pc (s : State) :
    (s.returnFromException).pc = join16 (s.load (stackSlot (s.sp + 1 + 1 + 1))) (s.load (stackSlot (s.sp + 1 + 1))) := by simp [State.returnFromException, State.pop8, State.pop16, State.load]
@[simp] theorem State.returnFromException_opcode (s : State) :
    (s.returnFromException).opcode = s.opcode := by simp [State.returnFromException, State.pop8, State.pop16, State.load]
@[simp] theorem State.returnFromException_fetched (s : State) :
    (s.returnFromException).fetched = s.fetched := by simp [State.returnFromException, State.pop8, State.pop16, State.load]
@[simp] theorem State.returnFromException_addrAbs (s : State) :
    (s.returnFromException).addrAbs = s.addrAbs := by simp [State.returnFromException, State.pop8, State.pop16, State.load]
@[simp] theorem State.returnFromException_addrRel (s : State) :
    (s.returnFromException).addrRel = s.addrRel := by simp [State.returnFromException, State.pop8, State.pop16, State.load]
@[simp] theorem State.returnFromException_isImplied (s : State) :
    (s.returnFromException).isImplied = s.isImplied := by simp [State.returnFromException, State.pop8, State.pop16, State.load]
@[simp] theorem State.returnFromException_cyclesRemaining (s : State) :
    (s.returnFromException).cyclesRemaining = s.cyclesRemaining := by simp [State.returnFromException, State.pop8, State.pop16, State.load]
@[simp] theorem State.returnFromException_mem (s : State) : (s.returnFromException).mem = s.mem := by simp [State.returnFromException, State.pop8, State.pop16, State.load]
@[simp] theorem State.returnFromException_params (s : State) :
    (s.returnFromException).params = s.params := by simp [State.returnFromException, State.pop8, State.pop16, State.load]
@[simp] theorem State.returnFromException_resetSeen (s : State) :
    (s.returnFromException).resetSeen = s.resetSeen := by simp [State.returnFromException, State.pop8, State.pop16, State.load]
@[simp] theorem State.returnFromException_hostEvents (s : State) :
    (s.returnFromException).hostEvents = s.hostEvents := by simp [State.returnFromException, State.pop8, State.pop16, State.load]

/-! `State.takeException` -/

@[simp] theorem State.takeException_a (s : State) (vec ret : Addr) (st : Byte) :
    (s.takeException vec ret st).a = s.a := by simp [State.takeException]
@[simp] theorem State.takeException_x (s : State) (vec ret : Addr) (st : Byte) :
    (s.takeException vec ret st).x = s.x := by simp [State.takeException]
@[simp] theorem State.takeException_y (s : State) (vec ret : Addr) (st : Byte) :
    (s.takeException vec ret st).y = s.y := by simp [State.takeException]
@[simp] theorem State.takeException_sp (s : State) (vec ret : Addr) (st : Byte) :
    (s.takeException vec ret st).sp = s.sp - 1 - 1 - 1 := by simp [State.takeException]
@[simp] theorem State.takeException_p (s : State) (vec ret : Addr) (st : Byte) :
    (s.takeException vec ret st).p = setFlag s.p .I true := by simp [State.takeException]
@[simp] theorem State.takeException_pc (s : State) (vec ret : Addr) (st : Byte) :
    (s.takeException vec ret st).pc = ((s.push16 ret).push8 st).read16 vec := by simp [State.takeException]
@[simp] theorem State.takeException_opcode (s : State) (vec ret : Addr) (st : Byte) :
    (s.takeException vec ret st).opcode = s.opcode := by simp [State.takeException]
@[simp] theorem State.takeException_fetched (s : State) (vec ret : Addr) (st : Byte) :
    (s.takeException vec ret st).fetched = s.fetched := by simp [State.takeException]
@[simp] theorem State.takeException_addrAbs (s : State) (vec ret : Addr) (st : Byte) :
    (s.takeException vec ret st).addrAbs = s.addrAbs := by simp [State.takeException]
@[simp] theorem State.takeException_addrRel (s : State) (vec ret : Addr) (st : Byte) :
    (s.takeException vec ret st).addrRel = s.addrRel := by simp [State.takeException]
@[simp] theorem State.takeException_isImplied (s : State) (vec ret : Addr) (st : Byte) :
    (s.takeException vec ret st).isImplied = s.isImplied := by simp [State.takeException]
@[simp] theorem State.takeException_cyclesRemaining (s : State) (vec ret : Addr) (st : Byte) :
    (s.takeException vec ret st).cyclesRemaining = s.cyclesRemaining := by simp [State.takeException]
@[simp] theorem State.takeException_mem (s : State) (vec ret : Addr) (st : Byte) :
    (s.takeException vec ret st).mem = Memory.write (s.push16 ret).mem (stackSlot (s.sp - 1 - 1)) st := by simp [State.takeException]
@[simp] theorem State.takeException_params (s : State) (vec ret : Addr) (st : Byte) :
    (s.takeException vec ret st).params = s.params := by simp [State.takeException]
@[simp] theorem State.takeException_resetSeen (s : State) (vec ret : Addr) (st : Byte) :
    (s.takeException vec ret st).resetSeen = s.resetSeen := by simp [State.takeException]
@[simp] theorem State.takeException_hostEvents (s : State) (vec ret : Addr) (st : Byte) :
    (s.takeException vec ret st).hostEvents = s.hostEvents := by simp [State.takeException]

/-! `State.interruptEntry` -/

@[simp] theorem State.interruptEntry_a (s : State) (vec : Addr) (n : Byte) :
    (s.interruptEntry vec n).a = s.a := by simp [State.interruptEntry]
@[simp] theorem State.interruptEntry_x (s : State) (vec : Addr) (n : Byte) :
    (s.interruptEntry vec n).x = s.x := by simp [State.interruptEntry]
@[simp] theorem State.interruptEntry_y (s : State) (vec : Addr) (n : Byte) :
    (s.interruptEntry vec n).y = s.y := by simp [State.interruptEntry]
@[simp] theorem State.interruptEntry_sp (s : State) (vec : Addr) (n : Byte) :
    (s.interruptEntry vec n).sp = s.sp - 1 - 1 - 1 := by simp [State.interruptEntry]
@[simp] theorem State.interruptEntry_p (s : State) (vec : Addr) (n : Byte) :
    (s.interruptEntry vec n).p = setFlag (setFlag s.p .I true) .U true := by simp [State.interruptEntry]
@[simp] theorem State.interruptEntry_pc (s : State) (vec : Addr) (n : Byte) :
    (s.interruptEntry vec n).pc = ((s.push16 s.pc).push8 (statusPushedByInterrupt s.p)).read16 vec := by simp [State.interruptEntry]
@[simp] theorem State.interruptEntry_opcode (s : State) (vec : Addr) (n : Byte) :
    (s.interruptEntry vec n).opcode = s.opcode := by simp [State.interruptEntry]
@[simp] theorem State.interruptEntry_fetched (s : State) (vec : Addr) (n : Byte) :
    (s.interruptEntry vec n).fetched = s.fetched := by simp [State.interruptEntry]
@[simp] theorem State.interruptEntry_addrAbs (s : State) (vec : Addr) (n : Byte) :
    (s.interruptEntry vec n).addrAbs = s.addrAbs := by simp [State.interruptEntry]
@[simp] theorem State.interruptEntry_addrRel (s : State) (vec : Addr) (n : Byte) :
    (s.interruptEntry vec n).addrRel = s.addrRel := by simp [State.interruptEntry]
@[simp] theorem State.interruptEntry_isImplied (s : State) (vec : Addr) (n : Byte) :
    (s.interruptEntry vec n).isImplied = s.isImplied := by simp [State.interruptEntry]
@[simp] theorem State.interruptEntry_cyclesRemaining (s : State) (vec : Addr) (n : Byte) :
    (s.interruptEntry vec n).cyclesRemaining = n := by simp [State.interruptEntry]
@[simp] theorem State.interruptEntry_mem (s : State) (vec : Addr) (n : Byte) :
    (s.interruptEntry vec n).mem = Memory.write (s.push16 s.pc).mem (stackSlot (s.sp - 1 - 1)) (statusPushedByInterrupt s.p) := by simp [State.interruptEntry]
@[simp] theorem State.interruptEntry_params (s : State) (vec : Addr) (n : Byte) :
    (s.interruptEntry vec n).params = s.params := by simp [State.interruptEntry]
@[simp] theorem State.interruptEntry_resetSeen (s : State) (vec : Addr) (n : Byte) :
    (s.interruptEntry vec n).resetSeen = s.resetSeen := by simp [State.interruptEntry]
@[simp] theorem State.interruptEntry_hostEvents (s : State) (vec : Addr) (n : Byte) :
    (s.interruptEntry vec n).hostEvents = s.hostEvents := by simp [State.interruptEntry]

/-! `State.resetEvent` -/

@[simp] theorem State.resetEvent_a (s : State) : (s.resetEvent).a = 0x00 := rfl
@[simp] theorem State.resetEvent_x (s : State) : (s.resetEvent).x = 0x00 := rfl
@[simp] theorem State.resetEvent_y (s : State) : (s.resetEvent).y = 0x00 := rfl
@[simp] theorem State.resetEvent_sp (s : State) : (s.resetEvent).sp = 0xFD := rfl
@[simp] theorem State.resetEvent_p (s : State) : (s.resetEvent).p = 0x20 := rfl
@[simp] theorem State.resetEvent_pc (s : State) : (s.resetEvent).pc = s.read16 resetVector := rfl
@[simp] theorem State.resetEvent_opcode (s : State) : (s.resetEvent).opcode = 0x00 := rfl
@[simp] theorem State.resetEvent_fetched (s : State) : (s.resetEvent).fetched = 0x00 := rfl
@[simp] theorem State.resetEvent_addrAbs (s : State) : (s.resetEvent).addrAbs = 0x0000 := rfl
@[simp] theorem State.resetEvent_addrRel (s : State) : (s.resetEvent).addrRel = 0x0000 := rfl
@[simp] theorem State.resetEvent_isImplied (s : State) : (s.resetEvent).isImplied = false := rfl
@[simp] theorem State.resetEvent_cyclesRemaining (s : State) : (s.resetEvent).cyclesRemaining = 8 := rfl
@[simp] theorem State.resetEvent_mem (s : State) : (s.resetEvent).mem = s.mem := rfl
@[simp] theorem State.resetEvent_params (s : State) : (s.resetEvent).params = s.params := rfl
@[simp] theorem State.resetEvent_resetSeen (s : State) : (s.resetEvent).resetSeen = true := rfl
@[simp] theorem State.resetEvent_hostEvents (s : State) : (s.resetEvent).hostEvents = s.hostEvents := rfl

/-! `State.idle` -/

@[simp] theorem State.idle_a (s : State) : (s.idle).a = s.a := rfl
@[simp] theorem State.idle_x (s : State) : (s.idle).x = s.x := rfl
@[simp] theorem State.idle_y (s : State) : (s.idle).y = s.y := rfl
@[simp] theorem State.idle_sp (s : State) : (s.idle).sp = s.sp := rfl
@[simp] theorem State.idle_p (s : State) : (s.idle).p = s.p := rfl
@[simp] theorem State.idle_pc (s : State) : (s.idle).pc = s.pc := rfl
@[simp] theorem State.idle_opcode (s : State) : (s.idle).opcode = s.opcode := rfl
@[simp] theorem State.idle_fetched (s : State) : (s.idle).fetched = s.fetched := rfl
@[simp] theorem State.idle_addrAbs (s : State) : (s.idle).addrAbs = s.addrAbs := rfl
@[simp] theorem State.idle_addrRel (s : State) : (s.idle).addrRel = s.addrRel := rfl
@[simp] theorem State.idle_isImplied (s : State) : (s.idle).isImplied = s.isImplied := rfl
@[simp] theorem State.idle_cyclesRemaining (s : State) :
    (s.idle).cyclesRemaining = s.cyclesRemaining - 1 := rfl
@[simp] theorem State.idle_mem (s : State) : (s.idle).mem = s.mem := rfl
@[simp] theorem State.idle_params (s : State) : (s.idle).params = s.params := rfl
@[simp] theorem State.idle_resetSeen (s : State) : (s.idle).resetSeen = s.resetSeen := rfl
@[simp] theorem State.idle_hostEvents (s : State) : (s.idle).hostEvents = s.hostEvents := rfl

/-! `State.fetchOperand` -/

@[simp] theorem State.fetchOperand_a (s : State) (m : Operand) :
    (s.fetchOperand m).a = s.a := by cases m <;> rfl
@[simp] theorem State.fetchOperand_x (s : State) (m : Operand) :
    (s.fetchOperand m).x = s.x := by cases m <;> rfl
@[simp] theorem State.fetchOperand_y (s : State) (m : Operand) :
    (s.fetchOperand m).y = s.y := by cases m <;> rfl
@[simp] theorem State.fetchOperand_sp (s : State) (m : Operand) :
    (s.fetchOperand m).sp = s.sp := by cases m <;> rfl
@[simp] theorem State.fetchOperand_p (s : State) (m : Operand) :
    (s.fetchOperand m).p = s.p := by cases m <;> rfl
@[simp] theorem State.fetchOperand_pc (s : State) (m : Operand) :
    (s.fetchOperand m).pc = s.pc := by cases m <;> rfl
@[simp] theorem State.fetchOperand_opcode (s : State) (m : Operand) :
    (s.fetchOperand m).opcode = s.opcode := by cases m <;> rfl
@[simp] theorem State.fetchOperand_addrAbs (s : State) (m : Operand) :
    (s.fetchOperand m).addrAbs = s.addrAbs := by cases m <;> rfl
@[simp] theorem State.fetchOperand_addrRel (s : State) (m : Operand) :
    (s.fetchOperand m).addrRel = s.addrRel := by cases m <;> rfl
@[simp] theorem State.fetchOperand_isImplied (s : State) (m : Operand) :
    (s.fetchOperand m).isImplied = s.isImplied := by cases m <;> rfl
@[simp] theorem State.fetchOperand_cyclesRemaining (s : State) (m : Operand) :
    (s.fetchOperand m).cyclesRemaining = s.cyclesRemaining := by cases m <;> rfl
@[simp] theorem State.fetchOperand_mem (s : State) (m : Operand) :
    (s.fetchOperand m).mem = s.mem := by cases m <;> rfl
@[simp] theorem State.fetchOperand_params (s : State) (m : Operand) :
    (s.fetchOperand m).params = s.params := by cases m <;> rfl
@[simp] theorem State.fetchOperand_resetSeen (s : State) (m : Operand) :
    (s.fetchOperand m).resetSeen = s.resetSeen := by cases m <;> rfl
@[simp] theorem State.fetchOperand_hostEvents (s : State) (m : Operand) :
    (s.fetchOperand m).hostEvents = s.hostEvents := by cases m <;> rfl

/-! `State.writeBack` -/

@[simp] theorem State.writeBack_a (s : State) (v : Byte) :
    (s.writeBack v).a = if s.isImplied then v else s.a := by unfold State.writeBack; split <;> simp_all
@[simp] theorem State.writeBack_x (s : State) (v : Byte) :
    (s.writeBack v).x = s.x := by unfold State.writeBack; split <;> simp_all
@[simp] theorem State.writeBack_y (s : State) (v : Byte) :
    (s.writeBack v).y = s.y := by unfold State.writeBack; split <;> simp_all
@[simp] theorem State.writeBack_sp (s : State) (v : Byte) :
    (s.writeBack v).sp = s.sp := by unfold State.writeBack; split <;> simp_all
@[simp] theorem State.writeBack_p (s : State) (v : Byte) :
    (s.writeBack v).p = s.p := by unfold State.writeBack; split <;> simp_all
@[simp] theorem State.writeBack_pc (s : State) (v : Byte) :
    (s.writeBack v).pc = s.pc := by unfold State.writeBack; split <;> simp_all
@[simp] theorem State.writeBack_opcode (s : State) (v : Byte) :
    (s.writeBack v).opcode = s.opcode := by unfold State.writeBack; split <;> simp_all
@[simp] theorem State.writeBack_fetched (s : State) (v : Byte) :
    (s.writeBack v).fetched = s.fetched := by unfold State.writeBack; split <;> simp_all
@[simp] theorem State.writeBack_addrAbs (s : State) (v : Byte) :
    (s.writeBack v).addrAbs = s.addrAbs := by unfold State.writeBack; split <;> simp_all
@[simp] theorem State.writeBack_addrRel (s : State) (v : Byte) :
    (s.writeBack v).addrRel = s.addrRel := by unfold State.writeBack; split <;> simp_all
@[simp] theorem State.writeBack_isImplied (s : State) (v : Byte) :
    (s.writeBack v).isImplied = s.isImplied := by unfold State.writeBack; split <;> simp_all
@[simp] theorem State.writeBack_cyclesRemaining (s : State) (v : Byte) :
    (s.writeBack v).cyclesRemaining = s.cyclesRemaining := by unfold State.writeBack; split <;> simp_all
@[simp] theorem State.writeBack_mem (s : State) (v : Byte) :
    (s.writeBack v).mem = if s.isImplied then s.mem else Memory.write s.mem s.addrAbs v := by unfold State.writeBack; split <;> simp_all
@[simp] theorem State.writeBack_params (s : State) (v : Byte) :
    (s.writeBack v).params = s.params := by unfold State.writeBack; split <;> simp_all
@[simp] theorem State.writeBack_resetSeen (s : State) (v : Byte) :
    (s.writeBack v).resetSeen = s.resetSeen := by unfold State.writeBack; split <;> simp_all
@[simp] theorem State.writeBack_hostEvents (s : State) (v : Byte) :
    (s.writeBack v).hostEvents = s.hostEvents := by unfold State.writeBack; split <;> simp_all

end Sys2Proof.Machine
end

