-- ==== Sys2Proof/Laws/Ops.lean ====
section
/-! SUPPORT. One lemma for each shared operation that says what it does to memory: loads after stores,
pushes and pops (spec/20_memory.md R51, R62 to R64), and what an exception entry leaves in the stack. -/

namespace Sys2Proof.Machine

/-- A byte reads the same in every state with the same memory. -/
theorem State.load_congr {s t : State} (h : t.mem = s.mem) (a : Addr) : t.load a = s.load a := by
  simp [State.load, h]

/-- What any byte reads as after a store. -/
theorem State.load_store (s : State) (a b : Addr) (v : Byte) :
    (s.store a v).load b = if a = b then v else s.load b := by
  simp [State.load, Memory.read_write]

theorem State.load_push8 (s : State) (v : Byte) (b : Addr) :
    (s.push8 v).load b = if stackSlot s.sp = b then v else s.load b := by
  simp [State.load, Memory.read_write]

@[simp] theorem State.load_pop8 (s : State) (b : Addr) : s.pop8.2.load b = s.load b := rfl

@[simp] theorem State.load_beginInstr (s : State) (op : Byte) (b : Addr) :
    (s.beginInstr op).load b = s.load b := rfl

@[simp] theorem State.load_resolve (s : State) (m : Operand) (b : Addr) :
    (s.resolve m).load b = s.load b := rfl

@[simp] theorem State.load_finishInstr (s : State) (n : Nat) (b : Addr) :
    (s.finishInstr n).load b = s.load b := rfl

@[simp] theorem State.load_fetchOperand (s : State) (m : Operand) (b : Addr) :
    (s.fetchOperand m).load b = s.load b := State.load_congr (by simp) b

@[simp] theorem State.pop8_fst (s : State) : s.pop8.1 = s.load (stackSlot (s.sp + 1)) := rfl

@[simp] theorem State.pop16_fst (s : State) :
    s.pop16.1 = join16 (s.load (stackSlot (s.sp + 1 + 1))) (s.load (stackSlot (s.sp + 1))) := rfl

/-- The stack slots are page 1 (R24). -/
theorem stackSlot_toNat (sp : Byte) : (stackSlot sp).toNat = 256 + sp.toNat := by
  have h := sp.isLt
  simp [stackSlot, zext16]
  omega

@[simp] theorem stackSlot_inj {a b : Byte} : stackSlot a = stackSlot b ↔ a = b := by
  rw [← BitVec.toNat_inj, stackSlot_toNat, stackSlot_toNat, ← BitVec.toNat_inj]
  omega

/-- What any byte reads as after a 16-bit push (R64). -/
theorem State.load_push16 (s : State) (w b : Addr) :
    (s.push16 w).load b =
      if stackSlot (s.sp - 1) = b then lo8 w else if stackSlot s.sp = b then hi8 w else s.load b := by
  simp [State.load, Memory.read_write]

/-- What any byte reads as after the three pushes of an exception entry (R302, R312). -/
theorem State.load_takeException (s : State) (vec ret : Addr) (st : Byte) (b : Addr) :
    (s.takeException vec ret st).load b =
      if stackSlot (s.sp - 2) = b then st
      else if stackSlot (s.sp - 1) = b then lo8 ret
      else if stackSlot s.sp = b then hi8 ret else s.load b := by
  have h : s.sp - 1 - 1 = s.sp - 2 := by rw [BitVec.sub_sub]; rfl
  simp only [State.load, State.takeException_mem, Memory.read_write, State.push16_mem, h]

theorem State.load_interruptEntry (s : State) (vec : Addr) (n : Byte) (b : Addr) :
    (s.interruptEntry vec n).load b =
      (s.takeException vec s.pc (statusPushedByInterrupt s.p)).load b :=
  State.load_congr (by simp) b

@[simp] theorem hi8_join16 (hi lo : Byte) : hi8 (join16 hi lo) = hi := by
  refine BitVec.eq_of_toNat_eq ?_
  have h1 := hi.isLt
  have h2 := lo.isLt
  simp only [hi8, join16, BitVec.extractLsb'_toNat, BitVec.toNat_append, ← Nat.shiftLeft_add_eq_or_of_lt h2]
  simp only [Nat.shiftLeft_eq, Nat.shiftRight_eq_div_pow]
  omega

@[simp] theorem lo8_join16 (hi lo : Byte) : lo8 (join16 hi lo) = lo := by
  refine BitVec.eq_of_toNat_eq ?_
  have h1 := hi.isLt
  have h2 := lo.isLt
  simp only [lo8, join16, BitVec.extractLsb'_toNat, BitVec.toNat_append, ← Nat.shiftLeft_add_eq_or_of_lt h2]
  simp only [Nat.shiftLeft_eq, Nat.shiftRight_eq_div_pow]
  omega

theorem hi8_toNat (w : Addr) : (hi8 w).toNat = w.toNat / 256 := by
  have h := w.isLt
  simp only [hi8, BitVec.extractLsb'_toNat, Nat.shiftRight_eq_div_pow]
  omega

theorem lo8_toNat (w : Addr) : (lo8 w).toNat = w.toNat % 256 := by
  simp only [lo8, BitVec.extractLsb'_toNat, Nat.shiftRight_eq_div_pow]
  omega

theorem join16_toNat (hi lo : Byte) : (join16 hi lo).toNat = hi.toNat * 256 + lo.toNat := by
  have h2 := lo.isLt
  rw [join16, BitVec.toNat_append, ← Nat.shiftLeft_add_eq_or_of_lt h2, Nat.shiftLeft_eq]

@[simp] theorem join16_hi8_lo8 (w : Addr) : join16 (hi8 w) (lo8 w) = w := by
  refine BitVec.eq_of_toNat_eq ?_
  rw [join16_toNat, hi8_toNat, lo8_toNat]
  omega

theorem zext16_toNat (v : Byte) : (zext16 v).toNat = v.toNat := by
  have h := v.isLt
  simp [zext16]
  omega

/-- `sext_16(v)`: the signed value of the byte, modulo 65536 (R9). -/
theorem sext16_toInt (v : Byte) : (sext16 v).toInt = v.toInt :=
  BitVec.toInt_signExtend_of_le (by omega)

/-- A pop right after a push gives the byte back and leaves SP as it was (R63). -/
theorem State.pop8_push8 (s : State) (v : Byte) : (s.push8 v).pop8.1 = v := by
  simp [State.load_push8]

/-- Two pushes take SP down by two, three by three. -/
theorem sp_sub_one_sub_one (sp : Byte) : sp - 1 - 1 = sp - 2 := by rw [BitVec.sub_sub]; rfl

theorem sp_sub_three (sp : Byte) : sp - 1 - 1 - 1 = sp - 3 := by
  rw [BitVec.sub_sub, BitVec.sub_sub]; rfl

theorem sp_add_two (sp : Byte) : sp + 1 + 1 = sp + 2 := by rw [BitVec.add_assoc]; rfl

theorem sp_add_three (sp : Byte) : sp + 1 + 1 + 1 = sp + 3 := by
  rw [BitVec.add_assoc, BitVec.add_assoc]; rfl

/-- Three stack slots in a row are three different bytes, wrap included. -/
theorem sp_slots_ne (sp : Byte) : sp - 1 ≠ sp ∧ sp - 2 ≠ sp ∧ sp - 2 ≠ sp - 1 := by
  revert sp; decide

/-- No stack slot is a byte of a vector: the stack is page 1, the vectors are in page 255 (R24, R60). -/
theorem stackSlot_ne_of_large (sp : Byte) {a : Addr} (h : 512 ≤ a.toNat) : stackSlot sp ≠ a := by
  intro e
  have := stackSlot_toNat sp
  have := sp.isLt
  rw [e] at *
  omega

/-- The pushes of an exception entry change no byte outside page 1. -/
theorem State.load_takeException_of_large (s : State) (vec ret : Addr) (st : Byte) {a : Addr}
    (h : 512 ≤ a.toNat) : (s.takeException vec ret st).load a = s.load a := by
  rw [State.load_takeException, if_neg (stackSlot_ne_of_large _ h), if_neg (stackSlot_ne_of_large _ h),
    if_neg (stackSlot_ne_of_large _ h)]

/-- An exception entry loads PC from the vector as memory had it before the entry, for a vector outside
page 1 (R254, R302, R312). -/
theorem State.takeException_pc_of_large (s : State) (vec ret : Addr) (st : Byte)
    (h : 512 ≤ vec.toNat) (h' : 512 ≤ (vec + 1).toNat) :
    (s.takeException vec ret st).pc = s.read16 vec := by
  have e : (s.takeException vec ret st).pc = (s.takeException vec ret st).read16 vec := by
    simp [State.read16, State.load]
  rw [e, State.read16, State.load_takeException_of_large _ _ _ _ h,
    State.load_takeException_of_large _ _ _ _ h', State.read16]

theorem State.interruptEntry_pc_of_large (s : State) (vec : Addr) (n : Byte)
    (h : 512 ≤ vec.toNat) (h' : 512 ≤ (vec + 1).toNat) :
    (s.interruptEntry vec n).pc = s.read16 vec := by
  rw [← s.takeException_pc_of_large vec s.pc (statusPushedByInterrupt s.p) h h']
  simp

end Sys2Proof.Machine
end

