-- ==== Sys2Proof/Laws/Operands.lean ====
section
/-! SUPPORT. The frame of an instruction said once: which state an operation starts from, which operand it
fetches, and the next state of an instruction in terms of the state before it. -/

namespace Sys2Proof.Machine

/-- The state an operation starts from: after the opcode fetch and the resolver (R111, steps 1 to 4). -/
def State.entered (s : State) (i : Instr) : State := (s.beginInstr i.opcode).resolve i.operand

/-- The same after `FetchOperand()` (R146). -/
def State.fetchedBy (s : State) (i : Instr) : State := (s.entered i).fetchOperand i.operand

/-- The cycle total but for the operation's bonus: `base + e1` (R113). -/
def State.cost (s : State) (i : Instr) : Nat := s.params.base i + s.resolveBonus i.operand

theorem State.load_beginInstr' (s : State) (op : Byte) : (s.beginInstr op).load = s.load := rfl

theorem State.indirectTarget_beginInstr (s : State) (op : Byte) (w : Addr) :
    (s.beginInstr op).indirectTarget w = s.indirectTarget w := rfl

theorem State.zeroPagePointer_beginInstr (s : State) (op t : Byte) :
    (s.beginInstr op).zeroPagePointer t = s.zeroPagePointer t := rfl

/-- The resolver sees the same address before and after the opcode fetch, but for IMM, whose operand is at
PC (R133). -/
theorem State.operandAddress_beginInstr (s : State) (op : Byte) (m : Operand) :
    (s.beginInstr op).operandAddress m =
      match m with
      | .imm _ => s.pc + 1
      | m => s.operandAddress m := by
  cases m <;> rfl

theorem State.operandAddress_beginInstr_of_ne (s : State) (op : Byte) {m : Operand}
    (h : ∀ v, m ≠ .imm v) : (s.beginInstr op).operandAddress m = s.operandAddress m := by
  cases m <;> first | rfl | exact absurd rfl (h _)

@[simp] theorem State.resolveBonus_beginInstr (s : State) (op : Byte) (m : Operand) :
    (s.beginInstr op).resolveBonus m = s.resolveBonus m := by cases m <;> rfl

@[simp] theorem State.resolveRel_beginInstr (s : State) (op : Byte) (m : Operand) :
    (s.beginInstr op).resolveRel m = s.resolveRel m := by cases m <;> rfl

/-- What `FetchOperand()` returns is the operand named in the state before the instruction. -/
@[simp] theorem State.fetchedBy_fetched (s : State) (i : Instr) :
    (s.fetchedBy i).fetched = s.operandValue i.operand := by
  unfold State.fetchedBy State.entered
  cases i.operand <;> rfl

@[simp] theorem State.entered_load (s : State) (i : Instr) (b : Addr) :
    (s.entered i).load b = s.load b := rfl

@[simp] theorem State.fetchedBy_load (s : State) (i : Instr) (b : Addr) :
    (s.fetchedBy i).load b = s.load b := by simp [State.fetchedBy]

theorem runInstr_eq (i : Instr) (f : State → State × Nat) (s : State) :
    runInstr i f s = .next ((f (s.entered i)).1.finishInstr (s.cost i + (f (s.entered i)).2)) := by
  simp [runInstr, State.entered, State.cost]

/-- An instruction without operand and bonus. -/
theorem runPlain_eq (i : Instr) (f : State → State) (s : State) :
    runPlain i f s = .next ((f (s.entered i)).finishInstr (s.cost i)) := by
  rw [runPlain, runInstr_eq]; rfl

/-- An instruction that fetches its operand. -/
theorem runFetched_eq (i : Instr) (f : Byte → State → State) (s : State) :
    runFetched i f s =
      .next ((f (s.operandValue i.operand) (s.fetchedBy i)).finishInstr (s.cost i)) := by
  rw [runFetched, runInstr_eq]
  simp only [noBonus, Nat.add_zero]
  change Host.Outcome.next (State.finishInstr (f (s.fetchedBy i).fetched (s.fetchedBy i)) _) = _
  rw [State.fetchedBy_fetched]

@[simp] theorem State.entered_a (s : State) (i : Instr) :
    (s.entered i).a = s.a := by simp [State.entered]
@[simp] theorem State.entered_x (s : State) (i : Instr) :
    (s.entered i).x = s.x := by simp [State.entered]
@[simp] theorem State.entered_y (s : State) (i : Instr) :
    (s.entered i).y = s.y := by simp [State.entered]
@[simp] theorem State.entered_sp (s : State) (i : Instr) :
    (s.entered i).sp = s.sp := by simp [State.entered]
@[simp] theorem State.entered_p (s : State) (i : Instr) :
    (s.entered i).p = setFlag s.p .U true := by simp [State.entered]
@[simp] theorem State.entered_pc (s : State) (i : Instr) :
    (s.entered i).pc = s.pc + BitVec.ofNat 16 i.length := by
  simp only [State.entered, State.resolve_pc, State.beginInstr_pc, Instr.length, BitVec.add_assoc]
  congr 1
  rw [BitVec.ofNat_add]
  rfl
@[simp] theorem State.entered_opcode (s : State) (i : Instr) :
    (s.entered i).opcode = i.opcode := by simp [State.entered]
@[simp] theorem State.entered_addrRel (s : State) (i : Instr) :
    (s.entered i).addrRel = s.resolveRel i.operand := by simp [State.entered]
@[simp] theorem State.entered_isImplied (s : State) (i : Instr) :
    (s.entered i).isImplied = decide (i.operand = .imp) := by simp [State.entered]
@[simp] theorem State.entered_cyclesRemaining (s : State) (i : Instr) :
    (s.entered i).cyclesRemaining = s.cyclesRemaining := by simp [State.entered]
@[simp] theorem State.entered_mem (s : State) (i : Instr) :
    (s.entered i).mem = s.mem := by simp [State.entered]
@[simp] theorem State.entered_params (s : State) (i : Instr) :
    (s.entered i).params = s.params := by simp [State.entered]
@[simp] theorem State.entered_resetSeen (s : State) (i : Instr) :
    (s.entered i).resetSeen = s.resetSeen := by simp [State.entered]
@[simp] theorem State.entered_hostEvents (s : State) (i : Instr) :
    (s.entered i).hostEvents = s.hostEvents := by simp [State.entered]

@[simp] theorem State.fetchedBy_a (s : State) (i : Instr) :
    (s.fetchedBy i).a = s.a := by simp [State.fetchedBy, State.entered]
@[simp] theorem State.fetchedBy_x (s : State) (i : Instr) :
    (s.fetchedBy i).x = s.x := by simp [State.fetchedBy, State.entered]
@[simp] theorem State.fetchedBy_y (s : State) (i : Instr) :
    (s.fetchedBy i).y = s.y := by simp [State.fetchedBy, State.entered]
@[simp] theorem State.fetchedBy_sp (s : State) (i : Instr) :
    (s.fetchedBy i).sp = s.sp := by simp [State.fetchedBy, State.entered]
@[simp] theorem State.fetchedBy_p (s : State) (i : Instr) :
    (s.fetchedBy i).p = setFlag s.p .U true := by simp [State.fetchedBy, State.entered]
@[simp] theorem State.fetchedBy_pc (s : State) (i : Instr) :
    (s.fetchedBy i).pc = s.pc + BitVec.ofNat 16 i.length := by
  simp only [State.fetchedBy, State.entered, State.fetchOperand_pc, State.resolve_pc, State.beginInstr_pc, Instr.length, BitVec.add_assoc]
  congr 1
  rw [BitVec.ofNat_add]
  rfl
@[simp] theorem State.fetchedBy_opcode (s : State) (i : Instr) :
    (s.fetchedBy i).opcode = i.opcode := by simp [State.fetchedBy, State.entered]
@[simp] theorem State.fetchedBy_addrRel (s : State) (i : Instr) :
    (s.fetchedBy i).addrRel = s.resolveRel i.operand := by simp [State.fetchedBy, State.entered]
@[simp] theorem State.fetchedBy_isImplied (s : State) (i : Instr) :
    (s.fetchedBy i).isImplied = decide (i.operand = .imp) := by simp [State.fetchedBy, State.entered]
@[simp] theorem State.fetchedBy_cyclesRemaining (s : State) (i : Instr) :
    (s.fetchedBy i).cyclesRemaining = s.cyclesRemaining := by simp [State.fetchedBy, State.entered]
@[simp] theorem State.fetchedBy_mem (s : State) (i : Instr) :
    (s.fetchedBy i).mem = s.mem := by simp [State.fetchedBy, State.entered]
@[simp] theorem State.fetchedBy_params (s : State) (i : Instr) :
    (s.fetchedBy i).params = s.params := by simp [State.fetchedBy, State.entered]
@[simp] theorem State.fetchedBy_resetSeen (s : State) (i : Instr) :
    (s.fetchedBy i).resetSeen = s.resetSeen := by simp [State.fetchedBy, State.entered]
@[simp] theorem State.fetchedBy_hostEvents (s : State) (i : Instr) :
    (s.fetchedBy i).hostEvents = s.hostEvents := by simp [State.fetchedBy, State.entered]

/-- `addr_abs` when the operation starts, for every mode but IMM. -/
theorem State.entered_addrAbs (s : State) (i : Instr) (h : ∀ v, i.operand ≠ .imm v) :
    (s.entered i).addrAbs = s.operandAddress i.operand := s.operandAddress_beginInstr_of_ne _ h

theorem State.fetchedBy_addrAbs (s : State) (i : Instr) (h : ∀ v, i.operand ≠ .imm v) :
    (s.fetchedBy i).addrAbs = s.operandAddress i.operand := by
  simp [State.fetchedBy, State.entered_addrAbs s i h]

/-! ## The address arithmetic of the resolvers -/

theorem zext16_eq_ofNat (v : Byte) : zext16 v = BitVec.ofNat 16 v.toNat := by
  refine BitVec.eq_of_toNat_eq ?_
  have := v.isLt
  simp [zext16]

theorem join16_eq_ofNat (hi lo : Byte) : join16 hi lo = BitVec.ofNat 16 (hi.toNat * 256 + lo.toNat) := by
  refine BitVec.eq_of_toNat_eq ?_
  have := hi.isLt
  have := lo.isLt
  rw [join16_toNat, BitVec.toNat_ofNat, Nat.mod_eq_of_lt (by omega)]

theorem and_FF00_toNat (w : Addr) : (w &&& 0xFF00).toNat = w.toNat / 256 * 256 := by
  have h : w &&& 0xFF00#16 = (w >>> 8) <<< 8 := by
    refine BitVec.eq_of_getLsbD_eq fun k hk => ?_
    interval_cases k <;> simp
  have := w.isLt
  change (w &&& 0xFF00#16).toNat = _
  rw [h]
  simp [Nat.shiftLeft_eq, Nat.shiftRight_eq_div_pow]
  omega

/-- The second byte of an absolute-indirect pointer, in one expression: the next address in the same page
(R140). -/
theorem indirectHigh_eq (w : Addr) :
    (if lo8 w = 0xFF then w &&& 0xFF00 else w + 1) = (w &&& 0xFF00) ||| ((w + 1) &&& 0x00FF) := by
  have h2 : ((w + 1) &&& 0x00FF).toNat = (w.toNat + 1) % 256 := by
    have := Nat.and_two_pow_sub_one_eq_mod (w + 1).toNat 8
    simp at this ⊢
    exact this
  have h3 := and_FF00_toNat w
  have h4 : ((w &&& 0xFF00) ||| ((w + 1) &&& 0x00FF)).toNat =
      w.toNat / 256 * 256 + (w.toNat + 1) % 256 := by
    have := Nat.shiftLeft_add_eq_or_of_lt (i := 8) (show (w.toNat + 1) % 256 < 2 ^ 8 by omega)
      (w.toNat / 256)
    rw [Nat.shiftLeft_eq] at this
    rw [BitVec.toNat_or, h2, h3]
    exact this.symm
  have hw := w.isLt
  have he : lo8 w = 0xFF ↔ w.toNat % 256 = 255 := by rw [← BitVec.toNat_inj, lo8_toNat]; rfl
  refine BitVec.eq_of_toNat_eq ?_
  rw [h4]
  simp only [he]
  split
  · rw [h3]; omega
  · simp; omega

theorem State.indirectTarget_eq (s : State) (w : Addr) :
    s.indirectTarget w = join16 (s.load ((w &&& 0xFF00) ||| ((w + 1) &&& 0x00FF))) (s.load w) := by
  rw [← indirectHigh_eq]
  unfold State.indirectTarget
  simp only
  split <;> rfl

/-- The page-cross bonus as arithmetic (R144). -/
theorem crossBonus_eq (base sum : Addr) :
    crossBonus base sum = if base.toNat / 256 = sum.toNat / 256 then 0 else 1 := by
  unfold crossBonus
  simp only [ne_eq, ← BitVec.toNat_inj, hi8_toNat]
  by_cases h : base.toNat / 256 = sum.toNat / 256
  · rw [if_neg (fun e => e h.symm), if_pos h]
  · rw [if_pos (fun e => h e.symm), if_neg h]

theorem State.resolveBonus_le (s : State) (m : Operand) : s.resolveBonus m ≤ 1 := by
  cases m <;> simp [State.resolveBonus, crossBonus] <;> split <;> omega

/-- A base count is at most 7 (R8). -/
theorem Params.base_lt (ps : Params) (i : Instr) : ps.base i < 8 := by
  have h1 : ∀ op : Byte, defaultBaseCycles op < 8 := by decide +kernel
  have h2 : ∀ op, ps.baseCycles op < 8 := by
    intro op
    unfold Params.baseCycles
    split
    · exact Fin.isLt _
    · split
      · omega
      · exact h1 op
  cases i <;> first | exact h2 _ | exact Nat.zero_lt_succ _

/-! ## The modes of the instructions that write memory have no immediate form -/

theorem ShiftMode.toOperand_ne_imm (m : ShiftMode) (v : Byte) : m.toOperand ≠ .imm v := by
  cases m <;> simp [ShiftMode.toOperand]

theorem MemMode.toOperand_ne_imm (m : MemMode) (v : Byte) : m.toOperand ≠ .imm v := by
  cases m <;> simp [MemMode.toOperand]

theorem StaMode.toOperand_ne_imm (m : StaMode) (v : Byte) : m.toOperand ≠ .imm v := by
  cases m <;> simp [StaMode.toOperand]

theorem StxMode.toOperand_ne_imm (m : StxMode) (v : Byte) : m.toOperand ≠ .imm v := by
  cases m <;> simp [StxMode.toOperand]

theorem StyMode.toOperand_ne_imm (m : StyMode) (v : Byte) : m.toOperand ≠ .imm v := by
  cases m <;> simp [StyMode.toOperand]

/-- The operand of a read-modify-write in memory is the byte at the resolved address. -/
theorem MemMode.operandValue_eq (m : MemMode) (s : State) :
    s.operandValue m.toOperand = s.load (s.operandAddress m.toOperand) := by
  cases m <;> rfl

/-! ## Branches -/

/-- A branch not taken changes nothing and owes no cycle (R240). -/
theorem branch_not_taken {c : State → Bool} {s : State} (h : c s = false) : branch c s = (s, 0) := by
  simp [branch, h]

/-- A taken branch loads PC and `addr_abs` with the target (R240). -/
theorem branch_taken {c : State → Bool} {s : State} (h : c s = true) :
    branch c s = ({ s with addrAbs := s.pc + s.addrRel, pc := s.pc + s.addrRel },
      branchBonus s.pc (s.pc + s.addrRel)) := by
  simp [branch, h]

@[simp] theorem branch_mem (c : State → Bool) (s : State) : (branch c s).1.mem = s.mem := by
  unfold branch
  split <;> rfl

end Sys2Proof.Machine
end

