-- ==== Sys2Proof/Laws/Exec.lean ====
section
/-! SUPPORT. The next state of each instruction in terms of the state before it, one equation for each
constructor: what is left of the frame is the state the operation starts from (`entered`, `fetchedBy`), the
operand and the cost. -/

namespace Sys2Proof.Machine

theorem exec_adc (m : ReadMode) (s : State) : exec (.adc m) s =
    .next (State.finishInstr
      (addWithCarry (s.operandValue m.toOperand) (s.fetchedBy (.adc m)))
      (s.cost (.adc m))) :=
  runFetched_eq (.adc m) addWithCarry s

theorem exec_sbc (m : ReadMode) (s : State) : exec (.sbc m) s =
    .next (State.finishInstr
      (addWithCarry (s.operandValue m.toOperand ^^^ 0xFF) (s.fetchedBy (.sbc m)))
      (s.cost (.sbc m))) :=
  runFetched_eq (.sbc m) (fun v => addWithCarry (v ^^^ 0xFF)) s

theorem exec_and (m : ReadMode) (s : State) : exec (.and m) s =
    .next (State.finishInstr
      (loadA ((s.fetchedBy (.and m)).a &&& (s.operandValue m.toOperand)) (s.fetchedBy (.and m)))
      (s.cost (.and m))) :=
  runFetched_eq (.and m) (fun v t => loadA (t.a &&& v) t) s

theorem exec_ora (m : ReadMode) (s : State) : exec (.ora m) s =
    .next (State.finishInstr
      (loadA ((s.fetchedBy (.ora m)).a ||| (s.operandValue m.toOperand)) (s.fetchedBy (.ora m)))
      (s.cost (.ora m))) :=
  runFetched_eq (.ora m) (fun v t => loadA (t.a ||| v) t) s

theorem exec_eor (m : ReadMode) (s : State) : exec (.eor m) s =
    .next (State.finishInstr
      (loadA ((s.fetchedBy (.eor m)).a ^^^ (s.operandValue m.toOperand)) (s.fetchedBy (.eor m)))
      (s.cost (.eor m))) :=
  runFetched_eq (.eor m) (fun v t => loadA (t.a ^^^ v) t) s

theorem exec_asl (m : ShiftMode) (s : State) : exec (.asl m) s =
    .next (State.finishInstr
      (shiftEffect (aslResult (s.operandValue m.toOperand)) (s.fetchedBy (.asl m)))
      (s.cost (.asl m))) :=
  runFetched_eq (.asl m) (fun v => shiftEffect (aslResult v)) s

theorem exec_lsr (m : ShiftMode) (s : State) : exec (.lsr m) s =
    .next (State.finishInstr
      (shiftEffect (lsrResult (s.operandValue m.toOperand)) (s.fetchedBy (.lsr m)))
      (s.cost (.lsr m))) :=
  runFetched_eq (.lsr m) (fun v => shiftEffect (lsrResult v)) s

theorem exec_rol (m : ShiftMode) (s : State) : exec (.rol m) s =
    .next (State.finishInstr
      (shiftEffect (rolResult (getFlag (s.fetchedBy (.rol m)).p .C) (s.operandValue m.toOperand))
        (s.fetchedBy (.rol m)))
      (s.cost (.rol m))) :=
  runFetched_eq (.rol m) (fun v t => shiftEffect (rolResult (getFlag t.p .C) v) t) s

theorem exec_ror (m : ShiftMode) (s : State) : exec (.ror m) s =
    .next (State.finishInstr
      (shiftEffect (rorResult (getFlag (s.fetchedBy (.ror m)).p .C) (s.operandValue m.toOperand))
        (s.fetchedBy (.ror m)))
      (s.cost (.ror m))) :=
  runFetched_eq (.ror m) (fun v t => shiftEffect (rorResult (getFlag t.p .C) v) t) s

theorem exec_cmp (m : ReadMode) (s : State) : exec (.cmp m) s =
    .next (State.finishInstr
      ({ s.fetchedBy (.cmp m) with
        p := compareFlags (s.fetchedBy (.cmp m)).p (s.fetchedBy (.cmp m)).a (s.operandValue m.toOperand) })
      (s.cost (.cmp m))) :=
  runFetched_eq (.cmp m) (fun v t => { t with p := compareFlags t.p t.a v }) s

theorem exec_cpx (m : CpMode) (s : State) : exec (.cpx m) s =
    .next (State.finishInstr
      ({ s.fetchedBy (.cpx m) with
        p := compareFlags (s.fetchedBy (.cpx m)).p (s.fetchedBy (.cpx m)).x (s.operandValue m.toOperand) })
      (s.cost (.cpx m))) :=
  runFetched_eq (.cpx m) (fun v t => { t with p := compareFlags t.p t.x v }) s

theorem exec_cpy (m : CpMode) (s : State) : exec (.cpy m) s =
    .next (State.finishInstr
      ({ s.fetchedBy (.cpy m) with
        p := compareFlags (s.fetchedBy (.cpy m)).p (s.fetchedBy (.cpy m)).y (s.operandValue m.toOperand) })
      (s.cost (.cpy m))) :=
  runFetched_eq (.cpy m) (fun v t => { t with p := compareFlags t.p t.y v }) s

theorem exec_inc (m : MemMode) (s : State) : exec (.inc m) s =
    .next (State.finishInstr
      (storeZN (s.operandValue m.toOperand + 1) (s.fetchedBy (.inc m)))
      (s.cost (.inc m))) :=
  runFetched_eq (.inc m) (fun v => storeZN (v + 1)) s

theorem exec_dec (m : MemMode) (s : State) : exec (.dec m) s =
    .next (State.finishInstr
      (storeZN ((s.operandValue m.toOperand) - 1) (s.fetchedBy (.dec m)))
      (s.cost (.dec m))) :=
  runFetched_eq (.dec m) (fun v => storeZN (v - 1)) s

theorem exec_inx (s : State) : exec .inx s =
    .next (State.finishInstr (loadX ((s.entered .inx).x + 1) (s.entered .inx)) (s.cost .inx)) :=
  runPlain_eq .inx (fun t => loadX (t.x + 1) t) s

theorem exec_iny (s : State) : exec .iny s =
    .next (State.finishInstr (loadY ((s.entered .iny).y + 1) (s.entered .iny)) (s.cost .iny)) :=
  runPlain_eq .iny (fun t => loadY (t.y + 1) t) s

theorem exec_dex (s : State) : exec .dex s =
    .next (State.finishInstr (loadX ((s.entered .dex).x - 1) (s.entered .dex)) (s.cost .dex)) :=
  runPlain_eq .dex (fun t => loadX (t.x - 1) t) s

theorem exec_dey (s : State) : exec .dey s =
    .next (State.finishInstr (loadY ((s.entered .dey).y - 1) (s.entered .dey)) (s.cost .dey)) :=
  runPlain_eq .dey (fun t => loadY (t.y - 1) t) s

theorem exec_lda (m : ReadMode) (s : State) : exec (.lda m) s =
    .next (State.finishInstr
      (loadA (s.operandValue m.toOperand) (s.fetchedBy (.lda m)))
      (s.cost (.lda m))) :=
  runFetched_eq (.lda m) loadA s

theorem exec_ldx (m : LdxMode) (s : State) : exec (.ldx m) s =
    .next (State.finishInstr
      (loadX (s.operandValue m.toOperand) (s.fetchedBy (.ldx m)))
      (s.cost (.ldx m))) :=
  runFetched_eq (.ldx m) loadX s

theorem exec_ldy (m : LdyMode) (s : State) : exec (.ldy m) s =
    .next (State.finishInstr
      (loadY (s.operandValue m.toOperand) (s.fetchedBy (.ldy m)))
      (s.cost (.ldy m))) :=
  runFetched_eq (.ldy m) loadY s

theorem exec_sta (m : StaMode) (s : State) : exec (.sta m) s =
    .next (State.finishInstr
      ((s.entered (.sta m)).store (s.entered (.sta m)).addrAbs (s.entered (.sta m)).a)
      (s.cost (.sta m))) :=
  runPlain_eq (.sta m) (fun t => t.store t.addrAbs t.a) s

theorem exec_stx (m : StxMode) (s : State) : exec (.stx m) s =
    .next (State.finishInstr
      ((s.entered (.stx m)).store (s.entered (.stx m)).addrAbs (s.entered (.stx m)).x)
      (s.cost (.stx m))) :=
  runPlain_eq (.stx m) (fun t => t.store t.addrAbs t.x) s

theorem exec_sty (m : StyMode) (s : State) : exec (.sty m) s =
    .next (State.finishInstr
      ((s.entered (.sty m)).store (s.entered (.sty m)).addrAbs (s.entered (.sty m)).y)
      (s.cost (.sty m))) :=
  runPlain_eq (.sty m) (fun t => t.store t.addrAbs t.y) s

theorem exec_tax (s : State) : exec .tax s =
    .next (State.finishInstr (loadX (s.entered .tax).a (s.entered .tax)) (s.cost .tax)) :=
  runPlain_eq .tax (fun t => loadX t.a t) s

theorem exec_txa (s : State) : exec .txa s =
    .next (State.finishInstr (loadA (s.entered .txa).x (s.entered .txa)) (s.cost .txa)) :=
  runPlain_eq .txa (fun t => loadA t.x t) s

theorem exec_tay (s : State) : exec .tay s =
    .next (State.finishInstr (loadY (s.entered .tay).a (s.entered .tay)) (s.cost .tay)) :=
  runPlain_eq .tay (fun t => loadY t.a t) s

theorem exec_tya (s : State) : exec .tya s =
    .next (State.finishInstr (loadA (s.entered .tya).y (s.entered .tya)) (s.cost .tya)) :=
  runPlain_eq .tya (fun t => loadA t.y t) s

theorem exec_tsx (s : State) : exec .tsx s =
    .next (State.finishInstr (loadX (s.entered .tsx).sp (s.entered .tsx)) (s.cost .tsx)) :=
  runPlain_eq .tsx (fun t => loadX t.sp t) s

theorem exec_txs (s : State) : exec .txs s =
    .next (State.finishInstr ({ s.entered .txs with sp := (s.entered .txs).x }) (s.cost .txs)) :=
  runPlain_eq .txs (fun t => { t with sp := t.x }) s

theorem exec_pha (s : State) : exec .pha s =
    .next (State.finishInstr ((s.entered .pha).push8 (s.entered .pha).a) (s.cost .pha)) :=
  runPlain_eq .pha (fun t => t.push8 t.a) s

theorem exec_pla (s : State) : exec .pla s =
    .next (State.finishInstr (loadA (s.entered .pla).pop8.1 (s.entered .pla).pop8.2) (s.cost .pla)) :=
  runPlain_eq .pla (fun t => loadA t.pop8.1 t.pop8.2) s

theorem exec_php (s : State) : exec .php s =
    .next (State.finishInstr
      ((s.entered .php).push8 (statusPushedByInstruction (s.entered .php).p))
      (s.cost .php)) :=
  runPlain_eq .php (fun t => t.push8 (statusPushedByInstruction t.p)) s

theorem exec_plp (s : State) : exec .plp s =
    .next (State.finishInstr
      ({ (s.entered .plp).pop8.2 with p := statusPulled (s.entered .plp).pop8.1 })
      (s.cost .plp)) :=
  runPlain_eq .plp (fun t => { t.pop8.2 with p := statusPulled t.pop8.1 }) s

theorem exec_bcc (d : Byte) (s : State) : exec (.bcc d) s =
    .next (State.finishInstr
      (branch (fun t => !getFlag t.p .C) (s.entered (.bcc d))).1 (s.cost (.bcc d) + (branch (fun t =>
        !getFlag t.p .C) (s.entered (.bcc d))).2)) :=
  runInstr_eq (.bcc d) (branch fun t => !getFlag t.p .C) s

theorem exec_bcs (d : Byte) (s : State) : exec (.bcs d) s =
    .next (State.finishInstr
      (branch (fun t => getFlag t.p .C) (s.entered (.bcs d))).1 (s.cost (.bcs d) + (branch (fun t => getFlag
        t.p .C) (s.entered (.bcs d))).2)) :=
  runInstr_eq (.bcs d) (branch fun t => getFlag t.p .C) s

theorem exec_beq (d : Byte) (s : State) : exec (.beq d) s =
    .next (State.finishInstr
      (branch (fun t => getFlag t.p .Z) (s.entered (.beq d))).1 (s.cost (.beq d) + (branch (fun t => getFlag
        t.p .Z) (s.entered (.beq d))).2)) :=
  runInstr_eq (.beq d) (branch fun t => getFlag t.p .Z) s

theorem exec_bne (d : Byte) (s : State) : exec (.bne d) s =
    .next (State.finishInstr
      (branch (fun t => !getFlag t.p .Z) (s.entered (.bne d))).1 (s.cost (.bne d) + (branch (fun t =>
        !getFlag t.p .Z) (s.entered (.bne d))).2)) :=
  runInstr_eq (.bne d) (branch fun t => !getFlag t.p .Z) s

theorem exec_bmi (d : Byte) (s : State) : exec (.bmi d) s =
    .next (State.finishInstr
      (branch (fun t => getFlag t.p .N) (s.entered (.bmi d))).1 (s.cost (.bmi d) + (branch (fun t => getFlag
        t.p .N) (s.entered (.bmi d))).2)) :=
  runInstr_eq (.bmi d) (branch fun t => getFlag t.p .N) s

theorem exec_bpl (d : Byte) (s : State) : exec (.bpl d) s =
    .next (State.finishInstr
      (branch (fun t => !getFlag t.p .N) (s.entered (.bpl d))).1 (s.cost (.bpl d) + (branch (fun t =>
        !getFlag t.p .N) (s.entered (.bpl d))).2)) :=
  runInstr_eq (.bpl d) (branch fun t => !getFlag t.p .N) s

theorem exec_bvc (d : Byte) (s : State) : exec (.bvc d) s =
    .next (State.finishInstr
      (branch (fun t => !getFlag t.p .V) (s.entered (.bvc d))).1 (s.cost (.bvc d) + (branch (fun t =>
        !getFlag t.p .V) (s.entered (.bvc d))).2)) :=
  runInstr_eq (.bvc d) (branch fun t => !getFlag t.p .V) s

theorem exec_bvs (d : Byte) (s : State) : exec (.bvs d) s =
    .next (State.finishInstr
      (branch (fun t => getFlag t.p .V) (s.entered (.bvs d))).1 (s.cost (.bvs d) + (branch (fun t => getFlag
        t.p .V) (s.entered (.bvs d))).2)) :=
  runInstr_eq (.bvs d) (branch fun t => getFlag t.p .V) s

theorem exec_jmp (m : JmpMode) (s : State) : exec (.jmp m) s =
    .next (State.finishInstr
      ({ s.entered (.jmp m) with pc := (s.entered (.jmp m)).addrAbs })
      (s.cost (.jmp m))) :=
  runPlain_eq (.jmp m) (fun t => { t with pc := t.addrAbs }) s

theorem exec_jsr (w : Addr) (s : State) : exec (.jsr w) s =
    .next (State.finishInstr
      ({ (s.entered (.jsr w)).push16 ((s.entered (.jsr w)).pc - 1) with pc := (s.entered (.jsr w)).addrAbs })
      (s.cost (.jsr w))) :=
  runPlain_eq (.jsr w) (fun t => { t.push16 (t.pc - 1) with pc := t.addrAbs }) s

theorem exec_rts (s : State) : exec .rts s =
    .next (State.finishInstr
      ({ (s.entered .rts).pop16.2 with pc := (s.entered .rts).pop16.1 + 1 })
      (s.cost .rts)) :=
  runPlain_eq .rts (fun t => { t.pop16.2 with pc := t.pop16.1 + 1 }) s

theorem exec_brk (s : State) : exec .brk s =
    .next (State.finishInstr
      ((s.entered .brk).takeException irqVector ((s.entered .brk).pc + 1) (statusPushedByInstruction
        (s.entered .brk).p))
      (s.cost .brk)) :=
  runPlain_eq .brk (fun t => t.takeException irqVector (t.pc + 1) (statusPushedByInstruction t.p)) s

theorem exec_rti (s : State) : exec .rti s =
    .next (State.finishInstr (State.returnFromException (s.entered .rti)) (s.cost .rti)) :=
  runPlain_eq .rti State.returnFromException s

theorem exec_sec (s : State) : exec .sec s =
    .next (State.finishInstr (writeFlag .C true (s.entered .sec)) (s.cost .sec)) :=
  runPlain_eq .sec (writeFlag .C true) s

theorem exec_clc (s : State) : exec .clc s =
    .next (State.finishInstr (writeFlag .C false (s.entered .clc)) (s.cost .clc)) :=
  runPlain_eq .clc (writeFlag .C false) s

theorem exec_sei (s : State) : exec .sei s =
    .next (State.finishInstr (writeFlag .I true (s.entered .sei)) (s.cost .sei)) :=
  runPlain_eq .sei (writeFlag .I true) s

theorem exec_cli (s : State) : exec .cli s =
    .next (State.finishInstr (writeFlag .I false (s.entered .cli)) (s.cost .cli)) :=
  runPlain_eq .cli (writeFlag .I false) s

theorem exec_sed (s : State) : exec .sed s =
    .next (State.finishInstr (writeFlag .D true (s.entered .sed)) (s.cost .sed)) :=
  runPlain_eq .sed (writeFlag .D true) s

theorem exec_cld (s : State) : exec .cld s =
    .next (State.finishInstr (writeFlag .D false (s.entered .cld)) (s.cost .cld)) :=
  runPlain_eq .cld (writeFlag .D false) s

theorem exec_clv (s : State) : exec .clv s =
    .next (State.finishInstr (writeFlag .V false (s.entered .clv)) (s.cost .clv)) :=
  runPlain_eq .clv (writeFlag .V false) s

theorem exec_bit (m : BitMode) (s : State) : exec (.bit m) s =
    .next (State.finishInstr
      ({ s.fetchedBy (.bit m) with
        p := bitFlags (s.fetchedBy (.bit m)).p (s.fetchedBy (.bit m)).a (s.operandValue m.toOperand) })
      (s.cost (.bit m))) :=
  runFetched_eq (.bit m) (fun v t => { t with p := bitFlags t.p t.a v }) s

theorem exec_nop (m : NopMode) (s : State) : exec (.nop m) s =
    .next (State.finishInstr (s.entered (.nop m)) (s.cost (.nop m) + if m = .imp then 0 else 1)) :=
  by cases m <;> exact runInstr_eq _ (fun t => (t, if t.isImplied then 0 else 1)) s

theorem exec_xxx (op : Byte) (s : State) : exec (.xxx op) s =
    .next (State.finishInstr (s.entered (.xxx op)) (s.cost (.xxx op))) :=
  runPlain_eq (.xxx op) (fun t => t) s

end Sys2Proof.Machine
end

