-- ==== Sys2Proof/Laws/Bus.lean ====
section
/-! SUPPORT. The laws of `replay` (spec/20_memory.md R65). -/

namespace Sys2Proof.Machine

@[simp] theorem replay_nil (m : Memory) : replay m [] = some m := rfl

@[simp] theorem replay_write (m : Memory) (a : Addr) (v : Byte) (l : List BusCycle) :
    replay m (.write a v :: l) = replay (Memory.write m a v) l := rfl

/-- A read of the byte memory holds changes nothing. -/
theorem replay_read {m : Memory} {a : Addr} {v : Byte} (h : Memory.read m a = v) (l : List BusCycle) :
    replay m (.read a v :: l) = replay m l := if_pos h

@[simp] theorem replay_readCycle (s : State) (a : Addr) (l : List BusCycle) :
    replay s.mem (s.readCycle a :: l) = replay s.mem l := replay_read rfl l

/-- Two lists of transactions, one after the other. -/
theorem replay_append {m n : Memory} {l : List BusCycle} (h : replay m l = some n) (l' : List BusCycle) :
    replay m (l ++ l') = replay n l' := by
  induction l generalizing m with
  | nil => simp only [replay_nil, Option.some.injEq] at h; rw [h]; rfl
  | cons c l ih =>
    cases c with
    | read a v =>
      simp only [replay] at h
      split at h
      · rw [List.cons_append, replay_read ‹_›, ih h]
      · cases h
    | write a v => exact ih (m := Memory.write m a v) h

/-- The operand bytes of `m` lie in memory after the opcode at PC. -/
def State.holdsOperand (s : State) : Operand → Prop
  | .imp => True
  | .imm b | .zp0 b | .zpx b | .zpy b | .rel b | .izx b | .izy b => s.load (s.pc + 1) = b
  | .abs w | .abx w | .aby w | .ind w => s.load (s.pc + 1) = lo8 w ∧ s.load (s.pc + 2) = hi8 w

/-- The resolver only reads. -/
theorem replay_resolverBus {s : State} {m : Operand} (h : s.holdsOperand m) :
    replay s.mem (s.resolverBus m) = some s.mem := by
  cases m with
  | imp | imm v => rfl
  | zp0 b | zpx b | zpy b | rel b => exact replay_read h []
  | abs w | abx w | aby w => exact (replay_read h.1 _).trans (replay_read h.2 [])
  | ind w =>
    refine (replay_read h.1 _).trans ((replay_read h.2 _).trans ?_)
    simp
  | izx b | izy b =>
    refine (replay_read h _).trans ?_
    simp

/-- Fetching an operand only reads. -/
theorem replay_fetchBus {s : State} {m : Operand} (h : s.holdsOperand m) :
    replay s.mem (s.fetchBus m) = some s.mem := by
  cases m with
  | imp => rfl
  | imm v => exact replay_read h []
  | _ => exact replay_read rfl []

/-- The transactions of an exception entry give the memory of the entry. -/
theorem replay_exceptionBus (s : State) (vec ret : Addr) (st : Byte) (h : 512 ≤ vec.toNat)
    (h' : 512 ≤ (vec + 1).toNat) :
    replay s.mem (s.exceptionBus vec ret st) = some (s.takeException vec ret st).mem := by
  have e1 := s.load_takeException_of_large vec ret st h
  have e2 := s.load_takeException_of_large vec ret st h'
  simp only [State.exceptionBus, push16Bus, List.cons_append, List.nil_append, replay_write,
    State.readCycle]
  have hm : Memory.write (Memory.write (Memory.write s.mem (stackSlot s.sp) (hi8 ret))
      (stackSlot (s.sp - 1)) (lo8 ret)) (stackSlot (s.sp - 2)) st = (s.takeException vec ret st).mem := by
    rw [State.takeException_mem, sp_sub_one_sub_one, State.push16_mem]
  rw [hm, replay_read e1, replay_read e2, replay_nil]

end Sys2Proof.Machine
end

