-- ==== Sys2Proof/Laws/Decode.lean ====
section
/-! SUPPORT. The laws of the decode table (spec/30_encoding.md R80, R87, R88, R90): which bytes have an entry,
and what every entry builds. -/

namespace Sys2Proof

open Sys2Proof.Machine

/-- A set of bytes as a number with one bit for each. -/
def byteMask (l : List Byte) : Nat := l.foldr (fun b acc => 2 ^ b.toNat ||| acc) 0

theorem byteMask_testBit (l : List Byte) (b : Byte) : (byteMask l).testBit b.toNat = l.contains b := by
  induction l with
  | nil => simp [byteMask]
  | cons c l ih =>
    have h : byteMask (c :: l) = 2 ^ c.toNat ||| byteMask l := rfl
    rw [h, Nat.testBit_or, ih, Nat.testBit_two_pow, List.contains_cons]
    congr 1
    rw [Bool.eq_iff_iff, decide_eq_true_eq, beq_iff_eq, ← BitVec.toNat_inj, eq_comm]

/-- The documented opcode bytes and the bytes R90 lists share none and together are all 256. -/
theorem byteMask_rows :
    byteMask (documentedRows.map Row.opcode) ^^^ byteMask undocumentedBytes = 2 ^ 256 - 1 := by
  decide +kernel

/-- The bytes without a documented entry are exactly those R90 lists. -/
theorem documentedRows_find_isNone (op : Byte) :
    (documentedRows.find? (fun r => r.opcode == op)).isNone = undocumentedBytes.contains op := by
  have h := congrArg (fun n => n.testBit op.toNat) byteMask_rows
  simp only [Nat.testBit_xor, byteMask_testBit, Nat.testBit_two_pow_sub_one] at h
  have hlt : op.toNat < 256 := op.isLt
  have he : (documentedRows.find? (fun r => r.opcode == op)).isNone =
      !(documentedRows.map Row.opcode).contains op := by
    rw [Bool.eq_iff_iff]
    simp
  rw [he]
  simp only [hlt, decide_true] at h
  revert h
  cases (documentedRows.map Row.opcode).contains op <;> cases undocumentedBytes.contains op <;> simp

/-- No two documented entries have the same opcode byte. -/
theorem documentedRows_nodup : (documentedRows.map Row.opcode).Nodup := by decide +kernel

/-- A byte of R90 decodes to a NOP variant or to XXX (R87). -/
theorem decodeBytes_undocumented {op : Byte} (h : undocumentedBytes.contains op = true) (nv : List Byte)
    (b1 b2 : Byte) :
    decodeBytes nv op b1 b2 = if nv.contains op then .nop (.variant op b1) else .xxx op := by
  rw [← documentedRows_find_isNone, Option.isNone_iff_eq_none] at h
  simp only [decodeBytes, h]

/-- A byte outside R90 decodes to what one of the documented entries builds (R87). -/
theorem decodeBytes_documented {op : Byte} (h : undocumentedBytes.contains op = false) (nv : List Byte)
    (b1 b2 : Byte) :
    ∃ r ∈ documentedRows, r.opcode = op ∧ decodeBytes nv op b1 b2 = r.build b1 b2 := by
  rw [← documentedRows_find_isNone] at h
  cases hf : documentedRows.find? (fun r => r.opcode == op) with
  | none => simp [hf] at h
  | some r =>
    have hp := List.find?_some hf
    exact ⟨r, List.mem_of_find?_eq_some hf, by simpa using hp, by simp only [decodeBytes, hf]⟩

/-- What an entry builds has the entry's opcode byte, is well-formed, has the operand bytes it was built from,
and does not depend on the bytes after them (R80 to R84). -/
structure Row.Sound (r : Row) : Prop where
  opcode : ∀ b1 b2, (r.build b1 b2).opcode = r.opcode
  wellFormed : ∀ nv b1 b2, (r.build b1 b2).wellFormed nv = true
  bytes : ∀ b1 b2, (r.build b1 b2).operand.bytes = [b1, b2].take (r.build b1 b2).operand.size
  congr : ∀ b1 b2 c1 c2, [c1, c2].take (r.build b1 b2).operand.size =
    [b1, b2].take (r.build b1 b2).operand.size → r.build c1 c2 = r.build b1 b2

theorem Row.sound_imp {f : Instr} {op : Byte} (h1 : f.opcode = op) (h2 : ∀ nv, f.wellFormed nv = true)
    (h3 : f.operand.bytes = []) (h4 : f.operand.size = 0) : (Row.imp f op).Sound where
  opcode _ _ := h1
  wellFormed nv _ _ := h2 nv
  bytes _ _ := by simp [Row.imp, h3, h4]
  congr _ _ _ _ _ := rfl

theorem Row.sound_byte {f : Byte → Instr} {op : Byte} (h1 : ∀ b, (f b).opcode = op)
    (h2 : ∀ nv b, (f b).wellFormed nv = true) (h3 : ∀ b, (f b).operand.bytes = [b])
    (h4 : ∀ b, (f b).operand.size = 1) : (Row.byte f op).Sound where
  opcode b1 _ := h1 b1
  wellFormed nv b1 _ := h2 nv b1
  bytes _ _ := by simp [Row.byte, h3, h4]
  congr b1 _ c1 _ h := by
    simp only [Row.byte, h4, List.take_succ_cons, List.take_zero, List.cons.injEq, and_true] at h
    simp only [Row.byte, h]

theorem Row.sound_word {f : Addr → Instr} {op : Byte} (h1 : ∀ w, (f w).opcode = op)
    (h2 : ∀ nv w, (f w).wellFormed nv = true) (h3 : ∀ w, (f w).operand.bytes = [lo8 w, hi8 w])
    (h4 : ∀ w, (f w).operand.size = 2) : (Row.word f op).Sound where
  opcode _ _ := h1 _
  wellFormed nv _ _ := h2 nv _
  bytes _ _ := by simp [Row.word, h3, h4]
  congr b1 b2 c1 c2 h := by
    simp only [Row.word, h4, List.take_succ_cons, List.take_zero, List.cons.injEq, and_true] at h
    simp only [Row.word, h]

theorem readRows_sound {f : ReadMode → Instr} {a b c d e g h j : Byte}
    (ho : ∀ m, (f m).opcode = m.pick a b c d e g h j) (hw : ∀ nv m, (f m).wellFormed nv = true)
    (hm : ∀ m, (f m).operand = m.toOperand) : ∀ r ∈ readRows f a b c d e g h j, r.Sound := by
  simp only [readRows, List.forall_mem_cons, List.not_mem_nil, false_implies, implies_true, and_true]
  refine ⟨?_, ?_, ?_, ?_, ?_, ?_, ?_, ?_⟩ <;>
    first
    | refine Row.sound_byte (fun _ => ho _) (fun _ _ => hw _ _) ?_ ?_ <;> intro b <;>
        simp only [Function.comp_apply, hm] <;> rfl
    | refine Row.sound_word (fun _ => ho _) (fun _ _ => hw _ _) ?_ ?_ <;> intro w <;>
        simp only [Function.comp_apply, hm] <;> rfl

theorem shiftRows_sound {f : ShiftMode → Instr} {a b c d e : Byte}
    (ho : ∀ m, (f m).opcode = m.pick a b c d e) (hw : ∀ nv m, (f m).wellFormed nv = true)
    (hm : ∀ m, (f m).operand = m.toOperand) : ∀ r ∈ shiftRows f a b c d e, r.Sound := by
  simp only [shiftRows, List.forall_mem_cons, List.not_mem_nil, false_implies, implies_true, and_true]
  refine ⟨Row.sound_imp (ho _) (fun _ => hw _ _) (by rw [hm]; rfl) (by rw [hm]; rfl), ?_, ?_, ?_, ?_⟩ <;>
    first
    | refine Row.sound_byte (fun _ => ho _) (fun _ _ => hw _ _) ?_ ?_ <;> intro b <;>
        simp only [Function.comp_apply, hm] <;> rfl
    | refine Row.sound_word (fun _ => ho _) (fun _ _ => hw _ _) ?_ ?_ <;> intro w <;>
        simp only [Function.comp_apply, hm] <;> rfl

theorem arithmeticRows_sound : ∀ r ∈ arithmeticRows, r.Sound := by
  simp only [arithmeticRows, List.forall_mem_append]
  refine ⟨⟨⟨⟨?_, ?_⟩, ?_⟩, ?_⟩, ?_⟩ <;>
    exact readRows_sound (fun _ => rfl) (fun _ _ => rfl) (fun _ => rfl)

theorem shiftFamilyRows_sound : ∀ r ∈ shiftFamilyRows, r.Sound := by
  simp only [shiftFamilyRows, List.forall_mem_append]
  refine ⟨⟨⟨?_, ?_⟩, ?_⟩, ?_⟩ <;>
    exact shiftRows_sound (fun _ => rfl) (fun _ _ => rfl) (fun _ => rfl)

theorem compareRows_sound : ∀ r ∈ compareRows, r.Sound := by
  simp only [compareRows, cpRows, memRows, List.forall_mem_append, List.forall_mem_cons,
    List.not_mem_nil, false_implies, implies_true, and_true]
  refine ⟨⟨⟨⟨⟨readRows_sound (fun _ => rfl) (fun _ _ => rfl) (fun _ => rfl), ?_, ?_, ?_⟩, ?_, ?_, ?_⟩,
    ?_, ?_, ?_, ?_⟩, ?_, ?_, ?_, ?_⟩, ?_, ?_, ?_, ?_⟩ <;>
    first
    | exact Row.sound_byte (fun _ => rfl) (fun _ _ => rfl) (fun _ => rfl) (fun _ => rfl)
    | exact Row.sound_word (fun _ => rfl) (fun _ _ => rfl) (fun _ => rfl) (fun _ => rfl)
    | exact Row.sound_imp rfl (fun _ => rfl) rfl rfl

theorem loadStoreRows_sound : ∀ r ∈ loadStoreRows, r.Sound := by
  simp only [loadStoreRows, List.forall_mem_append, List.forall_mem_cons, List.not_mem_nil,
    false_implies, implies_true, and_true]
  refine ⟨⟨⟨⟨⟨⟨readRows_sound (fun _ => rfl) (fun _ _ => rfl) (fun _ => rfl), ?_, ?_, ?_, ?_, ?_⟩,
    ?_, ?_, ?_, ?_, ?_⟩, ?_, ?_, ?_, ?_, ?_, ?_, ?_⟩, ?_, ?_, ?_⟩, ?_, ?_, ?_⟩,
    ?_, ?_, ?_, ?_, ?_, ?_⟩ <;>
    first
    | exact Row.sound_byte (fun _ => rfl) (fun _ _ => rfl) (fun _ => rfl) (fun _ => rfl)
    | exact Row.sound_word (fun _ => rfl) (fun _ _ => rfl) (fun _ => rfl) (fun _ => rfl)
    | exact Row.sound_imp rfl (fun _ => rfl) rfl rfl

theorem controlRows_sound : ∀ r ∈ controlRows, r.Sound := by
  simp only [controlRows, List.forall_mem_append, List.forall_mem_cons, List.not_mem_nil,
    false_implies, implies_true, and_true]
  refine ⟨⟨⟨?_, ?_, ?_, ?_⟩, ?_, ?_, ?_, ?_, ?_, ?_, ?_, ?_⟩, ?_, ?_, ?_, ?_, ?_, ?_⟩ <;>
    first
    | exact Row.sound_byte (fun _ => rfl) (fun _ _ => rfl) (fun _ => rfl) (fun _ => rfl)
    | exact Row.sound_word (fun _ => rfl) (fun _ _ => rfl) (fun _ => rfl) (fun _ => rfl)
    | exact Row.sound_imp rfl (fun _ => rfl) rfl rfl

theorem flagRows_sound : ∀ r ∈ flagRows, r.Sound := by
  simp only [flagRows, List.forall_mem_cons, List.not_mem_nil, false_implies, implies_true, and_true]
  refine ⟨?_, ?_, ?_, ?_, ?_, ?_, ?_, ?_, ?_, ?_⟩ <;>
    first
    | exact Row.sound_byte (fun _ => rfl) (fun _ _ => rfl) (fun _ => rfl) (fun _ => rfl)
    | exact Row.sound_word (fun _ => rfl) (fun _ _ => rfl) (fun _ => rfl) (fun _ => rfl)
    | exact Row.sound_imp rfl (fun _ => rfl) rfl rfl

/-- Every documented entry builds what its opcode byte says from the bytes it is given. -/
theorem documentedRows_sound : ∀ r ∈ documentedRows, r.Sound := by
  simp only [documentedRows, List.forall_mem_append]
  exact ⟨⟨⟨⟨⟨arithmeticRows_sound, shiftFamilyRows_sound⟩, compareRows_sound⟩, loadStoreRows_sound⟩,
    controlRows_sound⟩, flagRows_sound⟩

/-- A decoded instruction depends on the bytes of its own length alone. -/
theorem decodeBytes_congr (nv : List Byte) (op b1 b2 c1 c2 : Byte)
    (h : [c1, c2].take (decodeBytes nv op b1 b2).operand.size =
      [b1, b2].take (decodeBytes nv op b1 b2).operand.size) :
    decodeBytes nv op c1 c2 = decodeBytes nv op b1 b2 := by
  unfold decodeBytes at *
  split at h
  · exact (documentedRows_sound _ (List.mem_of_find?_eq_some ‹_›)).congr _ _ _ _ h
  · split at h
    · have : c1 = b1 := by simpa [Instr.operand, NopMode.toOperand, Operand.size] using h
      rw [this]
    · rw [if_neg ‹_›, if_neg ‹_›]

/-- Decoding keeps the opcode byte. -/
theorem decodeBytes_opcode (nv : List Byte) (op b1 b2 : Byte) : (decodeBytes nv op b1 b2).opcode = op := by
  unfold decodeBytes
  split
  · rename_i r hr
    rw [(documentedRows_sound r (List.mem_of_find?_eq_some hr)).opcode]
    simpa using List.find?_some hr
  · split <;> rfl

/-- What the decoder makes is well-formed (R87). -/
theorem decodeBytes_wellFormed (nv : List Byte) (op b1 b2 : Byte) :
    (decodeBytes nv op b1 b2).wellFormed nv = true := by
  cases hu : undocumentedBytes.contains op with
  | true =>
    rw [decodeBytes_undocumented hu]
    cases hn : nv.contains op
    · rw [if_neg (by simp)]
      simp only [Instr.wellFormed, hu, hn]
      rfl
    · rw [if_pos rfl]
      simp only [Instr.wellFormed, hu, hn]
      rfl
  | false =>
    obtain ⟨r, hr, -, e⟩ := decodeBytes_documented hu nv b1 b2
    rw [e]
    exact (documentedRows_sound r hr).wellFormed nv b1 b2

/-- The operand bytes of a decoded instruction are the bytes it was decoded from (R80 to R84). -/
theorem decodeBytes_bytes (nv : List Byte) (op b1 b2 : Byte) :
    (decodeBytes nv op b1 b2).operand.bytes = [b1, b2].take (decodeBytes nv op b1 b2).operand.size := by
  cases hu : undocumentedBytes.contains op with
  | true => rw [decodeBytes_undocumented hu]; split <;> rfl
  | false =>
    obtain ⟨r, hr, -, e⟩ := decodeBytes_documented hu nv b1 b2
    rw [e]
    exact (documentedRows_sound r hr).bytes b1 b2

@[simp] theorem Operand.bytes_length (m : Operand) : m.bytes.length = m.size := by cases m <;> rfl

theorem Operand.size_le (m : Operand) : m.size ≤ 2 := by cases m <;> simp [Operand.size]

end Sys2Proof
end

