-- ==== Sys2Proof/Laws/PerInstr.lean ====
section
/-! SUPPORT. One fact about the syntax of every instruction: the opcode byte and the operand bytes the encoder
gives it are those the decode table turns back into it (spec/30_encoding.md R80, R87, R88). -/

namespace Sys2Proof.Laws.RoundTrip

open Sys2Proof Sys2Proof.Machine

/-- The decode table makes `i` of the opcode byte and the operand bytes of `i`. -/
def Statement (i : Instr) : Prop :=
  ∀ nv : List Byte, i.wellFormed nv = true →
    decodeBytes nv i.opcode (i.operand.bytes.getD 0 0) (i.operand.bytes.getD 1 0) = i

theorem adc (m : ReadMode) : Statement (.adc m) := by
  intro nv _
  cases m with
  | abs w => change Instr.adc (.abs (join16 (hi8 w) (lo8 w))) = _; rw [join16_hi8_lo8]
  | abx w => change Instr.adc (.abx (join16 (hi8 w) (lo8 w))) = _; rw [join16_hi8_lo8]
  | aby w => change Instr.adc (.aby (join16 (hi8 w) (lo8 w))) = _; rw [join16_hi8_lo8]
  | _ => rfl

theorem sbc (m : ReadMode) : Statement (.sbc m) := by
  intro nv _
  cases m with
  | abs w => change Instr.sbc (.abs (join16 (hi8 w) (lo8 w))) = _; rw [join16_hi8_lo8]
  | abx w => change Instr.sbc (.abx (join16 (hi8 w) (lo8 w))) = _; rw [join16_hi8_lo8]
  | aby w => change Instr.sbc (.aby (join16 (hi8 w) (lo8 w))) = _; rw [join16_hi8_lo8]
  | _ => rfl

theorem and (m : ReadMode) : Statement (.and m) := by
  intro nv _
  cases m with
  | abs w => change Instr.and (.abs (join16 (hi8 w) (lo8 w))) = _; rw [join16_hi8_lo8]
  | abx w => change Instr.and (.abx (join16 (hi8 w) (lo8 w))) = _; rw [join16_hi8_lo8]
  | aby w => change Instr.and (.aby (join16 (hi8 w) (lo8 w))) = _; rw [join16_hi8_lo8]
  | _ => rfl

theorem ora (m : ReadMode) : Statement (.ora m) := by
  intro nv _
  cases m with
  | abs w => change Instr.ora (.abs (join16 (hi8 w) (lo8 w))) = _; rw [join16_hi8_lo8]
  | abx w => change Instr.ora (.abx (join16 (hi8 w) (lo8 w))) = _; rw [join16_hi8_lo8]
  | aby w => change Instr.ora (.aby (join16 (hi8 w) (lo8 w))) = _; rw [join16_hi8_lo8]
  | _ => rfl

theorem eor (m : ReadMode) : Statement (.eor m) := by
  intro nv _
  cases m with
  | abs w => change Instr.eor (.abs (join16 (hi8 w) (lo8 w))) = _; rw [join16_hi8_lo8]
  | abx w => change Instr.eor (.abx (join16 (hi8 w) (lo8 w))) = _; rw [join16_hi8_lo8]
  | aby w => change Instr.eor (.aby (join16 (hi8 w) (lo8 w))) = _; rw [join16_hi8_lo8]
  | _ => rfl

theorem asl (m : ShiftMode) : Statement (.asl m) := by
  intro nv _
  cases m with
  | abs w => change Instr.asl (.abs (join16 (hi8 w) (lo8 w))) = _; rw [join16_hi8_lo8]
  | abx w => change Instr.asl (.abx (join16 (hi8 w) (lo8 w))) = _; rw [join16_hi8_lo8]
  | _ => rfl

theorem lsr (m : ShiftMode) : Statement (.lsr m) := by
  intro nv _
  cases m with
  | abs w => change Instr.lsr (.abs (join16 (hi8 w) (lo8 w))) = _; rw [join16_hi8_lo8]
  | abx w => change Instr.lsr (.abx (join16 (hi8 w) (lo8 w))) = _; rw [join16_hi8_lo8]
  | _ => rfl

theorem rol (m : ShiftMode) : Statement (.rol m) := by
  intro nv _
  cases m with
  | abs w => change Instr.rol (.abs (join16 (hi8 w) (lo8 w))) = _; rw [join16_hi8_lo8]
  | abx w => change Instr.rol (.abx (join16 (hi8 w) (lo8 w))) = _; rw [join16_hi8_lo8]
  | _ => rfl

theorem ror (m : ShiftMode) : Statement (.ror m) := by
  intro nv _
  cases m with
  | abs w => change Instr.ror (.abs (join16 (hi8 w) (lo8 w))) = _; rw [join16_hi8_lo8]
  | abx w => change Instr.ror (.abx (join16 (hi8 w) (lo8 w))) = _; rw [join16_hi8_lo8]
  | _ => rfl

theorem cmp (m : ReadMode) : Statement (.cmp m) := by
  intro nv _
  cases m with
  | abs w => change Instr.cmp (.abs (join16 (hi8 w) (lo8 w))) = _; rw [join16_hi8_lo8]
  | abx w => change Instr.cmp (.abx (join16 (hi8 w) (lo8 w))) = _; rw [join16_hi8_lo8]
  | aby w => change Instr.cmp (.aby (join16 (hi8 w) (lo8 w))) = _; rw [join16_hi8_lo8]
  | _ => rfl

theorem cpx (m : CpMode) : Statement (.cpx m) := by
  intro nv _
  cases m with
  | abs w => change Instr.cpx (.abs (join16 (hi8 w) (lo8 w))) = _; rw [join16_hi8_lo8]
  | _ => rfl

theorem cpy (m : CpMode) : Statement (.cpy m) := by
  intro nv _
  cases m with
  | abs w => change Instr.cpy (.abs (join16 (hi8 w) (lo8 w))) = _; rw [join16_hi8_lo8]
  | _ => rfl

theorem inc (m : MemMode) : Statement (.inc m) := by
  intro nv _
  cases m with
  | abs w => change Instr.inc (.abs (join16 (hi8 w) (lo8 w))) = _; rw [join16_hi8_lo8]
  | abx w => change Instr.inc (.abx (join16 (hi8 w) (lo8 w))) = _; rw [join16_hi8_lo8]
  | _ => rfl

theorem dec (m : MemMode) : Statement (.dec m) := by
  intro nv _
  cases m with
  | abs w => change Instr.dec (.abs (join16 (hi8 w) (lo8 w))) = _; rw [join16_hi8_lo8]
  | abx w => change Instr.dec (.abx (join16 (hi8 w) (lo8 w))) = _; rw [join16_hi8_lo8]
  | _ => rfl

theorem inx : Statement .inx := fun _ _ => rfl

theorem iny : Statement .iny := fun _ _ => rfl

theorem dex : Statement .dex := fun _ _ => rfl

theorem dey : Statement .dey := fun _ _ => rfl

theorem lda (m : ReadMode) : Statement (.lda m) := by
  intro nv _
  cases m with
  | abs w => change Instr.lda (.abs (join16 (hi8 w) (lo8 w))) = _; rw [join16_hi8_lo8]
  | abx w => change Instr.lda (.abx (join16 (hi8 w) (lo8 w))) = _; rw [join16_hi8_lo8]
  | aby w => change Instr.lda (.aby (join16 (hi8 w) (lo8 w))) = _; rw [join16_hi8_lo8]
  | _ => rfl

theorem ldx (m : LdxMode) : Statement (.ldx m) := by
  intro nv _
  cases m with
  | abs w => change Instr.ldx (.abs (join16 (hi8 w) (lo8 w))) = _; rw [join16_hi8_lo8]
  | aby w => change Instr.ldx (.aby (join16 (hi8 w) (lo8 w))) = _; rw [join16_hi8_lo8]
  | _ => rfl

theorem ldy (m : LdyMode) : Statement (.ldy m) := by
  intro nv _
  cases m with
  | abs w => change Instr.ldy (.abs (join16 (hi8 w) (lo8 w))) = _; rw [join16_hi8_lo8]
  | abx w => change Instr.ldy (.abx (join16 (hi8 w) (lo8 w))) = _; rw [join16_hi8_lo8]
  | _ => rfl

theorem sta (m : StaMode) : Statement (.sta m) := by
  intro nv _
  cases m with
  | abs w => change Instr.sta (.abs (join16 (hi8 w) (lo8 w))) = _; rw [join16_hi8_lo8]
  | abx w => change Instr.sta (.abx (join16 (hi8 w) (lo8 w))) = _; rw [join16_hi8_lo8]
  | aby w => change Instr.sta (.aby (join16 (hi8 w) (lo8 w))) = _; rw [join16_hi8_lo8]
  | _ => rfl

theorem stx (m : StxMode) : Statement (.stx m) := by
  intro nv _
  cases m with
  | abs w => change Instr.stx (.abs (join16 (hi8 w) (lo8 w))) = _; rw [join16_hi8_lo8]
  | _ => rfl

theorem sty (m : StyMode) : Statement (.sty m) := by
  intro nv _
  cases m with
  | abs w => change Instr.sty (.abs (join16 (hi8 w) (lo8 w))) = _; rw [join16_hi8_lo8]
  | _ => rfl

theorem tax : Statement .tax := fun _ _ => rfl

theorem txa : Statement .txa := fun _ _ => rfl

theorem tay : Statement .tay := fun _ _ => rfl

theorem tya : Statement .tya := fun _ _ => rfl

theorem tsx : Statement .tsx := fun _ _ => rfl

theorem txs : Statement .txs := fun _ _ => rfl

theorem pha : Statement .pha := fun _ _ => rfl

theorem pla : Statement .pla := fun _ _ => rfl

theorem php : Statement .php := fun _ _ => rfl

theorem plp : Statement .plp := fun _ _ => rfl

theorem bcc (d : Byte) : Statement (.bcc d) := fun _ _ => rfl

theorem bcs (d : Byte) : Statement (.bcs d) := fun _ _ => rfl

theorem beq (d : Byte) : Statement (.beq d) := fun _ _ => rfl

theorem bne (d : Byte) : Statement (.bne d) := fun _ _ => rfl

theorem bmi (d : Byte) : Statement (.bmi d) := fun _ _ => rfl

theorem bpl (d : Byte) : Statement (.bpl d) := fun _ _ => rfl

theorem bvc (d : Byte) : Statement (.bvc d) := fun _ _ => rfl

theorem bvs (d : Byte) : Statement (.bvs d) := fun _ _ => rfl

theorem jmp (m : JmpMode) : Statement (.jmp m) := by
  intro nv _
  cases m with
  | abs w => change Instr.jmp (.abs (join16 (hi8 w) (lo8 w))) = _; rw [join16_hi8_lo8]
  | ind w => change Instr.jmp (.ind (join16 (hi8 w) (lo8 w))) = _; rw [join16_hi8_lo8]

theorem jsr (w : Addr) : Statement (.jsr w) := by
  intro nv _
  change Instr.jsr (join16 (hi8 w) (lo8 w)) = _
  rw [join16_hi8_lo8]

theorem rts : Statement .rts := fun _ _ => rfl

theorem brk : Statement .brk := fun _ _ => rfl

theorem rti : Statement .rti := fun _ _ => rfl

theorem sec : Statement .sec := fun _ _ => rfl

theorem clc : Statement .clc := fun _ _ => rfl

theorem sei : Statement .sei := fun _ _ => rfl

theorem cli : Statement .cli := fun _ _ => rfl

theorem sed : Statement .sed := fun _ _ => rfl

theorem cld : Statement .cld := fun _ _ => rfl

theorem clv : Statement .clv := fun _ _ => rfl

theorem bit (m : BitMode) : Statement (.bit m) := by
  intro nv _
  cases m with
  | abs w => change Instr.bit (.abs (join16 (hi8 w) (lo8 w))) = _; rw [join16_hi8_lo8]
  | _ => rfl

theorem nop (m : NopMode) : Statement (.nop m) := by
  intro nv h
  cases m with
  | imp => rfl
  | variant op v =>
    simp only [Instr.wellFormed, Bool.and_eq_true] at h
    change decodeBytes nv op v _ = _
    rw [decodeBytes_undocumented h.1, if_pos h.2]

theorem xxx (op : Byte) : Statement (.xxx op) := by
  intro nv h
  simp only [Instr.wellFormed, Bool.and_eq_true, Bool.not_eq_true'] at h
  change decodeBytes nv op _ _ = _
  rw [decodeBytes_undocumented h.1, h.2]
  rfl

end Sys2Proof.Laws.RoundTrip
end

