-- ==== Sys2Proof/Laws/Step.lean ====
section
/-! SUPPORT. What one step does, and what a run of Idle clocks does (spec/40_fetch_decode_execute.md R110,
spec/70_reset_and_hazards.md R353). -/

namespace Sys2Proof.Machine

/-- A step with nothing left of the host's list is a `Clock`. -/
theorem step_of_nil {s : State} (h : s.hostEvents = []) : step s = clockEvent s := by
  simp [step, nextEvent, h, hostEvent]

theorem step_of_cons {s : State} {e : HostEvent} {es : List HostEvent} (h : s.hostEvents = e :: es) :
    step s = hostEvent e { s with hostEvents := es } := by
  simp [step, nextEvent, h]

theorem clockEvent_idle {s : State} (h : s.resetSeen = true) (hc : s.cyclesRemaining ≠ 0) :
    clockEvent s = .next s.idle := by
  simp only [clockEvent, h, if_pos hc, Bool.true_eq_false, if_false]

theorem clockEvent_fetch {s : State} (h : s.resetSeen = true) (hc : s.cyclesRemaining = 0) :
    clockEvent s = exec s.instrAtPc s := by
  simp only [clockEvent, h, hc, ne_eq, not_true_eq_false, Bool.true_eq_false, if_false]

/-- An Idle clock does nothing but count down. -/
theorem State.idle_eq (s : State) : s.idle = { s with cyclesRemaining := s.cyclesRemaining - 1 } := rfl

theorem run_zero (s : State) : run 0 s = .next s := rfl

/-- A run of `k + 1` steps is a step and then a run of `k`. -/
theorem run_succ (k : Nat) (s : State) :
    run (k + 1) s = match step s with
      | .next t => run k t | .fault r => .fault r | .refused r => .refused r := by
  simp only [run, Host.Core.run]
  cases h : step s <;> simp [Sys2Proof.core, h]

theorem run_succ_of_next {s t : State} (h : step s = .next t) (k : Nat) : run (k + 1) s = run k t := by
  rw [run_succ, h]

/-- A run of `m + n` steps is a run of `m` and then one of `n`. -/
theorem run_add {s t : State} {m : Nat} (h : run m s = .next t) (n : Nat) :
    run (m + n) s = run n t := by
  induction m generalizing s with
  | zero =>
    rw [run_zero] at h
    cases h
    rw [Nat.zero_add]
  | succ m ih =>
    rw [run_succ] at h
    rw [Nat.add_right_comm, run_succ]
    split at h
    · exact ih h
    · cases h
    · cases h

/-- `k` Idle clocks take the count down by `k` and touch nothing else. -/
theorem run_idle (k : Nat) {s : State} (h : s.resetSeen = true) (he : s.hostEvents = [])
    (hk : k ≤ s.cyclesRemaining.toNat) :
    run k s =
      .next { s with cyclesRemaining := s.cyclesRemaining - BitVec.ofNat 8 k } := by
  induction k generalizing s with
  | zero => simp [run_zero]
  | succ k ih =>
    have hlt := s.cyclesRemaining.isLt
    have hne : s.cyclesRemaining ≠ 0 := by
      intro e
      rw [e] at hk
      simp at hk
    have hs : step s = .next s.idle := by rw [step_of_nil he, clockEvent_idle h hne]
    have hle : k ≤ s.idle.cyclesRemaining.toNat := by
      rw [State.idle_cyclesRemaining, BitVec.toNat_sub]
      simp
      omega
    rw [run_succ_of_next hs, ih (by simpa using h) (by simpa using he) hle]
    simp only [State.idle, BitVec.sub_sub]
    congr 3
    rw [BitVec.add_comm, BitVec.ofNat_add]
    rfl

/-- An `Irq` with I = 1 at a boundary changes nothing (R311). -/
theorem irqEvent_masked {s : State} (h : s.resetSeen = true) (hc : s.cyclesRemaining = 0)
    (hi : getFlag s.p .I = true) : irqEvent s = .next s := by
  simp only [irqEvent, h, hc, hi, ne_eq, not_true_eq_false, Bool.true_eq_false, if_false, if_true]

/-- An `Irq` with I = 0 at a boundary enters the handler (R311). -/
theorem irqEvent_enters {s : State} (h : s.resetSeen = true) (hc : s.cyclesRemaining = 0)
    (hi : getFlag s.p .I = false) : irqEvent s = .next (s.interruptEntry irqVector 7) := by
  unfold irqEvent
  rw [if_neg (by simp [h]), if_neg (by simp [hc]), if_neg (by simp [hi])]

/-- An `Nmi` at a boundary enters the handler (R313). -/
theorem nmiEvent_enters {s : State} (h : s.resetSeen = true) (hc : s.cyclesRemaining = 0) :
    nmiEvent s = .next (s.interruptEntry nmiVector 8) := by
  unfold nmiEvent
  rw [if_neg (by simp [h]), if_neg (by simp [hc])]

end Sys2Proof.Machine
end

