-- ==== Sys2Proof/Tests/Slice0.lean ====
section
/-! SUPPORT. The model's own tests, each about one step or one decoding. Expected results are copied from the
spec: the vectors T1 to T166 and E1 to E12 of spec/95_test_vectors.md, the map R89 of spec/30_encoding.md
(the decoder and the encoder were written from R88), the numbers of spec/70 R352. At the end stands, for every
obligation that has hypotheses, a state and operands that meet them. -/

namespace Sys2Proof.Machine

/-! ## Helpers -/

/-- Memory with the bytes of a list stored. -/
def memoryOf (bytes : List (Addr × Byte)) : Memory := bytes.foldl (fun m c => Memory.write m c.1 c.2) []

/-- A state at an instruction boundary with the registers, the NOP variants and the bytes given. -/
def bench (a x y sp p : Byte) (pc : Addr) (nv : List Byte) (bytes : List (Addr × Byte)) : State :=
  { State.powerOn (memoryOf bytes) { Params.default with nopVariants := nv } with
    a := a, x := x, y := y, sp := sp, p := p, pc := pc, resetSeen := true }

/-- What a vector of spec/95 shows of the end state: registers, clocks, and the bytes it says were written. -/
structure Seen where
  a : Byte
  x : Byte
  y : Byte
  sp : Byte
  p : Byte
  pc : Addr
  clocks : Nat
  bytes : List Byte
deriving DecidableEq, Repr

def result (reads : List Addr) (s : State) : Option Seen :=
  match step s with
  | .next t => some ⟨t.a, t.x, t.y, t.sp, t.p, t.pc, t.cyclesRemaining.toNat + 1, reads.map t.load⟩
  | .fault _ => none
  | .refused _ => none

/-- The refusal a step ends in. -/
def refusal (s : State) : Option Refusal :=
  match step s with
  | .refused r => some r
  | .next _ => none
  | .fault _ => none

/-! ## WellFormed refuses what is ill-formed -/

theorem test_wf_refuses_xxx_of_a_documented_byte : (Instr.xxx 0xEA).wellFormed [] = false := by decide

theorem test_wf_refuses_xxx_of_a_variant_byte : (Instr.xxx 0x1A).wellFormed [0x1A] = false := by decide

theorem test_wf_refuses_variant_of_a_documented_byte :
    (Instr.nop (.variant 0xEA 0x55)).wellFormed [0xEA] = false := by decide

theorem test_wf_refuses_variant_that_is_not_listed :
    (Instr.nop (.variant 0x1A 0x55)).wellFormed [0xFC] = false := by decide

theorem test_wf_accepts : (Instr.xxx 0x1A).wellFormed [] = true ∧
    (Instr.nop (.variant 0x1A 0x55)).wellFormed [0x1A, 0xFC] = true ∧
    (Instr.lda (.imm 0x42)).wellFormed [] = true := by decide

theorem test_params_wf_refuses_two_overrides_of_a_byte :
    Params.wf { baseOverrides := [(0xEA, 2), (0xEA, 3)], nopVariants := [] } = false := by decide

theorem test_params_wf_refuses_a_documented_variant :
    Params.wf { baseOverrides := [], nopVariants := [0xEA] } = false := by decide

/-! ## Decoding -/

/-- The sixteen bytes of one row of R89, each followed by the operand bytes 34 12. -/
def decodedRow (h : Nat) : List Instr :=
  (List.range 16).map fun k => decodeBytes [] (BitVec.ofNat 8 (16 * h + k)) 0x34 0x12

theorem test_decode_row_0 : decodedRow 0x0 =
    [.brk, .ora (.izx 0x34), .xxx 0x02, .xxx 0x03, .xxx 0x04, .ora (.zp0 0x34), .asl (.zp0 0x34),
     .xxx 0x07, .php, .ora (.imm 0x34), .asl .acc, .xxx 0x0B, .xxx 0x0C, .ora (.abs 0x1234),
     .asl (.abs 0x1234), .xxx 0x0F] := by decide

theorem test_decode_row_1 : decodedRow 0x1 =
    [.bpl 0x34, .ora (.izy 0x34), .xxx 0x12, .xxx 0x13, .xxx 0x14, .ora (.zpx 0x34), .asl (.zpx 0x34),
     .xxx 0x17, .clc, .ora (.aby 0x1234), .xxx 0x1A, .xxx 0x1B, .xxx 0x1C, .ora (.abx 0x1234),
     .asl (.abx 0x1234), .xxx 0x1F] := by decide

theorem test_decode_row_2 : decodedRow 0x2 =
    [.jsr 0x1234, .and (.izx 0x34), .xxx 0x22, .xxx 0x23, .bit (.zp0 0x34), .and (.zp0 0x34),
     .rol (.zp0 0x34), .xxx 0x27, .plp, .and (.imm 0x34), .rol .acc, .xxx 0x2B, .bit (.abs 0x1234),
     .and (.abs 0x1234), .rol (.abs 0x1234), .xxx 0x2F] := by decide

theorem test_decode_row_3 : decodedRow 0x3 =
    [.bmi 0x34, .and (.izy 0x34), .xxx 0x32, .xxx 0x33, .xxx 0x34, .and (.zpx 0x34), .rol (.zpx 0x34),
     .xxx 0x37, .sec, .and (.aby 0x1234), .xxx 0x3A, .xxx 0x3B, .xxx 0x3C, .and (.abx 0x1234),
     .rol (.abx 0x1234), .xxx 0x3F] := by decide

theorem test_decode_row_4 : decodedRow 0x4 =
    [.rti, .eor (.izx 0x34), .xxx 0x42, .xxx 0x43, .xxx 0x44, .eor (.zp0 0x34), .lsr (.zp0 0x34),
     .xxx 0x47, .pha, .eor (.imm 0x34), .lsr .acc, .xxx 0x4B, .jmp (.abs 0x1234), .eor (.abs 0x1234),
     .lsr (.abs 0x1234), .xxx 0x4F] := by decide

theorem test_decode_row_5 : decodedRow 0x5 =
    [.bvc 0x34, .eor (.izy 0x34), .xxx 0x52, .xxx 0x53, .xxx 0x54, .eor (.zpx 0x34), .lsr (.zpx 0x34),
     .xxx 0x57, .cli, .eor (.aby 0x1234), .xxx 0x5A, .xxx 0x5B, .xxx 0x5C, .eor (.abx 0x1234),
     .lsr (.abx 0x1234), .xxx 0x5F] := by decide

theorem test_decode_row_6 : decodedRow 0x6 =
    [.rts, .adc (.izx 0x34), .xxx 0x62, .xxx 0x63, .xxx 0x64, .adc (.zp0 0x34), .ror (.zp0 0x34),
     .xxx 0x67, .pla, .adc (.imm 0x34), .ror .acc, .xxx 0x6B, .jmp (.ind 0x1234), .adc (.abs 0x1234),
     .ror (.abs 0x1234), .xxx 0x6F] := by decide

theorem test_decode_row_7 : decodedRow 0x7 =
    [.bvs 0x34, .adc (.izy 0x34), .xxx 0x72, .xxx 0x73, .xxx 0x74, .adc (.zpx 0x34), .ror (.zpx 0x34),
     .xxx 0x77, .sei, .adc (.aby 0x1234), .xxx 0x7A, .xxx 0x7B, .xxx 0x7C, .adc (.abx 0x1234),
     .ror (.abx 0x1234), .xxx 0x7F] := by decide

theorem test_decode_row_8 : decodedRow 0x8 =
    [.xxx 0x80, .sta (.izx 0x34), .xxx 0x82, .xxx 0x83, .sty (.zp0 0x34), .sta (.zp0 0x34),
     .stx (.zp0 0x34), .xxx 0x87, .dey, .xxx 0x89, .txa, .xxx 0x8B, .sty (.abs 0x1234),
     .sta (.abs 0x1234), .stx (.abs 0x1234), .xxx 0x8F] := by decide

theorem test_decode_row_9 : decodedRow 0x9 =
    [.bcc 0x34, .sta (.izy 0x34), .xxx 0x92, .xxx 0x93, .sty (.zpx 0x34), .sta (.zpx 0x34),
     .stx (.zpy 0x34), .xxx 0x97, .tya, .sta (.aby 0x1234), .txs, .xxx 0x9B, .xxx 0x9C,
     .sta (.abx 0x1234), .xxx 0x9E, .xxx 0x9F] := by decide

theorem test_decode_row_A : decodedRow 0xA =
    [.ldy (.imm 0x34), .lda (.izx 0x34), .ldx (.imm 0x34), .xxx 0xA3, .ldy (.zp0 0x34),
     .lda (.zp0 0x34), .ldx (.zp0 0x34), .xxx 0xA7, .tay, .lda (.imm 0x34), .tax, .xxx 0xAB,
     .ldy (.abs 0x1234), .lda (.abs 0x1234), .ldx (.abs 0x1234), .xxx 0xAF] := by decide

theorem test_decode_row_B : decodedRow 0xB =
    [.bcs 0x34, .lda (.izy 0x34), .xxx 0xB2, .xxx 0xB3, .ldy (.zpx 0x34), .lda (.zpx 0x34),
     .ldx (.zpy 0x34), .xxx 0xB7, .clv, .lda (.aby 0x1234), .tsx, .xxx 0xBB, .ldy (.abx 0x1234),
     .lda (.abx 0x1234), .ldx (.aby 0x1234), .xxx 0xBF] := by decide

theorem test_decode_row_C : decodedRow 0xC =
    [.cpy (.imm 0x34), .cmp (.izx 0x34), .xxx 0xC2, .xxx 0xC3, .cpy (.zp0 0x34), .cmp (.zp0 0x34),
     .dec (.zp0 0x34), .xxx 0xC7, .iny, .cmp (.imm 0x34), .dex, .xxx 0xCB, .cpy (.abs 0x1234),
     .cmp (.abs 0x1234), .dec (.abs 0x1234), .xxx 0xCF] := by decide

theorem test_decode_row_D : decodedRow 0xD =
    [.bne 0x34, .cmp (.izy 0x34), .xxx 0xD2, .xxx 0xD3, .xxx 0xD4, .cmp (.zpx 0x34), .dec (.zpx 0x34),
     .xxx 0xD7, .cld, .cmp (.aby 0x1234), .xxx 0xDA, .xxx 0xDB, .xxx 0xDC, .cmp (.abx 0x1234),
     .dec (.abx 0x1234), .xxx 0xDF] := by decide

theorem test_decode_row_E : decodedRow 0xE =
    [.cpx (.imm 0x34), .sbc (.izx 0x34), .xxx 0xE2, .xxx 0xE3, .cpx (.zp0 0x34), .sbc (.zp0 0x34),
     .inc (.zp0 0x34), .xxx 0xE7, .inx, .sbc (.imm 0x34), .nop .imp, .xxx 0xEB, .cpx (.abs 0x1234),
     .sbc (.abs 0x1234), .inc (.abs 0x1234), .xxx 0xEF] := by decide

theorem test_decode_row_F : decodedRow 0xF =
    [.beq 0x34, .sbc (.izy 0x34), .xxx 0xF2, .xxx 0xF3, .xxx 0xF4, .sbc (.zpx 0x34), .inc (.zpx 0x34),
     .xxx 0xF7, .sed, .sbc (.aby 0x1234), .xxx 0xFA, .xxx 0xFB, .xxx 0xFC, .sbc (.abx 0x1234),
     .inc (.abx 0x1234), .xxx 0xFF] := by decide

/-- Formats F2 and F3 (R82, R84), and the numbering of `decodeTableWord`. -/
theorem test_decode_table_words :
    decodeTableWord 16 0x42A9 = some (.lda (.imm 0x42)) ∧
    decodeTableWord 24 0x1234AD = some (.lda (.abs 0x1234)) ∧
    decodeTableWord 16 0xFAD0 = some (.bne 0xFA) ∧
    decodeTableWord 8 0x69 = some (.adc (.imm 0x00)) ∧
    decodeTableWord 8 0x02 = some (.xxx 0x02) := by decide

theorem test_decode_needs_its_operand :
    decode [] [0xAD, 0x34] = .error (.operandMissing 0xAD) ∧ decode [] [] = .error .noOpcode := ⟨rfl, rfl⟩

/-- "The same numbers by mode" of R352. -/
theorem test_base_cycles_by_mode :
    [Instr.lda (.imm 0), .lda (.zp0 0), .ldx (.zpy 0), .bit (.abs 0), .cmp (.aby 0), .eor (.izx 0),
     .sbc (.izy 0), .sta (.zp0 0), .sty (.zpx 0), .stx (.abs 0), .sta (.abx 0), .sta (.izx 0),
     .sta (.izy 0), .ror .acc, .asl (.zp0 0), .lsr (.zpx 0), .inc (.abs 0), .dec (.abx 0)].map
      Params.default.base = [2, 3, 4, 4, 4, 6, 5, 3, 4, 4, 5, 6, 6, 2, 5, 6, 6, 7] := by decide

theorem test_base_cycles_by_name :
    [Instr.tax, .clv, .pha, .php, .pla, .plp, .jsr 0, .rts, .rti, .brk, .jmp (.abs 0), .jmp (.ind 0),
     .bvs 0, .xxx 0x02].map Params.default.base = [2, 2, 3, 3, 4, 4, 6, 6, 6, 7, 3, 5, 2, 0] := by decide

/-! ## Memory -/

theorem test_memory_write_of_the_background_removes_the_entry :
    Memory.write (memoryOf [(0x0010, 0x55), (0x0008, 0x66)]) 0x0010 0x00 = [(0x0008, 0x66)] := by decide

theorem test_memory_wf_refuses : Memory.wf [(2, 0x01), (1, 0x01)] = false ∧
    Memory.wf [(1, 0x00)] = false ∧ Memory.wf [(65536, 0x01)] = false := by decide

/-! ## One step per instruction (spec/95_test_vectors.md, the vector's number in the name) -/

theorem test_adc_T20 : result [] (bench 0x7F 0x00 0x00 0xFD 0x21 0x8000 []
      [(0x8000, 0x69), (0x8001, 0x00)]) =
    some ⟨0x80, 0x00, 0x00, 0xFD, 0xE0, 0x8002, 2, []⟩ := by decide

theorem test_adc_T24 : result [] (bench 0x01 0x01 0x00 0xFD 0x20 0x8000 []
      [(0x1300, 0x02), (0x8000, 0x7D), (0x8001, 0xFF), (0x8002, 0x12)]) =
    some ⟨0x03, 0x01, 0x00, 0xFD, 0x20, 0x8003, 5, []⟩ := by decide

theorem test_sbc_T30 : result [] (bench 0x05 0x00 0x00 0xFD 0x20 0x8000 []
      [(0x8000, 0xE9), (0x8001, 0x05)]) =
    some ⟨0xFF, 0x00, 0x00, 0xFD, 0xA0, 0x8002, 2, []⟩ := by decide

theorem test_sbc_T31 : result [] (bench 0x80 0x00 0x00 0xFD 0x21 0x8000 []
      [(0x8000, 0xE9), (0x8001, 0x01)]) =
    some ⟨0x7F, 0x00, 0x00, 0xFD, 0x61, 0x8002, 2, []⟩ := by decide

theorem test_and_T33 : result [] (bench 0xF0 0x00 0x00 0xFD 0x20 0x8000 []
      [(0x8000, 0x29), (0x8001, 0x0F)]) =
    some ⟨0x00, 0x00, 0x00, 0xFD, 0x22, 0x8002, 2, []⟩ := by decide

theorem test_and_T35 : result [] (bench 0xFF 0x00 0x10 0xFD 0x20 0x8000 []
      [(0x0020, 0xF8), (0x0021, 0x30), (0x3108, 0x0F), (0x8000, 0x31), (0x8001, 0x20)]) =
    some ⟨0x0F, 0x00, 0x10, 0xFD, 0x20, 0x8002, 6, []⟩ := by decide

theorem test_ora_T36 : result [] (bench 0x01 0x00 0x00 0xFD 0x20 0x8000 []
      [(0x8000, 0x09), (0x8001, 0x80)]) =
    some ⟨0x81, 0x00, 0x00, 0xFD, 0xA0, 0x8002, 2, []⟩ := by decide

theorem test_ora_T37 : result [] (bench 0x00 0x00 0x00 0xFD 0x20 0x8000 []
      [(0x8000, 0x09), (0x8001, 0x00)]) =
    some ⟨0x00, 0x00, 0x00, 0xFD, 0x22, 0x8002, 2, []⟩ := by decide

theorem test_eor_T39 : result [] (bench 0x0F 0x00 0x00 0xFD 0x20 0x8000 []
      [(0x8000, 0x49), (0x8001, 0xFF)]) =
    some ⟨0xF0, 0x00, 0x00, 0xFD, 0xA0, 0x8002, 2, []⟩ := by decide

theorem test_eor_T40 : result [] (bench 0x01 0x00 0x00 0xFD 0x61 0x8000 []
      [(0x8000, 0x49), (0x8001, 0x00)]) =
    some ⟨0x01, 0x00, 0x00, 0xFD, 0x61, 0x8002, 2, []⟩ := by decide

theorem test_asl_T41 : result [] (bench 0x81 0x00 0x00 0xFD 0x20 0x8000 []
      [(0x8000, 0x0A)]) =
    some ⟨0x02, 0x00, 0x00, 0xFD, 0x21, 0x8001, 2, []⟩ := by decide

theorem test_asl_T44 : result [0x1300]
    (bench 0x00 0x01 0x00 0xFD 0x20 0x8000 []
      [(0x1300, 0x40), (0x8000, 0x1E), (0x8001, 0xFF), (0x8002, 0x12)]) =
    some ⟨0x00, 0x01, 0x00, 0xFD, 0xA0, 0x8003, 8, [0x80]⟩ := by decide

theorem test_lsr_T46 : result [] (bench 0x80 0x00 0x00 0xFD 0xA0 0x8000 []
      [(0x8000, 0x4A)]) =
    some ⟨0x40, 0x00, 0x00, 0xFD, 0x20, 0x8001, 2, []⟩ := by decide

theorem test_lsr_T47 : result [0x0010]
    (bench 0x00 0x00 0x00 0xFD 0x21 0x8000 []
      [(0x0010, 0x03), (0x8000, 0x46), (0x8001, 0x10)]) =
    some ⟨0x00, 0x00, 0x00, 0xFD, 0x21, 0x8002, 5, [0x01]⟩ := by decide

theorem test_rol_T48 : result [] (bench 0x40 0x00 0x00 0xFD 0x21 0x8000 []
      [(0x8000, 0x2A)]) =
    some ⟨0x81, 0x00, 0x00, 0xFD, 0xA0, 0x8001, 2, []⟩ := by decide

theorem test_rol_T50 : result [0x1234]
    (bench 0x00 0x00 0x00 0xFD 0x20 0x8000 []
      [(0x1234, 0xFF), (0x8000, 0x2E), (0x8001, 0x34), (0x8002, 0x12)]) =
    some ⟨0x00, 0x00, 0x00, 0xFD, 0xA1, 0x8003, 6, [0xFE]⟩ := by decide

theorem test_ror_T51 : result [] (bench 0x01 0x00 0x00 0xFD 0x21 0x8000 []
      [(0x8000, 0x6A)]) =
    some ⟨0x80, 0x00, 0x00, 0xFD, 0xA1, 0x8001, 2, []⟩ := by decide

theorem test_ror_T53 : result [0x0011]
    (bench 0x00 0x01 0x00 0xFD 0x21 0x8000 []
      [(0x0011, 0x02), (0x8000, 0x76), (0x8001, 0x10)]) =
    some ⟨0x00, 0x01, 0x00, 0xFD, 0xA0, 0x8002, 6, [0x81]⟩ := by decide

theorem test_cmp_T57 : result [] (bench 0x80 0x00 0x00 0xFD 0x60 0x8000 []
      [(0x8000, 0xC9), (0x8001, 0x01)]) =
    some ⟨0x80, 0x00, 0x00, 0xFD, 0x61, 0x8002, 2, []⟩ := by decide

theorem test_cmp_T59 : result [] (bench 0x10 0x01 0x00 0xFD 0x20 0x8000 []
      [(0x1300, 0x10), (0x8000, 0xDD), (0x8001, 0xFF), (0x8002, 0x12)]) =
    some ⟨0x10, 0x01, 0x00, 0xFD, 0x23, 0x8003, 5, []⟩ := by decide

theorem test_cpx_T60 : result [] (bench 0x00 0x0F 0x00 0xFD 0x20 0x8000 []
      [(0x8000, 0xE0), (0x8001, 0x10)]) =
    some ⟨0x00, 0x0F, 0x00, 0xFD, 0xA0, 0x8002, 2, []⟩ := by decide

theorem test_cpx_T61 : result [] (bench 0x00 0x80 0x00 0xFD 0x20 0x8000 []
      [(0x0010, 0x7F), (0x8000, 0xE4), (0x8001, 0x10)]) =
    some ⟨0x00, 0x80, 0x00, 0xFD, 0x21, 0x8002, 3, []⟩ := by decide

theorem test_cpy_T62 : result [] (bench 0x00 0x00 0x04 0xFD 0x20 0x8000 []
      [(0x8000, 0xC0), (0x8001, 0x04)]) =
    some ⟨0x00, 0x00, 0x04, 0xFD, 0x23, 0x8002, 2, []⟩ := by decide

theorem test_cpy_T63 : result [] (bench 0x00 0x00 0x00 0xFD 0x20 0x8000 []
      [(0x1234, 0x01), (0x8000, 0xCC), (0x8001, 0x34), (0x8002, 0x12)]) =
    some ⟨0x00, 0x00, 0x00, 0xFD, 0xA0, 0x8003, 4, []⟩ := by decide

theorem test_inc_T64 : result [0x0010]
    (bench 0x00 0x00 0x00 0xFD 0x20 0x8000 []
      [(0x0010, 0xFF), (0x8000, 0xE6), (0x8001, 0x10)]) =
    some ⟨0x00, 0x00, 0x00, 0xFD, 0x22, 0x8002, 5, [0x00]⟩ := by decide

theorem test_inc_T66 : result [0x1300]
    (bench 0x00 0x01 0x00 0xFD 0x20 0x8000 []
      [(0x1300, 0x00), (0x8000, 0xFE), (0x8001, 0xFF), (0x8002, 0x12)]) =
    some ⟨0x00, 0x01, 0x00, 0xFD, 0x20, 0x8003, 8, [0x01]⟩ := by decide

theorem test_dec_T67 : result [0x0010]
    (bench 0x00 0x00 0x00 0xFD 0x20 0x8000 []
      [(0x0010, 0x00), (0x8000, 0xC6), (0x8001, 0x10)]) =
    some ⟨0x00, 0x00, 0x00, 0xFD, 0xA0, 0x8002, 5, [0xFF]⟩ := by decide

theorem test_dec_T69 : result [0x1234]
    (bench 0x00 0x00 0x00 0xFD 0x21 0x8000 []
      [(0x1234, 0x80), (0x8000, 0xCE), (0x8001, 0x34), (0x8002, 0x12)]) =
    some ⟨0x00, 0x00, 0x00, 0xFD, 0x21, 0x8003, 6, [0x7F]⟩ := by decide

theorem test_inx_T70 : result [] (bench 0x00 0xFF 0x00 0xFD 0x20 0x8000 []
      [(0x8000, 0xE8)]) =
    some ⟨0x00, 0x00, 0x00, 0xFD, 0x22, 0x8001, 2, []⟩ := by decide

theorem test_inx_T71 : result [] (bench 0x00 0x7F 0x00 0xFD 0x20 0x8000 []
      [(0x8000, 0xE8)]) =
    some ⟨0x00, 0x80, 0x00, 0xFD, 0xA0, 0x8001, 2, []⟩ := by decide

theorem test_iny_T72 : result [] (bench 0x00 0x00 0xFF 0xFD 0x20 0x8000 []
      [(0x8000, 0xC8)]) =
    some ⟨0x00, 0x00, 0x00, 0xFD, 0x22, 0x8001, 2, []⟩ := by decide

theorem test_iny_T73 : result [] (bench 0x00 0x00 0x00 0xFD 0x20 0x8000 []
      [(0x8000, 0xC8)]) =
    some ⟨0x00, 0x00, 0x01, 0xFD, 0x20, 0x8001, 2, []⟩ := by decide

theorem test_dex_T74 : result [] (bench 0x00 0x00 0x00 0xFD 0x20 0x8000 []
      [(0x8000, 0xCA)]) =
    some ⟨0x00, 0xFF, 0x00, 0xFD, 0xA0, 0x8001, 2, []⟩ := by decide

theorem test_dex_T75 : result [] (bench 0x00 0x01 0x00 0xFD 0x20 0x8000 []
      [(0x8000, 0xCA)]) =
    some ⟨0x00, 0x00, 0x00, 0xFD, 0x22, 0x8001, 2, []⟩ := by decide

theorem test_dey_T76 : result [] (bench 0x00 0x00 0x01 0xFD 0x20 0x8000 []
      [(0x8000, 0x88)]) =
    some ⟨0x00, 0x00, 0x00, 0xFD, 0x22, 0x8001, 2, []⟩ := by decide

theorem test_dey_T77 : result [] (bench 0x00 0x00 0x00 0xFD 0x20 0x8000 []
      [(0x8000, 0x88)]) =
    some ⟨0x00, 0x00, 0xFF, 0xFD, 0xA0, 0x8001, 2, []⟩ := by decide

theorem test_lda_T12 : result [] (bench 0x00 0x01 0x00 0xFD 0x20 0x8000 []
      [(0x0000, 0x12), (0x00FF, 0x34), (0x0100, 0x56), (0x1234, 0xAB), (0x5634, 0xCD), (0x8000, 0xA1), (0x8001, 0xFE)]) =
    some ⟨0xAB, 0x01, 0x00, 0xFD, 0xA0, 0x8002, 6, []⟩ := by decide

theorem test_lda_T14 : result [] (bench 0x00 0x00 0x10 0xFD 0x20 0x8000 []
      [(0x0020, 0xF8), (0x0021, 0x30), (0x3108, 0x5E), (0x8000, 0xB1), (0x8001, 0x20)]) =
    some ⟨0x5E, 0x00, 0x10, 0xFD, 0x20, 0x8002, 6, []⟩ := by decide

theorem test_ldx_T5 : result [] (bench 0x00 0x00 0x20 0xFD 0x20 0x8000 []
      [(0x0010, 0x66), (0x0110, 0x99), (0x8000, 0xB6), (0x8001, 0xF0)]) =
    some ⟨0x00, 0x66, 0x20, 0xFD, 0x20, 0x8002, 4, []⟩ := by decide

theorem test_ldx_T81 : result [] (bench 0x00 0x00 0xFF 0xFD 0x20 0x8000 []
      [(0x12FF, 0x00), (0x8000, 0xBE), (0x8001, 0x00), (0x8002, 0x12)]) =
    some ⟨0x00, 0x00, 0xFF, 0xFD, 0x22, 0x8003, 4, []⟩ := by decide

theorem test_ldy_T82 : result [] (bench 0x00 0xFF 0x00 0xFD 0x20 0x8000 []
      [(0x000F, 0xC0), (0x8000, 0xB4), (0x8001, 0x10)]) =
    some ⟨0x00, 0xFF, 0xC0, 0xFD, 0xA0, 0x8002, 4, []⟩ := by decide

theorem test_ldy_T83 : result [] (bench 0x00 0x01 0x00 0xFD 0x20 0x8000 []
      [(0x1300, 0x01), (0x8000, 0xBC), (0x8001, 0xFF), (0x8002, 0x12)]) =
    some ⟨0x00, 0x01, 0x01, 0xFD, 0x20, 0x8003, 5, []⟩ := by decide

theorem test_sta_T87 : result [0x3108]
    (bench 0x99 0x00 0x10 0xFD 0x20 0x8000 []
      [(0x0020, 0xF8), (0x0021, 0x30), (0x8000, 0x91), (0x8001, 0x20)]) =
    some ⟨0x99, 0x00, 0x10, 0xFD, 0x20, 0x8002, 7, [0x99]⟩ := by decide

theorem test_sta_T88 : result [0x3000]
    (bench 0x98 0x04 0x00 0xFD 0x20 0x8000 []
      [(0x0024, 0x00), (0x0025, 0x30), (0x8000, 0x81), (0x8001, 0x20)]) =
    some ⟨0x98, 0x04, 0x00, 0xFD, 0x20, 0x8002, 6, [0x98]⟩ := by decide

theorem test_stx_T89 : result [0x0010]
    (bench 0x00 0x12 0x20 0xFD 0x20 0x8000 []
      [(0x8000, 0x96), (0x8001, 0xF0)]) =
    some ⟨0x00, 0x12, 0x20, 0xFD, 0x20, 0x8002, 4, [0x12]⟩ := by decide

theorem test_stx_T90 : result [0x0000]
    (bench 0x00 0x0A 0x00 0xFD 0x20 0x8000 []
      [(0x8000, 0x8E), (0x8001, 0x00), (0x8002, 0x00)]) =
    some ⟨0x00, 0x0A, 0x00, 0xFD, 0x20, 0x8003, 4, [0x0A]⟩ := by decide

theorem test_sty_T91 : result [0x0011]
    (bench 0x00 0x01 0x34 0xFD 0x20 0x8000 []
      [(0x8000, 0x94), (0x8001, 0x10)]) =
    some ⟨0x00, 0x01, 0x34, 0xFD, 0x20, 0x8002, 4, [0x34]⟩ := by decide

theorem test_tax_T92 : result [] (bench 0x80 0x00 0x00 0xFD 0x20 0x8000 []
      [(0x8000, 0xAA)]) =
    some ⟨0x80, 0x80, 0x00, 0xFD, 0xA0, 0x8001, 2, []⟩ := by decide

theorem test_tax_T93 : result [] (bench 0x00 0x55 0x00 0xFD 0x20 0x8000 []
      [(0x8000, 0xAA)]) =
    some ⟨0x00, 0x00, 0x00, 0xFD, 0x22, 0x8001, 2, []⟩ := by decide

theorem test_txa_T94 : result [] (bench 0xFF 0x01 0x00 0xFD 0xA0 0x8000 []
      [(0x8000, 0x8A)]) =
    some ⟨0x01, 0x01, 0x00, 0xFD, 0x20, 0x8001, 2, []⟩ := by decide

theorem test_tay_T95 : result [] (bench 0x00 0x00 0x01 0xFD 0x20 0x8000 []
      [(0x8000, 0xA8)]) =
    some ⟨0x00, 0x00, 0x00, 0xFD, 0x22, 0x8001, 2, []⟩ := by decide

theorem test_tya_T96 : result [] (bench 0x00 0x00 0xFF 0xFD 0x20 0x8000 []
      [(0x8000, 0x98)]) =
    some ⟨0xFF, 0x00, 0xFF, 0xFD, 0xA0, 0x8001, 2, []⟩ := by decide

theorem test_tsx_T97 : result [] (bench 0x00 0x00 0x00 0xFD 0x20 0x8000 []
      [(0x8000, 0xBA)]) =
    some ⟨0x00, 0xFD, 0x00, 0xFD, 0xA0, 0x8001, 2, []⟩ := by decide

theorem test_tsx_T98 : result [] (bench 0x00 0x11 0x00 0x00 0x20 0x8000 []
      [(0x8000, 0xBA)]) =
    some ⟨0x00, 0x00, 0x00, 0x00, 0x22, 0x8001, 2, []⟩ := by decide

theorem test_txs_T99 : result [] (bench 0x00 0x00 0x00 0xFD 0x20 0x8000 []
      [(0x8000, 0x9A)]) =
    some ⟨0x00, 0x00, 0x00, 0x00, 0x20, 0x8001, 2, []⟩ := by decide

theorem test_txs_T100 : result [] (bench 0x00 0x80 0x00 0xFD 0x20 0x8000 []
      [(0x8000, 0x9A)]) =
    some ⟨0x00, 0x80, 0x00, 0x80, 0x20, 0x8001, 2, []⟩ := by decide

theorem test_pha_T101 : result [0x01FD]
    (bench 0x42 0x00 0x00 0xFD 0x20 0x8000 []
      [(0x8000, 0x48)]) =
    some ⟨0x42, 0x00, 0x00, 0xFC, 0x20, 0x8001, 3, [0x42]⟩ := by decide

theorem test_pha_T102 : result [0x0100]
    (bench 0x42 0x00 0x00 0x00 0x20 0x8000 []
      [(0x8000, 0x48)]) =
    some ⟨0x42, 0x00, 0x00, 0xFF, 0x20, 0x8001, 3, [0x42]⟩ := by decide

theorem test_pla_T103 : result [] (bench 0x00 0x00 0x00 0xFC 0x20 0x8000 []
      [(0x01FD, 0x80), (0x8000, 0x68)]) =
    some ⟨0x80, 0x00, 0x00, 0xFD, 0xA0, 0x8001, 4, []⟩ := by decide

theorem test_pla_T105 : result [] (bench 0x00 0x00 0x00 0xFF 0x20 0x8000 []
      [(0x0100, 0x7F), (0x8000, 0x68)]) =
    some ⟨0x7F, 0x00, 0x00, 0x00, 0x20, 0x8001, 4, []⟩ := by decide

theorem test_php_T106 : result [0x01FD]
    (bench 0x00 0x00 0x00 0xFD 0x20 0x8000 []
      [(0x8000, 0x08)]) =
    some ⟨0x00, 0x00, 0x00, 0xFC, 0x20, 0x8001, 3, [0x30]⟩ := by decide

theorem test_php_T107 : result [0x01FD]
    (bench 0x00 0x00 0x00 0xFD 0xE3 0x8000 []
      [(0x8000, 0x08)]) =
    some ⟨0x00, 0x00, 0x00, 0xFC, 0xE3, 0x8001, 3, [0xF3]⟩ := by decide

theorem test_plp_T109 : result [] (bench 0x00 0x00 0x00 0xFC 0x20 0x8000 []
      [(0x01FD, 0xFF), (0x8000, 0x28)]) =
    some ⟨0x00, 0x00, 0x00, 0xFD, 0xFF, 0x8001, 4, []⟩ := by decide

theorem test_plp_T110 : result [] (bench 0x00 0x00 0x00 0xFC 0xE3 0x8000 []
      [(0x01FD, 0x30), (0x8000, 0x28)]) =
    some ⟨0x00, 0x00, 0x00, 0xFD, 0x30, 0x8001, 4, []⟩ := by decide

theorem test_bcc_T123 : result [] (bench 0x00 0x00 0x00 0xFD 0x20 0x8000 []
      [(0x8000, 0x90), (0x8001, 0x04)]) =
    some ⟨0x00, 0x00, 0x00, 0xFD, 0x20, 0x8006, 3, []⟩ := by decide

theorem test_bcc_T124 : result [] (bench 0x00 0x00 0x00 0xFD 0x21 0x8000 []
      [(0x8000, 0x90), (0x8001, 0x04)]) =
    some ⟨0x00, 0x00, 0x00, 0xFD, 0x21, 0x8002, 2, []⟩ := by decide

theorem test_bcs_T125 : result [] (bench 0x00 0x00 0x00 0xFD 0x21 0x8000 []
      [(0x8000, 0xB0), (0x8001, 0x04)]) =
    some ⟨0x00, 0x00, 0x00, 0xFD, 0x21, 0x8006, 3, []⟩ := by decide

theorem test_bcs_T126 : result [] (bench 0x00 0x00 0x00 0xFD 0x20 0x8000 []
      [(0x8000, 0xB0), (0x8001, 0x04)]) =
    some ⟨0x00, 0x00, 0x00, 0xFD, 0x20, 0x8002, 2, []⟩ := by decide

theorem test_beq_T121 : result [] (bench 0x00 0x00 0x00 0xFD 0x22 0x8000 []
      [(0x8000, 0xF0), (0x8001, 0x04)]) =
    some ⟨0x00, 0x00, 0x00, 0xFD, 0x22, 0x8006, 3, []⟩ := by decide

theorem test_beq_T122 : result [] (bench 0x00 0x00 0x00 0xFD 0x20 0x8000 []
      [(0x8000, 0xF0), (0x8001, 0x04)]) =
    some ⟨0x00, 0x00, 0x00, 0xFD, 0x20, 0x8002, 2, []⟩ := by decide

theorem test_bne_T115 : result [] (bench 0x00 0x00 0x00 0xFD 0x20 0x80FC []
      [(0x80FC, 0xD0), (0x80FD, 0x02)]) =
    some ⟨0x00, 0x00, 0x00, 0xFD, 0x20, 0x8100, 4, []⟩ := by decide

theorem test_bne_T120 : result [] (bench 0x00 0x00 0x00 0xFD 0x20 0xFFF0 []
      [(0xFFF0, 0xD0), (0xFFF1, 0x10)]) =
    some ⟨0x00, 0x00, 0x00, 0xFD, 0x20, 0x0002, 4, []⟩ := by decide

theorem test_bmi_T127 : result [] (bench 0x00 0x00 0x00 0xFD 0xA0 0x8000 []
      [(0x8000, 0x30), (0x8001, 0x04)]) =
    some ⟨0x00, 0x00, 0x00, 0xFD, 0xA0, 0x8006, 3, []⟩ := by decide

theorem test_bmi_T128 : result [] (bench 0x00 0x00 0x00 0xFD 0x20 0x8000 []
      [(0x8000, 0x30), (0x8001, 0x04)]) =
    some ⟨0x00, 0x00, 0x00, 0xFD, 0x20, 0x8002, 2, []⟩ := by decide

theorem test_bpl_T129 : result [] (bench 0x00 0x00 0x00 0xFD 0x20 0x8000 []
      [(0x8000, 0x10), (0x8001, 0x04)]) =
    some ⟨0x00, 0x00, 0x00, 0xFD, 0x20, 0x8006, 3, []⟩ := by decide

theorem test_bpl_T130 : result [] (bench 0x00 0x00 0x00 0xFD 0xA0 0x8000 []
      [(0x8000, 0x10), (0x8001, 0x04)]) =
    some ⟨0x00, 0x00, 0x00, 0xFD, 0xA0, 0x8002, 2, []⟩ := by decide

theorem test_bvc_T131 : result [] (bench 0x00 0x00 0x00 0xFD 0x20 0x8000 []
      [(0x8000, 0x50), (0x8001, 0x04)]) =
    some ⟨0x00, 0x00, 0x00, 0xFD, 0x20, 0x8006, 3, []⟩ := by decide

theorem test_bvc_T132 : result [] (bench 0x00 0x00 0x00 0xFD 0x60 0x8000 []
      [(0x8000, 0x50), (0x8001, 0x04)]) =
    some ⟨0x00, 0x00, 0x00, 0xFD, 0x60, 0x8002, 2, []⟩ := by decide

theorem test_bvs_T133 : result [] (bench 0x00 0x00 0x00 0xFD 0x60 0x8000 []
      [(0x8000, 0x70), (0x8001, 0x04)]) =
    some ⟨0x00, 0x00, 0x00, 0xFD, 0x60, 0x8006, 3, []⟩ := by decide

theorem test_bvs_T134 : result [] (bench 0x00 0x00 0x00 0xFD 0x20 0x8000 []
      [(0x8000, 0x70), (0x8001, 0x04)]) =
    some ⟨0x00, 0x00, 0x00, 0xFD, 0x20, 0x8002, 2, []⟩ := by decide

theorem test_jmp_T135 : result [] (bench 0x00 0x00 0x00 0xFD 0x20 0x8000 []
      [(0x8000, 0x4C), (0x8001, 0x34), (0x8002, 0x12)]) =
    some ⟨0x00, 0x00, 0x00, 0xFD, 0x20, 0x1234, 3, []⟩ := by decide

theorem test_jmp_T137 : result [] (bench 0x00 0x00 0x00 0xFD 0x20 0x8000 []
      [(0x1000, 0x12), (0x10FF, 0x34), (0x1100, 0x56), (0x8000, 0x6C), (0x8001, 0xFF), (0x8002, 0x10)]) =
    some ⟨0x00, 0x00, 0x00, 0xFD, 0x20, 0x1234, 5, []⟩ := by decide

theorem test_jsr_T139 : result [0x01FD, 0x01FC]
    (bench 0x00 0x00 0x00 0xFD 0x20 0x80FE []
      [(0x80FE, 0x20), (0x80FF, 0x34), (0x8100, 0x12)]) =
    some ⟨0x00, 0x00, 0x00, 0xFB, 0x20, 0x1234, 6, [0x81, 0x00]⟩ := by decide

theorem test_jsr_T140 : result [0x0100, 0x01FF]
    (bench 0x00 0x00 0x00 0x00 0x20 0x8000 []
      [(0x8000, 0x20), (0x8001, 0x34), (0x8002, 0x12)]) =
    some ⟨0x00, 0x00, 0x00, 0xFE, 0x20, 0x1234, 6, [0x80, 0x02]⟩ := by decide

theorem test_rts_T141 : result [] (bench 0x00 0x00 0x00 0xFB 0x20 0x8000 []
      [(0x01FC, 0x02), (0x01FD, 0x80), (0x8000, 0x60)]) =
    some ⟨0x00, 0x00, 0x00, 0xFD, 0x20, 0x8003, 6, []⟩ := by decide

theorem test_rts_T142 : result [] (bench 0x00 0x00 0x00 0xFB 0x20 0x8000 []
      [(0x01FC, 0xFF), (0x01FD, 0xFF), (0x8000, 0x60)]) =
    some ⟨0x00, 0x00, 0x00, 0xFD, 0x20, 0x0000, 6, []⟩ := by decide

theorem test_brk_T143 : result [0x01FD, 0x01FC, 0x01FB]
    (bench 0x00 0x00 0x00 0xFD 0x20 0x8000 []
      [(0x8000, 0x00), (0xFFFE, 0x00), (0xFFFF, 0x90)]) =
    some ⟨0x00, 0x00, 0x00, 0xFA, 0x24, 0x9000, 7, [0x80, 0x02, 0x30]⟩ := by decide

theorem test_brk_T144 : result [0x01FD, 0x01FC, 0x01FB]
    (bench 0x00 0x00 0x00 0xFD 0xA5 0x8000 []
      [(0x8000, 0x00), (0xFFFE, 0x00), (0xFFFF, 0x90)]) =
    some ⟨0x00, 0x00, 0x00, 0xFA, 0xA5, 0x9000, 7, [0x80, 0x02, 0xB5]⟩ := by decide

theorem test_rti_T146 : result [] (bench 0x00 0x00 0x00 0xFA 0x24 0x8000 []
      [(0x01FB, 0xFF), (0x01FC, 0x34), (0x01FD, 0x12), (0x8000, 0x40)]) =
    some ⟨0x00, 0x00, 0x00, 0xFD, 0xEF, 0x1234, 6, []⟩ := by decide

theorem test_rti_T147 : result [] (bench 0x00 0x00 0x00 0xFA 0x24 0x8000 []
      [(0x01FB, 0x00), (0x01FC, 0x34), (0x01FD, 0x12), (0x8000, 0x40)]) =
    some ⟨0x00, 0x00, 0x00, 0xFD, 0x20, 0x1234, 6, []⟩ := by decide

theorem test_sec_T148 : result [] (bench 0x00 0x00 0x00 0xFD 0x20 0x8000 []
      [(0x8000, 0x38)]) =
    some ⟨0x00, 0x00, 0x00, 0xFD, 0x21, 0x8001, 2, []⟩ := by decide

theorem test_clc_T149 : result [] (bench 0x00 0x00 0x00 0xFD 0xE3 0x8000 []
      [(0x8000, 0x18)]) =
    some ⟨0x00, 0x00, 0x00, 0xFD, 0xE2, 0x8001, 2, []⟩ := by decide

theorem test_sei_T150 : result [] (bench 0x00 0x00 0x00 0xFD 0x20 0x8000 []
      [(0x8000, 0x78)]) =
    some ⟨0x00, 0x00, 0x00, 0xFD, 0x24, 0x8001, 2, []⟩ := by decide

theorem test_cli_T151 : result [] (bench 0x00 0x00 0x00 0xFD 0x24 0x8000 []
      [(0x8000, 0x58)]) =
    some ⟨0x00, 0x00, 0x00, 0xFD, 0x20, 0x8001, 2, []⟩ := by decide

theorem test_sed_T152 : result [] (bench 0x00 0x00 0x00 0xFD 0x20 0x8000 []
      [(0x8000, 0xF8)]) =
    some ⟨0x00, 0x00, 0x00, 0xFD, 0x28, 0x8001, 2, []⟩ := by decide

theorem test_cld_T153 : result [] (bench 0x00 0x00 0x00 0xFD 0x28 0x8000 []
      [(0x8000, 0xD8)]) =
    some ⟨0x00, 0x00, 0x00, 0xFD, 0x20, 0x8001, 2, []⟩ := by decide

theorem test_clv_T154 : result [] (bench 0x00 0x00 0x00 0xFD 0x60 0x8000 []
      [(0x8000, 0xB8)]) =
    some ⟨0x00, 0x00, 0x00, 0xFD, 0x20, 0x8001, 2, []⟩ := by decide

theorem test_bit_T157 : result [] (bench 0xC0 0x00 0x00 0xFD 0x20 0x8000 []
      [(0x0010, 0xC0), (0x8000, 0x24), (0x8001, 0x10)]) =
    some ⟨0xC0, 0x00, 0x00, 0xFD, 0xE0, 0x8002, 3, []⟩ := by decide

theorem test_bit_T158 : result [] (bench 0x0F 0x00 0x00 0xFD 0xE0 0x8000 []
      [(0x0010, 0x3F), (0x8000, 0x24), (0x8001, 0x10)]) =
    some ⟨0x0F, 0x00, 0x00, 0xFD, 0x20, 0x8002, 3, []⟩ := by decide

theorem test_nop_T160 : result [] (bench 0x12 0x00 0x00 0xFD 0xE3 0x8000 []
      [(0x8000, 0xEA)]) =
    some ⟨0x12, 0x00, 0x00, 0xFD, 0xE3, 0x8001, 2, []⟩ := by decide

theorem test_nop_T164 : result [] (bench 0x00 0x00 0x00 0xFD 0x20 0x8000 [0x1A, 0xFC]
      [(0x8000, 0x1A), (0x8001, 0x55)]) =
    some ⟨0x00, 0x00, 0x00, 0xFD, 0x20, 0x8002, 3, []⟩ := by decide

theorem test_xxx_T161 : result [] (bench 0x12 0x00 0x00 0xFD 0xE3 0x8000 []
      [(0x8000, 0x02)]) =
    some ⟨0x12, 0x00, 0x00, 0xFD, 0xE3, 0x8001, 1, []⟩ := by decide

theorem test_xxx_T163 : result [] (bench 0x00 0x00 0x00 0xFD 0x20 0x8000 []
      [(0x8000, 0x1A)]) =
    some ⟨0x00, 0x00, 0x00, 0xFD, 0x20, 0x8001, 1, []⟩ := by decide

/-! ## Host events (spec/95_test_vectors.md E1 to E12) -/

theorem test_reset_E1 : result [] { bench 0x12 0x34 0x56 0x10 0xFF 0x1234 [] [(0xFFFD, 0x80)] with
      cyclesRemaining := 3, hostEvents := [.reset] } =
    some ⟨0x00, 0x00, 0x00, 0xFD, 0x20, 0x8000, 9, []⟩ := by decide

theorem test_irq_E5 : result [0x01FD, 0x01FC, 0x01FB]
      { bench 0 0 0 0xFD 0x30 0x8006 [] [(0xFFFF, 0x90)] with hostEvents := [.irq] } =
    some ⟨0x00, 0x00, 0x00, 0xFA, 0x34, 0x9000, 8, [0x80, 0x06, 0x20]⟩ := by decide

theorem test_irq_wraps_E6 : result [0x0101, 0x0100, 0x01FF]
      { bench 0 0 0 0x01 0x20 0x12FF [] [(0xFFFF, 0x90)] with hostEvents := [.irq] } =
    some ⟨0x00, 0x00, 0x00, 0xFE, 0x24, 0x9000, 8, [0x12, 0xFF, 0x20]⟩ := by decide

theorem test_irq_masked_E4 : result []
      { bench 0x01 0 0 0xFD 0x27 0x8006 [] [(0xFFFF, 0x90)] with hostEvents := [.irq] } =
    some ⟨0x01, 0x00, 0x00, 0xFD, 0x27, 0x8006, 1, []⟩ := by decide

theorem test_nmi_E7 : result [0x01FA, 0x01F9, 0x01F8]
      { bench 0 0 0 0xFA 0x27 0x9000 [] [(0xFFFB, 0xA0)] with hostEvents := [.nmi] } =
    some ⟨0x00, 0x00, 0x00, 0xF7, 0x27, 0xA000, 9, [0x90, 0x00, 0x27]⟩ := by decide

theorem test_idle_E9 : result [] { bench 0 0 0 0xFD 0x20 0x8000 [] [] with cyclesRemaining := 3 } =
    some ⟨0x00, 0x00, 0x00, 0xFD, 0x20, 0x8000, 3, []⟩ := by decide

theorem test_refused_E11 :
    refusal { bench 0 0 0 0 0x20 0 [] [] with cyclesRemaining := 3, hostEvents := [.irq] } =
      some .irqMidInstruction ∧
    refusal { bench 0 0 0 0 0x20 0 [] [] with cyclesRemaining := 3, hostEvents := [.nmi] } =
      some .nmiMidInstruction := by decide

theorem test_refused_E12 : refusal (State.powerOn [] Params.default) = some .clockBeforeReset ∧
    refusal { State.powerOn [] Params.default with hostEvents := [.irq] } = some .irqBeforeReset ∧
    refusal { State.powerOn [] Params.default with hostEvents := [.nmi] } = some .nmiBeforeReset := by
  decide

/-- E10, placed by `withFetchWord` right after reset. -/
theorem test_with_fetch_word : result []
      (({ State.reset with pc := 0x8000 }.store 0x1234 0x99).withFetchWord 24 0x1234AD) =
    some ⟨0x99, 0x00, 0x00, 0xFD, 0xA0, 0x8003, 4, []⟩ := by decide

/-- The transactions of step 3 of program P4 (spec/95). -/
theorem test_bus_of_brk_P4 :
    (bench 0x01 0 0 0xFD 0x20 0x8002 [] [(0xFFFF, 0x90)]).eventBus .clock =
      [.read 0x8002 0x00, .write 0x01FD 0x80, .write 0x01FC 0x04, .write 0x01FB 0x30,
       .read 0xFFFE 0x00, .read 0xFFFF 0x90] := by decide

/-- The transactions of step 2 of program P3 (spec/95). -/
theorem test_bus_of_lda_izy_P3 :
    (bench 0 0 0 0xFD 0x22 0x0402 []
      [(0x0402, 0xB1), (0x0403, 0x10), (0x0010, 0xFE), (0x0011, 0x12), (0x12FE, 0x11)]).eventBus .clock =
      [.read 0x0402 0xB1, .read 0x0403 0x10, .read 0x0010 0xFE, .read 0x0011 0x12,
       .read 0x12FE 0x11] := by decide

/-! ## States and operands that meet the hypotheses of the obligations -/

/-- `LDA $1234` at 0x8000, at a boundary. -/
def ldaState : State :=
  bench 0 0 0 0xFD 0x20 0x8000 [] [(0x8000, 0xAD), (0x8001, 0x34), (0x8002, 0x12), (0x1234, 0x99)]

/-- A boundary with a handler of one RTI at 0x9000 for both vectors, and I = 0. -/
def rtiState : State :=
  bench 0x01 0x02 0x03 0xFD 0x20 0x8006 [] [(0xFFFF, 0x90), (0xFFFB, 0x90), (0x9000, 0x40)]

theorem witness_DecodeOfEncodeIsTheInstruction :
    (Instr.lda (.abs 0xFFFF)).wellFormed [] = true ∧ (Instr.xxx 0xFF).wellFormed [] = true ∧
    (Instr.nop (.variant 0x02 0xFF)).wellFormed [0x02] = true := by decide

theorem witness_DecodedBytesAreTheEncoding :
    decode [0x02] [0xAD, 0x34, 0x12, 0x55] = .ok (.lda (.abs 0x1234), [0x55]) := rfl

theorem witness_EveryOpcodeByteDecodes :
    ((0xFF : Byte) ∈ undocumentedBytes ∧ (0xFF : Byte) ∈ [(0xFF : Byte)]) ∧
    ((0x02 : Byte) ∈ undocumentedBytes ∧ (0x02 : Byte) ∉ [(0xFF : Byte)]) ∧
    (0x00 : Byte) ∉ undocumentedBytes := by decide

theorem holds_ldaState : ldaState.holds (.lda (.abs 0x1234)) := by
  intro k hk
  have : k < 3 := hk
  interval_cases k <;> decide

theorem witness_StepRunsTheInstructionAtPc :
    (ldaState.resetSeen = true ∧ ldaState.cyclesRemaining = 0 ∧
      (Instr.lda (.abs 0x1234)).wellFormed ldaState.params.nopVariants = true ∧
      ldaState.holds (.lda (.abs 0x1234)) ∧ ldaState.hostEvents = []) ∧
    ({ ldaState with hostEvents := [.clock] } : State).holds (.lda (.abs 0x1234)) :=
  ⟨⟨rfl, rfl, rfl, holds_ldaState, rfl⟩, holds_ldaState⟩

theorem witness_IdleClockOnlyCountsDown : State.reset.resetSeen = true ∧ State.reset.hostEvents = [] ∧
    State.reset.cyclesRemaining ≠ 0 := by decide

theorem witness_ResetEventSetsEveryRegister :
    ({ ldaState with hostEvents := [.reset, .clock] } : State).hostEvents = .reset :: [.clock] := rfl

theorem witness_StepStopsExactlyOutsideTheHostContract :
    (let s := State.powerOn [] Params.default
     s.resetSeen = false ∧ s.nextHostEvent = .clock) ∧
    (let s := { State.powerOn [] Params.default with hostEvents := [.irq] }
     s.resetSeen = false ∧ s.nextHostEvent = .irq) ∧
    (let s := { State.powerOn [] Params.default with hostEvents := [.nmi] }
     s.resetSeen = false ∧ s.nextHostEvent = .nmi) ∧
    (let s := { State.reset with hostEvents := [.irq] }
     s.resetSeen = true ∧ s.complete = false ∧ s.nextHostEvent = .irq) ∧
    (let s := { State.reset with hostEvents := [.nmi], cyclesRemaining := 1 }
     s.resetSeen = true ∧ s.complete = false ∧ s.nextHostEvent = .nmi) := by decide

theorem witness_EveryStepKeepsTheRunInvariant :
    ∃ t, ldaState.Inv ∧ step ldaState = .next t :=
  ⟨_, ⟨by decide, by decide, by decide, by decide, by decide⟩, rfl⟩

theorem witness_EveryStepKeepsTheRunInvariant_before_reset :
    ∃ t, ({ State.powerOn [] Params.default with hostEvents := [.write 0xFFFD 0x80] } : State).Inv ∧
      step { State.powerOn [] Params.default with hostEvents := [.write 0xFFFD 0x80] } = .next t :=
  ⟨_, ⟨by decide, by decide, by decide, by decide, by decide⟩, rfl⟩

theorem witness_InstructionOccupiesItsClocks :
    ldaState.resetSeen = true ∧ ldaState.hostEvents = [] ∧ ldaState.cyclesRemaining = 0 := by decide

theorem witness_MemoryReadsTheLastWrite :
    (0xFFFF : Addr) ≠ 0x0000 ∧ Memory.wf [(0, 0x01), (65535, 0xFF)] = true ∧
    ∀ a, Memory.read [(0, 0x01), (65535, 0xFF)] a = Memory.read [(0, 0x01), (65535, 0xFF)] a :=
  ⟨by decide, by decide, fun _ => rfl⟩

theorem witness_ImpliedAndIndirectResolvers :
    ∃ ptr : Nat, ptr = (ldaState.load (BitVec.ofNat 16 (((0xFF : Byte).toNat + 1) % 256))).toNat * 256 +
      (ldaState.load (BitVec.ofNat 16 (0xFF : Byte).toNat)).toNat := ⟨_, rfl⟩

theorem witness_DecimalFlagHasNoEffect :
    (Instr.adc (.imm 0x09) = .adc (.imm 0x09) ∨ Instr.adc (.imm 0x09) = .sbc (.imm 0x09)) ∧
    (Instr.sbc (.imm 0x09) = .adc (.imm 0x09) ∨ Instr.sbc (.imm 0x09) = .sbc (.imm 0x09)) := by decide

theorem witness_NineRotatesRestore :
    (Instr.rol .acc = .rol .acc ∨ Instr.rol .acc = .ror .acc) ∧
    (Instr.ror .acc = .rol .acc ∨ Instr.ror .acc = .ror .acc) := by decide

theorem witness_ShiftsAndRotates_both_forms :
    ShiftMode.acc = .acc ∧ ShiftMode.abx 0xFFFF ≠ .acc := by decide

theorem witness_BranchInstructions_taken_and_not :
    getFlag ldaState.p .C = false ∧ getFlag ldaState.p .Z ≠ true := by decide

theorem witness_IrqEntersOrIsSuppressed :
    (let s := { rtiState with hostEvents := [.irq] }
     s.hostEvents = .irq :: [] ∧ s.resetSeen = true ∧ s.complete = true ∧ getFlag s.p .I = false) ∧
    (let s := { rtiState with hostEvents := [.irq], p := 0x24 }
     s.hostEvents = .irq :: [] ∧ s.resetSeen = true ∧ s.complete = true ∧ getFlag s.p .I = true) := by
  decide

theorem witness_NmiAlwaysEnters :
    let s := { rtiState with hostEvents := [.nmi] }
    s.hostEvents = .nmi :: [] ∧ s.resetSeen = true ∧ s.complete = true := by decide

theorem witness_InterruptEntryKeepsTheStoredBreakFlag :
    (HostEvent.irq = .irq ∧ getFlag rtiState.p .I = false ∨ HostEvent.irq = .nmi) ∧
    (HostEvent.nmi = .irq ∧ getFlag rtiState.p .I = false ∨ HostEvent.nmi = .nmi) := by decide

theorem witness_HandlerReturn_irq :
    ∃ t, getFlag rtiState.p .I = false ∧ getFlag rtiState.p .U = true ∧ rtiState.complete = true ∧
      step { rtiState with hostEvents := [.irq] } = .next t ∧ t.instrAtPc = .rti :=
  ⟨_, by decide, by decide, by decide, rfl, by decide⟩

theorem witness_HandlerReturn_nmi :
    ∃ t, getFlag rtiState.p .U = true ∧ rtiState.complete = true ∧
      step { rtiState with hostEvents := [.nmi] } = .next t ∧ t.instrAtPc = .rti :=
  ⟨_, by decide, by decide, rfl, by decide⟩

/-- Of the four statements about every instruction that has a next state. -/
theorem witness_FrameOfEveryInstruction :
    (∃ t, exec (.sta (.abs 0xFFFF)) ldaState = .next t) ∧ ∃ t, exec .brk ldaState = .next t :=
  ⟨⟨_, rfl⟩, ⟨_, rfl⟩⟩

theorem witness_TransientsAfterEveryInstruction :
    (∃ t, exec (.beq 0x04) ldaState = .next t) ∧ ∃ t, exec (.bne 0x04) ldaState = .next t :=
  ⟨⟨_, rfl⟩, ⟨_, rfl⟩⟩

theorem witness_SequentialInstructionsFallThrough :
    ∃ t, exec (.lda (.abs 0x1234)) ldaState = .next t ∧ transfersControl (.lda (.abs 0x1234)) = false :=
  ⟨_, rfl, rfl⟩

theorem witness_CountAfterEveryInstruction : ∃ t, exec (.xxx 0x02) ldaState = .next t := ⟨_, rfl⟩

theorem witness_BaseCyclesChangeNoResult :
    let s := { ldaState with params := { ldaState.params with baseOverrides := [(0xAD, 7)] } }
    s.untimed = ldaState.untimed ∧ s ≠ ldaState := by decide

theorem witness_TransientsInfluenceNothing :
    let s := { ldaState with opcode := 0xFF, fetched := 0xFF, addrAbs := 0xFFFF, addrRel := 0xFFFF,
                             isImplied := true }
    s.untransient = ldaState.untransient ∧ s ≠ ldaState := by decide

theorem witness_BusTransactionsGiveTheMemory :
    (∃ t, hostEvent .clock ldaState = .next t) ∧ (∃ t, hostEvent .reset ldaState = .next t) ∧
    (∃ t, hostEvent .irq ldaState = .next t) ∧ (∃ t, hostEvent .nmi ldaState = .next t) ∧
    ∀ a v, HostEvent.clock ≠ .write a v :=
  ⟨⟨_, rfl⟩, ⟨_, rfl⟩, ⟨_, rfl⟩, ⟨_, rfl⟩, by intro a v h; cases h⟩

end Sys2Proof.Machine
end

section
/-! The frame of every instruction (spec/10_state.md R37). `Spares` says what an update of the state leaves as
it was; each operation of the model gets one `Spares` lemma, and `of_entered`, `of_fetchedBy` and
`kept_finishInstr` carry it through the frame every instruction runs in (R111). -/

namespace Sys2Proof.Machine

/-! ## What an update leaves as it was -/

/-- The update from `s` to `t` writes no register but `rs`, no flag but `fs` and U, no byte of memory but
those at `as`, and nothing of the model's own. It is `Kept` with `MemKept` but for the clause that U is 1,
which holds only where an instruction ends. -/
structure Spares (rs : List Reg) (fs : List Flag) (as : List Addr) (s t : State) : Prop where
  reg : ∀ r, r ∉ rs → t.reg r = s.reg r := by exact fun _ _ => rfl
  flag : ∀ f, f ∉ fs → f ≠ .U → getFlag t.p f = getFlag s.p f := by exact fun _ _ _ => rfl
  mem : MemKept as s t := by exact fun _ _ => rfl
  params : t.params = s.params := by rfl
  resetSeen : t.resetSeen = s.resetSeen := by rfl
  hostEvents : t.hostEvents = s.hostEvents := by rfl

namespace Spares

variable {rs : List Reg} {fs : List Flag} {as : List Addr} {s t u : State}

theorem refl (s : State) : Spares [] [] [] s s where

/-- An update may be preceded by one that writes only PC, U, the transients and the count. -/
theorem after_nil (h₁ : Spares [] [] [] s u) (h₂ : Spares rs fs as u t) : Spares rs fs as s t where
  reg r hr := (h₂.reg r hr).trans (h₁.reg r List.not_mem_nil)
  flag f hf hU := (h₂.flag f hf hU).trans (h₁.flag f List.not_mem_nil hU)
  mem a ha := (h₂.mem a ha).trans (h₁.mem a List.not_mem_nil)
  params := h₂.params.trans h₁.params
  resetSeen := h₂.resetSeen.trans h₁.resetSeen
  hostEvents := h₂.hostEvents.trans h₁.hostEvents

/-- The end of an instruction forces U and writes nothing else of the frame (R111, step 7). -/
theorem kept_finishInstr (h : Spares rs fs as s u) (n : Nat) :
    Kept rs fs s (u.finishInstr n) ∧ MemKept as s (u.finishInstr n) := by
  have hflag : ∀ f, f ∉ fs → f ≠ .U → getFlag (u.finishInstr n).p f = getFlag s.p f := fun f hf hU => by
    rw [State.finishInstr_p, getFlag_setFlag_other _ _ hU, h.flag f hf hU]
  have hU : getFlag (u.finishInstr n).p .U = true := by simp
  exact ⟨⟨h.reg, hflag, hU, h.params, h.resetSeen, h.hostEvents⟩, h.mem⟩

/-- An update of P alone. -/
theorem set_p {p : Byte} (h : ∀ f, f ∉ fs → f ≠ .U → getFlag p f = getFlag s.p f) :
    Spares [] fs [] s { s with p := p } where
  flag := h

end Spares

/-! ## The frame every instruction runs in -/

theorem entered_spares (s : State) (i : Instr) : Spares [] [] [] s (s.entered i) where
  flag f _ hU := by rw [State.entered_p, getFlag_setFlag_other _ _ hU]

theorem fetchedBy_spares (s : State) (i : Instr) : Spares [] [] [] s (s.fetchedBy i) where
  reg r _ := by cases r <;> simp [State.reg]
  flag f _ hU := by rw [State.fetchedBy_p, getFlag_setFlag_other _ _ hU]
  mem a _ := s.fetchedBy_load i a
  params := s.fetchedBy_params i
  resetSeen := s.fetchedBy_resetSeen i
  hostEvents := s.fetchedBy_hostEvents i

namespace Spares

variable {rs : List Reg} {fs : List Flag} {as : List Addr} {s u : State} {i : Instr}

/-- What an operation leaves, its instruction leaves (R111). -/
theorem of_entered (h : Spares rs fs as (s.entered i) u) : Spares rs fs as s u :=
  (entered_spares s i).after_nil h

/-- The same for an operation that fetches its operand (R146). -/
theorem of_fetchedBy (h : Spares rs fs as (s.fetchedBy i) u) : Spares rs fs as s u :=
  (fetchedBy_spares s i).after_nil h

end Spares

/-! ## Operations on the registers and on P -/

theorem addWithCarry_spares (m : Byte) (s : State) :
    Spares [.A] [.C, .V, .Z, .N] [] s (addWithCarry m s) where
  reg r hr := by cases r <;> simp_all [State.reg, addWithCarry]
  flag f hf _ := by simp_all [addWithCarry, getFlag_addFlags]

theorem getFlag_setZN_other (p v : Byte) {f : Flag} (h : f ∉ [Flag.Z, .N]) :
    getFlag (setZN p v) f = getFlag p f := by
  simp_all [getFlag_setZN]

theorem loadA_spares (v : Byte) (s : State) : Spares [.A] [.Z, .N] [] s (loadA v s) where
  reg r hr := by cases r <;> simp_all [State.reg, loadA]
  flag _ hf _ := getFlag_setZN_other s.p v hf

theorem loadX_spares (v : Byte) (s : State) : Spares [.X] [.Z, .N] [] s (loadX v s) where
  reg r hr := by cases r <;> simp_all [State.reg, loadX]
  flag _ hf _ := getFlag_setZN_other s.p v hf

theorem loadY_spares (v : Byte) (s : State) : Spares [.Y] [.Z, .N] [] s (loadY v s) where
  reg r hr := by cases r <;> simp_all [State.reg, loadY]
  flag _ hf _ := getFlag_setZN_other s.p v hf

theorem set_sp_spares (v : Byte) (s : State) : Spares [.SP] [] [] s { s with sp := v } where
  reg r hr := by cases r <;> simp_all [State.reg]

theorem compare_spares (reg m : Byte) (s : State) :
    Spares [] [.C, .Z, .N] [] s { s with p := compareFlags s.p reg m } :=
  .set_p fun f hf _ => by simp_all [getFlag_compareFlags]

theorem bit_spares (m : Byte) (s : State) :
    Spares [] [.Z, .N, .V] [] s { s with p := bitFlags s.p s.a m } :=
  .set_p fun f hf _ => by simp_all [getFlag_bitFlags]

theorem writeFlag_spares (f : Flag) (b : Bool) (s : State) : Spares [] [f] [] s (writeFlag f b s) :=
  .set_p fun _ hg _ => getFlag_setFlag_other s.p b (List.ne_of_not_mem_cons hg)

theorem set_pc_spares (pc : Addr) (s : State) : Spares [] [] [] s { s with pc := pc } where

theorem branch_spares (c : State → Bool) (s : State) : Spares [] [] [] s (branch c s).1 := by
  cases h : c s with
  | false => rw [branch_not_taken h]; exact .refl s
  | true => rw [branch_taken h]; exact {}

/-! ## Operations on memory at the resolved address -/

theorem store_spares (a : Addr) (v : Byte) (s : State) : Spares [] [] [a] s (s.store a v) where
  reg r _ := by cases r <;> rfl
  mem b hb := by rw [State.load_store, if_neg (List.ne_of_not_mem_cons hb).symm]

theorem storeZN_spares (v : Byte) (s : State) : Spares [] [.Z, .N] [s.addrAbs] s (storeZN v s) where
  reg r _ := by cases r <;> rfl
  flag _ hf _ := getFlag_setZN_other s.p v hf
  mem := (store_spares s.addrAbs v s).mem

/-- A shift writes back to A under the implied mode, to memory under every other (R147, R180). -/
theorem shiftEffect_spares (r : Byte × Bool) (s : State) :
    Spares (if s.isImplied then [.A] else []) [.C, .Z, .N] (if s.isImplied then [] else [s.addrAbs]) s
      (shiftEffect r s) where
  reg q hq := by cases q <;> simp_all [State.reg, shiftEffect]
  flag f hf _ := by simp_all [shiftEffect, getFlag_shiftFlags]
  mem a ha := by
    cases h : s.isImplied with
    | true => simp [shiftEffect, State.load, h]
    | false =>
      have hne : s.addrAbs ≠ a := by simpa [h, eq_comm] using ha
      simp [shiftEffect, State.load, h, Memory.read_write_other _ _ hne]
  params := by simp [shiftEffect]
  resetSeen := by simp [shiftEffect]
  hostEvents := by simp [shiftEffect]

theorem entered_store_spares (i : Instr) (s : State) (hi : ∀ v, i.operand ≠ .imm v) (v : Byte) :
    Spares [] [] [s.operandAddress i.operand] (s.entered i)
      ((s.entered i).store (s.entered i).addrAbs v) :=
  s.entered_addrAbs i hi ▸ store_spares _ v _

theorem fetchedBy_storeZN_spares (i : Instr) (s : State) (hi : ∀ v, i.operand ≠ .imm v) (v : Byte) :
    Spares [] [.Z, .N] [s.operandAddress i.operand] (s.fetchedBy i) (storeZN v (s.fetchedBy i)) :=
  s.fetchedBy_addrAbs i hi ▸ storeZN_spares v _

theorem ShiftMode.toOperand_eq_imp {m : ShiftMode} : m.toOperand = .imp ↔ m = .acc := by
  cases m <;> simp [ShiftMode.toOperand]

theorem fetchedBy_shiftEffect_spares {i : Instr} {m : ShiftMode} (s : State)
    (hi : i.operand = m.toOperand) (r : Byte × Bool) :
    Spares (if m = .acc then [.A] else []) [.C, .Z, .N]
      (if m = .acc then [] else [s.operandAddress m.toOperand]) (s.fetchedBy i)
      (shiftEffect r (s.fetchedBy i)) := by
  have haddr : (s.fetchedBy i).addrAbs = s.operandAddress m.toOperand := by
    rw [s.fetchedBy_addrAbs i (hi ▸ ShiftMode.toOperand_ne_imm m), hi]
  simpa [haddr, hi, ShiftMode.toOperand_eq_imp] using shiftEffect_spares r (s.fetchedBy i)

/-! ## Operations on the stack -/

theorem push8_spares (v : Byte) (s : State) : Spares [.SP] [] [stackSlot s.sp] s (s.push8 v) where
  reg r hr := by cases r <;> simp_all [State.reg]
  mem := (store_spares (stackSlot s.sp) v s).mem

/-- JSR: the return address is pushed and PC loaded (R252). -/
theorem push16_spares (w pc : Addr) (s : State) :
    Spares [.SP] [] [stackSlot s.sp, stackSlot (s.sp - 1)] s { s.push16 w with pc := pc } where
  reg r hr := by cases r <;> simp_all [State.reg]
  mem a ha := by
    obtain ⟨h₀, h₁⟩ : a ≠ stackSlot s.sp ∧ a ≠ stackSlot (s.sp - 1) := by simpa using ha
    exact (s.load_push16 w a).trans (by rw [if_neg h₁.symm, if_neg h₀.symm])

/-- RTS: the return address is popped (R253). -/
theorem pop16_spares (pc : Addr) (s : State) : Spares [.SP] [] [] s { s.pop16.2 with pc := pc } where
  reg r hr := by cases r <;> simp_all [State.reg]

/-- PLA (R231). -/
theorem loadA_pop8_spares (s : State) : Spares [.A, .SP] [.Z, .N] [] s (loadA s.pop8.1 s.pop8.2) where
  reg r hr := by cases r <;> simp_all [State.reg, loadA]
  flag _ hf _ := getFlag_setZN_other s.p s.pop8.1 hf

/-- The flags PLP and RTI may write are all but U (R37). -/
theorem mem_flags_of_ne_U {f : Flag} (h : f ≠ .U) : f ∈ [Flag.C, .Z, .I, .D, .B, .V, .N] := by
  cases f <;> simp_all

/-- PLP may write every flag but U (R233). -/
theorem pop8_set_p_spares (p : Byte) (s : State) :
    Spares [.SP] [.C, .Z, .I, .D, .B, .V, .N] [] s { s.pop8.2 with p := p } where
  reg r hr := by cases r <;> simp_all [State.reg]
  flag _ hf hU := absurd (mem_flags_of_ne_U hU) hf

theorem takeException_spares (vec ret : Addr) (st : Byte) (s : State) :
    Spares [.SP] [.I] [stackSlot s.sp, stackSlot (s.sp - 1), stackSlot (s.sp - 2)] s
      (s.takeException vec ret st) where
  reg r hr := by cases r <;> simp_all [State.reg]
  flag f hf _ := by
    rw [State.takeException_p, getFlag_setFlag_other s.p true (List.ne_of_not_mem_cons hf)]
  mem a ha := by
    obtain ⟨h₀, h₁, h₂⟩ : a ≠ stackSlot s.sp ∧ a ≠ stackSlot (s.sp - 1) ∧ a ≠ stackSlot (s.sp - 2) := by
      simpa using ha
    rw [State.load_takeException, if_neg h₂.symm, if_neg h₁.symm, if_neg h₀.symm]
  params := s.takeException_params vec ret st
  resetSeen := s.takeException_resetSeen vec ret st
  hostEvents := s.takeException_hostEvents vec ret st

theorem returnFromException_spares (s : State) :
    Spares [.SP] [.C, .Z, .I, .D, .B, .V, .N] [] s s.returnFromException where
  reg r hr := by cases r <;> simp_all [State.reg]
  flag _ hf hU := absurd (mem_flags_of_ne_U hU) hf
  mem a _ := State.load_congr s.returnFromException_mem a
  params := s.returnFromException_params
  resetSeen := s.returnFromException_resetSeen
  hostEvents := s.returnFromException_hostEvents

/-! ## The obligation -/

/-- Every instruction ends in `finishInstr` of a state that keeps what the tables of R20, R37 and R148 leave
out for it: its operation is one of those above. -/
theorem exec_spares (i : Instr) (s : State) : ∃ u n, exec i s = .next (u.finishInstr n) ∧
    Spares (regsWritten i) (flagsWritten i) (s.storedTo i) s u := by
  cases i with
  -- registers and flags
  | adc m => exact ⟨_, _, exec_adc m s, (addWithCarry_spares _ _).of_fetchedBy⟩
  | sbc m => exact ⟨_, _, exec_sbc m s, (addWithCarry_spares _ _).of_fetchedBy⟩
  | and m => exact ⟨_, _, exec_and m s, (loadA_spares _ _).of_fetchedBy⟩
  | ora m => exact ⟨_, _, exec_ora m s, (loadA_spares _ _).of_fetchedBy⟩
  | eor m => exact ⟨_, _, exec_eor m s, (loadA_spares _ _).of_fetchedBy⟩
  | lda m => exact ⟨_, _, exec_lda m s, (loadA_spares _ _).of_fetchedBy⟩
  | ldx m => exact ⟨_, _, exec_ldx m s, (loadX_spares _ _).of_fetchedBy⟩
  | ldy m => exact ⟨_, _, exec_ldy m s, (loadY_spares _ _).of_fetchedBy⟩
  | txa => exact ⟨_, _, exec_txa s, (loadA_spares _ _).of_entered⟩
  | tya => exact ⟨_, _, exec_tya s, (loadA_spares _ _).of_entered⟩
  | tax => exact ⟨_, _, exec_tax s, (loadX_spares _ _).of_entered⟩
  | tsx => exact ⟨_, _, exec_tsx s, (loadX_spares _ _).of_entered⟩
  | inx => exact ⟨_, _, exec_inx s, (loadX_spares _ _).of_entered⟩
  | dex => exact ⟨_, _, exec_dex s, (loadX_spares _ _).of_entered⟩
  | tay => exact ⟨_, _, exec_tay s, (loadY_spares _ _).of_entered⟩
  | iny => exact ⟨_, _, exec_iny s, (loadY_spares _ _).of_entered⟩
  | dey => exact ⟨_, _, exec_dey s, (loadY_spares _ _).of_entered⟩
  | txs => exact ⟨_, _, exec_txs s, (set_sp_spares _ _).of_entered⟩
  | cmp m => exact ⟨_, _, exec_cmp m s, (compare_spares _ _ _).of_fetchedBy⟩
  | cpx m => exact ⟨_, _, exec_cpx m s, (compare_spares _ _ _).of_fetchedBy⟩
  | cpy m => exact ⟨_, _, exec_cpy m s, (compare_spares _ _ _).of_fetchedBy⟩
  | bit m => exact ⟨_, _, exec_bit m s, (bit_spares _ _).of_fetchedBy⟩
  | sec => exact ⟨_, _, exec_sec s, (writeFlag_spares _ _ _).of_entered⟩
  | clc => exact ⟨_, _, exec_clc s, (writeFlag_spares _ _ _).of_entered⟩
  | sei => exact ⟨_, _, exec_sei s, (writeFlag_spares _ _ _).of_entered⟩
  | cli => exact ⟨_, _, exec_cli s, (writeFlag_spares _ _ _).of_entered⟩
  | sed => exact ⟨_, _, exec_sed s, (writeFlag_spares _ _ _).of_entered⟩
  | cld => exact ⟨_, _, exec_cld s, (writeFlag_spares _ _ _).of_entered⟩
  | clv => exact ⟨_, _, exec_clv s, (writeFlag_spares _ _ _).of_entered⟩
  -- memory at the resolved address
  | asl m => exact ⟨_, _, exec_asl m s, (fetchedBy_shiftEffect_spares s rfl _).of_fetchedBy⟩
  | lsr m => exact ⟨_, _, exec_lsr m s, (fetchedBy_shiftEffect_spares s rfl _).of_fetchedBy⟩
  | rol m => exact ⟨_, _, exec_rol m s, (fetchedBy_shiftEffect_spares s rfl _).of_fetchedBy⟩
  | ror m => exact ⟨_, _, exec_ror m s, (fetchedBy_shiftEffect_spares s rfl _).of_fetchedBy⟩
  | inc m => exact ⟨_, _, exec_inc m s,
    (fetchedBy_storeZN_spares (.inc m) s (MemMode.toOperand_ne_imm m) _).of_fetchedBy⟩
  | dec m => exact ⟨_, _, exec_dec m s,
    (fetchedBy_storeZN_spares (.dec m) s (MemMode.toOperand_ne_imm m) _).of_fetchedBy⟩
  | sta m => exact ⟨_, _, exec_sta m s,
    (entered_store_spares (.sta m) s (StaMode.toOperand_ne_imm m) _).of_entered⟩
  | stx m => exact ⟨_, _, exec_stx m s,
    (entered_store_spares (.stx m) s (StxMode.toOperand_ne_imm m) _).of_entered⟩
  | sty m => exact ⟨_, _, exec_sty m s,
    (entered_store_spares (.sty m) s (StyMode.toOperand_ne_imm m) _).of_entered⟩
  -- the stack
  | pha => exact ⟨_, _, exec_pha s, (push8_spares _ (s.entered .pha)).of_entered⟩
  | php => exact ⟨_, _, exec_php s, (push8_spares _ (s.entered .php)).of_entered⟩
  | pla => exact ⟨_, _, exec_pla s, (loadA_pop8_spares _).of_entered⟩
  | plp => exact ⟨_, _, exec_plp s, (pop8_set_p_spares _ _).of_entered⟩
  | jsr w => exact ⟨_, _, exec_jsr w s, (push16_spares _ _ (s.entered (.jsr w))).of_entered⟩
  | rts => exact ⟨_, _, exec_rts s, (pop16_spares _ _).of_entered⟩
  | brk => exact ⟨_, _, exec_brk s, (takeException_spares _ _ _ (s.entered .brk)).of_entered⟩
  | rti => exact ⟨_, _, exec_rti s, (returnFromException_spares _).of_entered⟩
  -- PC alone, or nothing
  | bcc d => exact ⟨_, _, exec_bcc d s, (branch_spares _ _).of_entered⟩
  | bcs d => exact ⟨_, _, exec_bcs d s, (branch_spares _ _).of_entered⟩
  | beq d => exact ⟨_, _, exec_beq d s, (branch_spares _ _).of_entered⟩
  | bne d => exact ⟨_, _, exec_bne d s, (branch_spares _ _).of_entered⟩
  | bmi d => exact ⟨_, _, exec_bmi d s, (branch_spares _ _).of_entered⟩
  | bpl d => exact ⟨_, _, exec_bpl d s, (branch_spares _ _).of_entered⟩
  | bvc d => exact ⟨_, _, exec_bvc d s, (branch_spares _ _).of_entered⟩
  | bvs d => exact ⟨_, _, exec_bvs d s, (branch_spares _ _).of_entered⟩
  | jmp m => exact ⟨_, _, exec_jmp m s, (set_pc_spares _ _).of_entered⟩
  | nop m => exact ⟨_, _, exec_nop m s, entered_spares s _⟩
  | xxx op => exact ⟨_, _, exec_xxx op s, entered_spares s _⟩

/-- Settles O50: what the operation keeps, the end of the instruction keeps too. -/
theorem frameOfEveryInstruction : Obligations.FrameOfEveryInstruction := by
  intro i s t h
  obtain ⟨u, n, hexec, hu⟩ := exec_spares i s
  rw [hexec] at h
  cases h
  exact hu.kept_finishInstr n

end Sys2Proof.Machine
end

section
/-! The stack primitives (spec/20_memory.md R62 to R64) at every SP. SP moves modulo 256, so the slots it names
stay in page 1 across both wraps, and a pop undoes the push before it in all but memory. -/

namespace Sys2Proof.Machine

/-! ## One byte -/

/-- The slot address as R62 and R63 write it. -/
theorem stackSlot_eq (sp : Byte) : stackSlot sp = 0x0100 + sp.setWidth 16 := rfl

/-- SP after a push, modulo 256 (R62). -/
theorem sp_sub_one_toNat (sp : Byte) : (sp - 1).toNat = (sp.toNat + 255) % 256 := by
  rw [BitVec.toNat_sub, Nat.add_comm]
  rfl

/-- SP after a pop, modulo 256 (R63). -/
theorem sp_add_one_toNat (sp : Byte) : (sp + 1).toNat = (sp.toNat + 1) % 256 :=
  BitVec.toNat_add sp 1

/-- The byte pushed is stored at the slot SP named before (R62). -/
theorem State.load_push8_same (s : State) (v : Byte) : (s.push8 v).load (stackSlot s.sp) = v := by
  rw [State.load_push8, if_pos rfl]

/-- A pop after a push leaves the stored byte and nothing else: SP is as it was, and a pop erases nothing (R63). -/
theorem State.pop8_push8_state (s : State) (v : Byte) :
    (s.push8 v).pop8.2 = s.store (stackSlot s.sp) v := by
  have hsp : s.sp - 1 + 1 = s.sp := BitVec.sub_add_cancel s.sp 1
  simp only [State.pop8, State.push8, hsp]
  rfl

/-! ## A word, high byte first -/

/-- The high byte of a word pushed lies at the slot SP named before (R64). -/
theorem State.load_push16_hi (s : State) (w : Addr) :
    (s.push16 w).load (stackSlot s.sp) = hi8 w := by
  have hne : stackSlot (s.sp - 1) ≠ stackSlot s.sp := fun h => (sp_slots_ne s.sp).1 (stackSlot_inj.mp h)
  rw [State.load_push16, if_neg hne, if_pos rfl]

/-- The low byte of a word pushed lies at the next slot (R64). -/
theorem State.load_push16_lo (s : State) (w : Addr) :
    (s.push16 w).load (stackSlot (s.sp - 1)) = lo8 w := by
  rw [State.load_push16, if_pos rfl]

/-- A word pushed is popped whole: the first pop reads the slot of its low byte, the second that of its high
byte (R64). -/
theorem State.pop16_push16_fst (s : State) (w : Addr) : (s.push16 w).pop16.1 = w := by
  have hlo : s.sp - 1 - 1 + 1 = s.sp - 1 := BitVec.sub_add_cancel (s.sp - 1) 1
  have hhi : s.sp - 1 + 1 = s.sp := BitVec.sub_add_cancel s.sp 1
  rw [State.pop16_fst, State.push16_sp, hlo, hhi, State.load_push16_hi, State.load_push16_lo, join16_hi8_lo8]

/-- The two pops take SP back to where it was before the two pushes (R64). -/
theorem State.pop16_push16_sp (s : State) (w : Addr) : (s.push16 w).pop16.2.sp = s.sp := by
  rw [State.pop16_sp, State.push16_sp, BitVec.sub_add_cancel, BitVec.sub_add_cancel]

/-- Settles O17: a push, a pop, a pop after a push, and the same for a word. -/
theorem stackPrimitives : Obligations.StackPrimitives := by
  intro s v w
  simp only [← stackSlot_eq]
  refine ⟨⟨s.load_push8_same v, ?_, (push8_spares v s).mem⟩, ⟨?_, s.pop8_fst, s.pop8_mem⟩,
    ⟨s.pop8_push8 v, s.pop8_push8_state v⟩,
    s.load_push16_hi w, s.load_push16_lo w, s.pop16_push16_fst w, s.pop16_push16_sp w⟩
  · rw [State.push8_sp, sp_sub_one_toNat]
  · rw [State.pop8_sp, sp_add_one_toNat]

end Sys2Proof.Machine
end

section
/-! The split of the opcode bytes (spec/30_encoding.md R87): a documented byte, a byte of R90 that decodes to
XXX, or a byte of R90 that `NOP_VARIANTS` holds and that decodes to the two-byte NOP variant (R91). -/

namespace Sys2Proof

open Sys2Proof.Machine

/-! ## The table -/

theorem documentedRows_length : documentedRows.length = 151 := by decide +kernel

theorem undocumentedBytes_length : undocumentedBytes.length = 105 := by decide +kernel

theorem undocumentedBytes_nodup : undocumentedBytes.Nodup := by decide +kernel

/-- The opcode byte selects the entry: two documented entries with one byte are the same. -/
theorem documentedRows_eq_of_opcode_eq {r r' : Row} (hr : r ∈ documentedRows) (hr' : r' ∈ documentedRows)
    (h : r.opcode = r'.opcode) : r = r' :=
  List.inj_on_of_nodup_map documentedRows_nodup hr hr' h

/-! ## What an opcode byte and the two bytes after it decode to -/

/-- No instruction is longer than three bytes (R83), so three bytes always decode. -/
theorem decode_three_bytes (nv : List Byte) (op b1 b2 : Byte) (rest : List Byte) :
    decode nv (op :: b1 :: b2 :: rest) =
      .ok (decodeBytes nv op b1 b2, (b1 :: b2 :: rest).drop (decodeBytes nv op b1 b2).operand.size) := by
  have hsize : ¬ (b1 :: b2 :: rest).length < (decodeBytes nv op b1 b2).operand.size := by
    have := (decodeBytes nv op b1 b2).operand.size_le
    simp only [List.length_cons]
    omega
  exact if_neg hsize

theorem decodeBytes_variant {nv : List Byte} {op : Byte} (hu : op ∈ undocumentedBytes) (hv : op ∈ nv)
    (b1 b2 : Byte) : decodeBytes nv op b1 b2 = .nop (.variant op b1) := by
  rw [decodeBytes_undocumented (List.contains_iff_mem.mpr hu), if_pos (List.contains_iff_mem.mpr hv)]

theorem decodeBytes_xxx {nv : List Byte} {op : Byte} (hu : op ∈ undocumentedBytes) (hv : op ∉ nv)
    (b1 b2 : Byte) : decodeBytes nv op b1 b2 = .xxx op := by
  rw [decodeBytes_undocumented (List.contains_iff_mem.mpr hu), if_neg (mt List.contains_iff_mem.mp hv)]

theorem Instr.wellFormed_xxx {nv : List Byte} {op : Byte} :
    (Instr.xxx op).wellFormed nv = true ↔ op ∈ undocumentedBytes ∧ op ∉ nv := by
  simp [Instr.wellFormed]

theorem Instr.wellFormed_variant {nv : List Byte} {op v : Byte} :
    (Instr.nop (.variant op v)).wellFormed nv = true ↔ op ∈ undocumentedBytes ∧ op ∈ nv := by
  simp [Instr.wellFormed]

/-- Only a byte of R90 decodes to XXX: the instruction decoded is well-formed and keeps its opcode byte. -/
theorem mem_undocumentedBytes_of_decodeBytes_xxx {nv : List Byte} {op b1 b2 b : Byte}
    (h : decodeBytes nv op b1 b2 = .xxx b) : op ∈ undocumentedBytes := by
  have hwf := decodeBytes_wellFormed nv op b1 b2
  rw [h] at hwf
  rw [← decodeBytes_opcode nv op b1 b2, h]
  exact (Instr.wellFormed_xxx.mp hwf).1

/-- Only a byte of R90 decodes to a NOP variant, for the same reason. -/
theorem mem_undocumentedBytes_of_decodeBytes_variant {nv : List Byte} {op b1 b2 b v : Byte}
    (h : decodeBytes nv op b1 b2 = .nop (.variant b v)) : op ∈ undocumentedBytes := by
  have hwf := decodeBytes_wellFormed nv op b1 b2
  rw [h] at hwf
  rw [← decodeBytes_opcode nv op b1 b2, h]
  exact (Instr.wellFormed_variant.mp hwf).1

/-- A byte outside R90 decodes to what its one documented entry builds. -/
theorem decodeBytes_unique_row {op : Byte} (hu : op ∉ undocumentedBytes) (nv : List Byte) (b1 b2 : Byte) :
    ∃ r ∈ documentedRows, r.opcode = op ∧ r.build b1 b2 = decodeBytes nv op b1 b2 ∧
      ∀ r' ∈ documentedRows, r'.opcode = op → r' = r := by
  have hc : undocumentedBytes.contains op = false := Bool.eq_false_iff.mpr (mt List.contains_iff_mem.mp hu)
  obtain ⟨r, hr, hop, hbuild⟩ := decodeBytes_documented hc nv b1 b2
  exact ⟨r, hr, hop, hbuild.symm, fun r' hr' hop' =>
    documentedRows_eq_of_opcode_eq hr' hr (hop'.trans hop.symm)⟩

/-! ## The obligation -/

/-- Settles O3: the instruction is `decodeBytes` of the three bytes, which R90 and `NOP_VARIANTS` split in
three. -/
theorem everyOpcodeByteDecodes : Obligations.EveryOpcodeByteDecodes := by
  refine ⟨documentedRows_length, undocumentedBytes_length, undocumentedBytes_nodup, ?_⟩
  intro nv op b1 b2 rest
  refine ⟨_, _, decode_three_bytes nv op b1 b2 rest, decodeBytes_opcode nv op b1 b2,
    ?variant, ?xxx, ?documented⟩
  case variant => exact fun hu hv => decodeBytes_variant hu hv b1 b2
  case xxx =>
    intro hu hv
    rw [decodeBytes_xxx hu hv b1 b2]
    exact ⟨rfl, rfl, fun _ => rfl⟩
  case documented =>
    intro hu
    obtain ⟨r, hr, hop, hbuild, huniq⟩ := decodeBytes_unique_row hu nv b1 b2
    exact ⟨fun _ h => hu (mem_undocumentedBytes_of_decodeBytes_xxx h),
      fun _ _ h => hu (mem_undocumentedBytes_of_decodeBytes_variant h),
      r, hr, hop, hbuild, fun r' hr' hop' => congrArg Row.build (huniq r' hr' hop')⟩

end Sys2Proof
end

section
/-! D has no effect on ADC and SBC (spec/42_arithmetic_logical.md R162). `setD` writes D alone; it
commutes with the frame of an instruction and with `AddWithCarry`, so the two runs are one run, with D
written after it. -/

namespace Sys2Proof.Machine

/-! ## The flags of the sum -/

/-- Of P, the sum of R160 reads C alone. -/
theorem carryNat_setFlag_other (p : Byte) {f : Flag} (b : Bool) (h : Flag.C ≠ f) :
    carryNat (setFlag p f b) = carryNat p := by
  simp only [carryNat, getFlag_setFlag_other p b h]

theorem addResult_setFlag_other (p a m : Byte) {f : Flag} (b : Bool) (h : Flag.C ≠ f) :
    addResult (setFlag p f b) a m = addResult p a m := by
  simp only [addResult, carrySum, carryNat_setFlag_other p b h]

theorem addFlags_setFlag_D (p a m : Byte) (d : Bool) :
    addFlags (setFlag p .D d) a m = setFlag (addFlags p a m) .D d := by
  refine status_ext fun f => ?_
  simp only [getFlag_addFlags, getFlag_setFlag, carrySum,
    addResult_setFlag_other p a m d (by decide : Flag.C ≠ .D),
    carryNat_setFlag_other p d (by decide : Flag.C ≠ .D)]
  cases f <;> simp

/-! ## D written, through the frame of an instruction -/

/-- The state with D written and nothing else. -/
def State.setD (s : State) (d : Bool) : State := { s with p := setFlag s.p .D d }

theorem State.setD_a (s : State) (d : Bool) : (s.setD d).a = s.a := rfl

theorem State.setD_setD (s : State) (d e : Bool) : (s.setD d).setD e = s.setD e := by
  simp only [State.setD, setFlag_setFlag]

/-- The operand and the cost do not depend on P. -/
theorem State.operandValue_setD (s : State) (d : Bool) (m : Operand) :
    (s.setD d).operandValue m = s.operandValue m := by cases m <;> rfl

theorem State.cost_setD (s : State) (d : Bool) (i : Instr) : (s.setD d).cost i = s.cost i := by
  unfold State.cost
  cases i.operand <;> rfl

theorem State.beginInstr_setD (s : State) (d : Bool) (op : Byte) :
    (s.setD d).beginInstr op = (s.beginInstr op).setD d := by
  simp only [State.beginInstr, State.setD, setFlag_comm s.p d true (by decide : Flag.D ≠ .U)]

theorem State.resolve_setD (s : State) (d : Bool) (m : Operand) :
    (s.setD d).resolve m = (s.resolve m).setD d := by cases m <;> rfl

theorem State.fetchOperand_setD (s : State) (d : Bool) (m : Operand) :
    (s.setD d).fetchOperand m = (s.fetchOperand m).setD d := by cases m <;> rfl

theorem State.fetchedBy_setD (s : State) (d : Bool) (i : Instr) :
    (s.setD d).fetchedBy i = (s.fetchedBy i).setD d := by
  simp only [State.fetchedBy, State.entered, State.beginInstr_setD,
    State.resolve_setD, State.fetchOperand_setD]

/-- R162 for the operation itself. -/
theorem addWithCarry_setD (m : Byte) (s : State) (d : Bool) :
    addWithCarry m (s.setD d) = (addWithCarry m s).setD d := by
  simp only [addWithCarry, State.setD, addFlags_setFlag_D,
    addResult_setFlag_other s.p s.a m d (by decide : Flag.C ≠ .D)]

theorem State.finishInstr_setD (s : State) (d : Bool) (n : Nat) :
    (s.setD d).finishInstr n = (s.finishInstr n).setD d := by
  simp only [State.finishInstr, State.setD, setFlag_comm s.p d true (by decide : Flag.D ≠ .U)]

/-! ## The next state of ADC and SBC -/

/-- The next state of an instruction whose operation is `AddWithCarry(v)`. -/
def State.added (s : State) (i : Instr) (v : Byte) : State :=
  (addWithCarry v (s.fetchedBy i)).finishInstr (s.cost i)

theorem State.added_setD (s : State) (d : Bool) (i : Instr) (v : Byte) :
    (s.setD d).added i v = (s.added i v).setD d := by
  simp only [State.added, State.cost_setD, State.fetchedBy_setD, addWithCarry_setD, State.finishInstr_setD]

theorem State.added_a_toNat (s : State) (i : Instr) (v : Byte) :
    (s.added i v).a.toNat = (s.a.toNat + v.toNat + carryIn s) % 256 := by
  have hc : carryNat (s.fetchedBy i).p = carryIn s := by
    rw [State.fetchedBy_p, carryNat_setFlag_other s.p true (by decide)]; rfl
  change (addResult (s.fetchedBy i).p (s.fetchedBy i).a v).toNat = _
  rw [addResult_toNat, carrySum, hc, State.fetchedBy_a]

theorem exec_adc_setD (m : ReadMode) (s : State) (d : Bool) : exec (.adc m) (s.setD d) =
    .next ((s.added (.adc m) (s.operandValue m.toOperand)).setD d) := by
  rw [← State.added_setD, exec_adc, State.operandValue_setD, State.added]

theorem exec_sbc_setD (m : ReadMode) (s : State) (d : Bool) : exec (.sbc m) (s.setD d) =
    .next ((s.added (.sbc m) (s.operandValue m.toOperand ^^^ 0xFF)).setD d) := by
  rw [← State.added_setD, exec_sbc, State.operandValue_setD, State.added]

/-- The one's complement that SBC adds (R164). -/
theorem xor_FF_toNat (v : Byte) : (v ^^^ 0xFF).toNat = 255 - v.toNat := by
  have h : v ^^^ 0xFF = ~~~v := BitVec.xor_allOnes
  rw [h, BitVec.toNat_not]

/-! ## The obligation -/

/-- Settles O22: both runs are `added` with D written after it. -/
theorem decimalFlagHasNoEffect : Obligations.DecimalFlagHasNoEffect := by
  rintro _ m s (rfl | rfl)
  · refine ⟨_, _, exec_adc_setD m s true, exec_adc_setD m s false, getFlag_setFlag_same _ _ _,
      (State.setD_setD _ _ _).symm, ?_⟩
    simp only [State.setD_a, State.added_a_toNat, if_true]
  · refine ⟨_, _, exec_sbc_setD m s true, exec_sbc_setD m s false, getFlag_setFlag_same _ _ _,
      (State.setD_setD _ _ _).symm, ?_⟩
    simp only [State.setD_a, State.added_a_toNat, xor_FF_toNat, reduceCtorEq, if_false]

end Sys2Proof.Machine
end

section
/-! CMP, CPX and CPY (spec/44_compare_incdec.md R190 to R193). The three are one operation on the register
and the fetched operand: it writes P alone, and C, Z and N of P alone. -/

namespace Sys2Proof.Machine

/-- The next state of an instruction whose operation is `Compare(r)`. -/
def State.compared (s : State) (i : Instr) (r : Byte) : State :=
  { s.fetchedBy i with p := compareFlags (s.fetchedBy i).p r (s.operandValue i.operand) }.finishInstr
    (s.cost i)

theorem exec_cmp_eq_compared (m : ReadMode) (s : State) :
    exec (.cmp m) s = .next (s.compared (.cmp m) s.a) := by
  rw [exec_cmp, State.fetchedBy_a]
  rfl

theorem exec_cpx_eq_compared (m : CpMode) (s : State) :
    exec (.cpx m) s = .next (s.compared (.cpx m) s.x) := by
  rw [exec_cpx, State.fetchedBy_x]
  rfl

theorem exec_cpy_eq_compared (m : CpMode) (s : State) :
    exec (.cpy m) s = .next (s.compared (.cpy m) s.y) := by
  rw [exec_cpy, State.fetchedBy_y]
  rfl

/-- U apart, which the end of the instruction forces, the flags are those of `compareFlags` (R190). -/
theorem State.getFlag_compared (s : State) (i : Instr) (r : Byte) {f : Flag} (h : f ≠ .U) :
    getFlag (s.compared i r).p f =
      getFlag (compareFlags (s.fetchedBy i).p r (s.operandValue i.operand)) f :=
  getFlag_setFlag_other _ true h

theorem State.compared_falls (s : State) (i : Instr) (r : Byte) : Falls i s (s.compared i r) :=
  s.fetchedBy_pc i

/-- Nothing is stored, and C, Z and N are the only flags written. -/
theorem State.compared_kept (s : State) (i : Instr) (r : Byte) :
    Kept [] [.C, .Z, .N] s (s.compared i r) ∧ MemKept [] s (s.compared i r) :=
  (compare_spares r (s.operandValue i.operand) (s.fetchedBy i)).of_fetchedBy.kept_finishInstr (s.cost i)

/-- The difference of two bytes modulo 256, as R190 writes it for N. -/
theorem sub_toNat_eq_mod (r m : Byte) : (r - m).toNat = (r.toNat + 256 - m.toNat) % 256 := by
  have hm := m.isLt
  rw [BitVec.toNat_sub]
  omega

/-- An instruction that compares the register `reg` with its operand does what R190 says. -/
theorem compares_of_exec_eq_compared {i : Instr} {reg : State → Byte}
    (h : ∀ s, exec i s = .next (s.compared i (reg s))) : Compares i reg := by
  intro s
  refine ⟨_, h s, ?C, ?Z, ?N, s.compared_falls i (reg s), s.compared_kept i (reg s)⟩
  case C => simp [State.getFlag_compared, getFlag_compareFlags]
  case Z => simp [State.getFlag_compared, getFlag_compareFlags]
  case N =>
    rw [State.getFlag_compared _ _ _ (by decide), getFlag_compareFlags, if_pos rfl, sub_toNat_eq_mod]

/-- Settles O26: each of the three is `compared` with its own register. -/
theorem compareInstructions : Obligations.CompareInstructions :=
  ⟨fun m => compares_of_exec_eq_compared (exec_cmp_eq_compared m),
    fun m => compares_of_exec_eq_compared (exec_cpx_eq_compared m),
    fun m => compares_of_exec_eq_compared (exec_cpy_eq_compared m)⟩

end Sys2Proof.Machine
end

section
/-! The eight branches (spec/47_branch_jump_interrupt.md R240 to R248). They differ in the flag they test and
the value they want of it; `RunsBranch` says what they share, and `branchesOn` follows from that alone. -/

namespace Sys2Proof.Machine

/-! ## The test, the target and the count -/

/-- `Branch(cond)` of R240 with the conditions of R241 to R248: flag `f` has the value `b`. -/
def branchOn (f : Flag) (b : Bool) : State → State × Nat := branch fun t => getFlag t.p f == b

theorem branchOn_true (f : Flag) : branchOn f true = branch fun t => getFlag t.p f := by
  simp only [branchOn, beq_true]

theorem branchOn_false (f : Flag) : branchOn f false = branch fun t => !getFlag t.p f := by
  simp only [branchOn, beq_false]

theorem branchOn_spares (f : Flag) (b : Bool) (s : State) : Spares [] [] [] s (branchOn f b s).1 :=
  branch_spares _ s

/-- The target of a branch as R240 writes it: the signed displacement added modulo 65536. -/
theorem add_sext16_toNat (w : Addr) (d : Byte) :
    ((w + sext16 d).toNat : Int) = ((w.toNat : Int) + d.toInt) % 65536 := by
  have hd : d.toInt = (sext16 d).toInt := (sext16_toInt d).symm
  rw [hd, BitVec.toInt_eq_toNat_cond, BitVec.toNat_add]
  split <;> omega

/-- The bonus of a taken branch by page numbers (R240). -/
theorem branchBonus_eq (next target : Addr) :
    branchBonus next target = if target.toNat / 256 = next.toNat / 256 then 1 else 2 := by
  simp only [branchBonus, ne_eq, ite_not, ← BitVec.toNat_inj, hi8_toNat]

theorem branchBonus_le (next target : Addr) : branchBonus next target ≤ 2 := by
  rw [branchBonus_eq]
  split <;> decide

/-- The instruction's own clock and the Idle clocks after it make up the total, and are at least one
(R110, R115). -/
theorem State.finishInstr_count (s : State) {n : Nat} (h : n ≤ 256) :
    (s.finishInstr n).cyclesRemaining.toNat + 1 = max n 1 := by
  rw [State.finishInstr_cyclesRemaining, BitVec.toNat_ofNat]
  omega

/-! ## What the branches share -/

/-- The instructions `mk d` branch on the value `b` of flag `f`, with displacement `d`. -/
structure RunsBranch (mk : Byte → Instr) (f : Flag) (b : Bool) : Prop where
  exec_eq : ∀ d s, exec (mk d) s = .next ((branchOn f b (s.entered (mk d))).1.finishInstr
    (s.cost (mk d) + (branchOn f b (s.entered (mk d))).2))
  operand : ∀ d, (mk d).operand = .rel d := by exact fun _ => rfl
  operationBus : ∀ d (s : State), s.operationBus (mk d) = [] := by exact fun _ _ => rfl
  base : ∀ d, Params.default.base (mk d) = 2 := by
    intro d; simp only [Params.base, Instr.opcode]; decide
  ne_U : f ≠ .U := by decide

namespace RunsBranch

variable {mk : Byte → Instr} {f : Flag} {b : Bool}

/-- The only transactions are the reads of the two instruction bytes (R240). -/
theorem instrBus (h : RunsBranch mk f b) (d : Byte) (s : State) :
    s.instrBus (mk d) = [.read s.pc (mk d).opcode, .read (s.pc + 1) d] := by
  rw [State.instrBus, h.operand, h.operationBus]
  rfl

theorem cost (h : RunsBranch mk f b) (d : Byte) (s : State) : s.cost (mk d) = s.params.base (mk d) := by
  rw [State.cost, h.operand]
  rfl

theorem entered_pc (h : RunsBranch mk f b) (d : Byte) (s : State) : (s.entered (mk d)).pc = s.pc + 2 := by
  rw [State.entered_pc, Instr.length, h.operand]
  rfl

theorem entered_target (h : RunsBranch mk f b) (d : Byte) (s : State) :
    (s.entered (mk d)).pc + (s.entered (mk d)).addrRel = s.pc + 2 + sext16 d := by
  rw [h.entered_pc, State.entered_addrRel, h.operand]
  rfl

/-- U is not a flag that a branch tests, so the test sees the flag as it was before the instruction. -/
theorem getFlag_entered (h : RunsBranch mk f b) (d : Byte) (s : State) :
    getFlag (s.entered (mk d)).p f = getFlag s.p f := by
  rw [State.entered_p, getFlag_setFlag_other _ _ h.ne_U]

theorem branchOn_taken (h : RunsBranch mk f b) (d : Byte) {s : State} (hf : getFlag s.p f = b) :
    branchOn f b (s.entered (mk d)) =
      ({ s.entered (mk d) with addrAbs := s.pc + 2 + sext16 d, pc := s.pc + 2 + sext16 d },
        branchBonus (s.pc + 2) (s.pc + 2 + sext16 d)) := by
  rw [branchOn, branch_taken (by rw [h.getFlag_entered, hf, beq_self_eq_true]), h.entered_target,
    h.entered_pc]

theorem branchOn_not_taken (h : RunsBranch mk f b) (d : Byte) {s : State} (hf : getFlag s.p f ≠ b) :
    branchOn f b (s.entered (mk d)) = (s.entered (mk d), 0) :=
  branch_not_taken (by rw [h.getFlag_entered, beq_eq_false_iff_ne]; exact hf)

/-- R240 of every such instruction. -/
theorem branchesOn (h : RunsBranch mk f b) : BranchesOn mk f b := by
  intro d s
  obtain ⟨hkept, hmem⟩ := (branchOn_spares f b (s.entered (mk d))).of_entered.kept_finishInstr
    (s.cost (mk d) + (branchOn f b (s.entered (mk d))).2)
  refine ⟨_, h.exec_eq d s, hkept, hmem, h.instrBus d s, h.base d, ?_⟩
  have hbase := Params.base_lt s.params (mk d)
  rw [h.cost]
  by_cases hf : getFlag s.p f = b
  case pos =>
    have hbonus := branchBonus_le (s.pc + 2) (s.pc + 2 + sext16 d)
    rw [if_pos hf, h.branchOn_taken d hf, State.finishInstr_count _ (by omega), branchBonus_eq]
    exact ⟨add_sext16_toNat (s.pc + 2) d, rfl, rfl⟩
  case neg =>
    rw [if_neg hf, h.branchOn_not_taken d hf, State.finishInstr_count _ (by omega)]
    exact ⟨h.entered_pc d s, rfl⟩

end RunsBranch

/-! ## The eight branches -/

theorem bcc_runsBranch : RunsBranch .bcc .C false where
  exec_eq d s := by rw [branchOn_false, exec_bcc]

theorem bcs_runsBranch : RunsBranch .bcs .C true where
  exec_eq d s := by rw [branchOn_true, exec_bcs]

theorem bne_runsBranch : RunsBranch .bne .Z false where
  exec_eq d s := by rw [branchOn_false, exec_bne]

theorem beq_runsBranch : RunsBranch .beq .Z true where
  exec_eq d s := by rw [branchOn_true, exec_beq]

theorem bpl_runsBranch : RunsBranch .bpl .N false where
  exec_eq d s := by rw [branchOn_false, exec_bpl]

theorem bmi_runsBranch : RunsBranch .bmi .N true where
  exec_eq d s := by rw [branchOn_true, exec_bmi]

theorem bvc_runsBranch : RunsBranch .bvc .V false where
  exec_eq d s := by rw [branchOn_false, exec_bvc]

theorem bvs_runsBranch : RunsBranch .bvs .V true where
  exec_eq d s := by rw [branchOn_true, exec_bvs]

/-! ## The obligation -/

/-- Settles O35: each of the eight is a branch on its own flag and value. -/
theorem branchInstructions : Obligations.BranchInstructions :=
  ⟨bcc_runsBranch.branchesOn, bcs_runsBranch.branchesOn, bne_runsBranch.branchesOn,
    beq_runsBranch.branchesOn, bpl_runsBranch.branchesOn, bmi_runsBranch.branchesOn,
    bvc_runsBranch.branchesOn, bvs_runsBranch.branchesOn⟩

end Sys2Proof.Machine
end

section
/-! The entry of an interrupt (spec/60_exceptions.md R311 to R313). `Irq` and `Nmi` at a boundary share one
sequence, `State.interruptEntry`; they differ in the vector, in the count and in the test of I. -/

namespace Sys2Proof.Machine

/-! ## What the entry pushes, loads and leaves -/

/-- The three pushes of an exception entry: PC high, PC low, status (R302). -/
theorem takeException_pushedFrame (s : State) (vec ret : Addr) {st : Byte} {status : Flag → Bool}
    (h : ∀ f, getFlag st f = status f) : PushedFrame s (s.takeException vec ret st) ret status := by
  refine ⟨?sp, ?hi, ?lo, ?status, (takeException_spares vec ret st s).mem⟩
  case sp => rw [State.takeException_sp, sp_sub_three]
  case hi => simp [State.load_takeException]
  case lo => simp [State.load_takeException]
  case status => simpa [State.load_takeException] using h

/-- The copy of P that an interrupt pushes has B 0 and U 1 (R312). -/
theorem getFlag_statusPushedByInterrupt_eq_or (p : Byte) (f : Flag) :
    getFlag (statusPushedByInterrupt p) f = (f == .U || (f != .B && getFlag p f)) := by
  rw [getFlag_statusPushedByInterrupt]
  cases f <;> rfl

theorem State.read16_toNat (s : State) (a : Addr) :
    (s.read16 a).toNat = (s.load (a + 1)).toNat * 256 + (s.load a).toNat :=
  join16_toNat _ _

theorem interruptEntry_pushedFrame (s : State) (vec : Addr) (n : Byte) :
    PushedFrame s (s.interruptEntry vec n) s.pc (fun f => f == .U || (f != .B && getFlag s.p f)) :=
  takeException_pushedFrame s vec s.pc (getFlag_statusPushedByInterrupt_eq_or s.p)

/-- Past the pushes, the entry writes U and the count alone, so of the stored flags only I and U are written
(R33, R312). -/
theorem interruptEntry_spares (s : State) (vec : Addr) (n : Byte) :
    Spares [.SP] [.I] [stackSlot s.sp, stackSlot (s.sp - 1), stackSlot (s.sp - 2)] s
      (s.interruptEntry vec n) := by
  have h := takeException_spares vec s.pc (statusPushedByInterrupt s.p) s
  exact { h with flag := fun f hf hU => (getFlag_setFlag_other _ true hU).trans (h.flag f hf hU) }

theorem getFlag_I_interruptEntry (s : State) (vec : Addr) (n : Byte) :
    getFlag (s.interruptEntry vec n).p .I = true := by
  simp [getFlag_setFlag]

/-- The entry as R311 and R313 state it, for a vector above page 1: the bytes pushed, I, PC, the count, and
what is kept. -/
theorem interruptEntry_entersHandler (s : State) (vec : Addr) (n : Byte)
    (h : 512 ≤ vec.toNat) (h' : 512 ≤ (vec + 1).toNat) :
    PushedFrame s (s.interruptEntry vec n) s.pc (fun f => f == .U || (f != .B && getFlag s.p f)) ∧
    getFlag (s.interruptEntry vec n).p .I = true ∧
    (s.interruptEntry vec n).pc.toNat = (s.load (vec + 1)).toNat * 256 + (s.load vec).toNat ∧
    (s.interruptEntry vec n).cyclesRemaining = n ∧ Kept [.SP] [.I, .B] s (s.interruptEntry vec n) := by
  have hs := interruptEntry_spares s vec n
  have hpc : (s.interruptEntry vec n).pc.toNat = (s.load (vec + 1)).toNat * 256 + (s.load vec).toNat := by
    rw [s.interruptEntry_pc_of_large vec n h h', State.read16_toNat]
  have hflag : ∀ f, f ∉ [Flag.I, .B] → f ≠ .U →
      getFlag (s.interruptEntry vec n).p f = getFlag s.p f :=
    fun f hf => hs.flag f (mt (List.mem_append_left [Flag.B]) hf)
  have hU : getFlag (s.interruptEntry vec n).p .U = true := by simp
  exact ⟨interruptEntry_pushedFrame s vec n, getFlag_I_interruptEntry s vec n, hpc,
    s.interruptEntry_cyclesRemaining vec n, hs.reg, hflag, hU, hs.params, hs.resetSeen, hs.hostEvents⟩

/-! ## The two events -/

theorem State.cyclesRemaining_of_complete {s : State} (h : s.complete = true) : s.cyclesRemaining = 0 :=
  beq_iff_eq.mp h

/-- Settles O42: the event is taken off the list, and then I decides whether the entry at 0xFFFE runs. -/
theorem irqEntersOrIsSuppressed : Obligations.IrqEntersOrIsSuppressed := by
  intro s es he hseen hcomplete
  have hc := s.cyclesRemaining_of_complete hcomplete
  have hstep : step s = irqEvent { s with hostEvents := es } := step_of_cons he
  constructor
  · intro hI
    exact hstep.trans (irqEvent_masked hseen hc hI)
  · intro hI
    exact ⟨_, hstep.trans (irqEvent_enters hseen hc hI),
      interruptEntry_entersHandler { s with hostEvents := es } irqVector 7 (by decide) (by decide)⟩

/-- Settles O43: the event is taken off the list, and the entry at 0xFFFA runs whatever I is. -/
theorem nmiAlwaysEnters : Obligations.NmiAlwaysEnters := by
  intro s es he hseen hcomplete
  have hc := s.cyclesRemaining_of_complete hcomplete
  have hstep : step s = nmiEvent { s with hostEvents := es } := step_of_cons he
  exact ⟨_, hstep.trans (nmiEvent_enters hseen hc),
    interruptEntry_entersHandler { s with hostEvents := es } nmiVector 8 (by decide) (by decide)⟩

end Sys2Proof.Machine
end

section
/-! The Idle clocks and the fetch after them (spec/40_fetch_decode_execute.md R110, R111), and what a Reset leaves
of them (spec/70_reset_and_hazards.md R343). -/

namespace Sys2Proof.Machine

/-- A run of one step is the step. -/
theorem run_one (s : State) : run 1 s = step s := by
  rw [run_succ]
  cases step s <;> rfl

/-- The count after `k` of `n` Idle clocks, as a number: it does not pass 0. -/
theorem run_idle_of_count_eq {s : State} {n k : Nat} (h : s.resetSeen = true) (he : s.hostEvents = [])
    (hc : s.cyclesRemaining = BitVec.ofNat 8 n) (hn : n < 256) (hk : k ≤ n) :
    run k s = .next { s with cyclesRemaining := BitVec.ofNat 8 (n - k) } := by
  have hle : k ≤ s.cyclesRemaining.toNat := by
    rw [hc, BitVec.toNat_ofNat]
    omega
  rw [run_idle k h he hle, hc, BitVec.ofNat_sub_ofNat_of_le n k (by omega) hk]

/-- The `Clock` after the last Idle one reads the opcode at PC: the Idle clocks leave PC and memory alone. -/
theorem run_idle_then_fetch {s : State} (h : s.resetSeen = true) (he : s.hostEvents = []) :
    run (s.cyclesRemaining.toNat + 1) s = exec s.instrAtPc { s with cyclesRemaining := 0 } := by
  have hidle := run_idle s.cyclesRemaining.toNat h he le_rfl
  rw [BitVec.ofNat_toNat, BitVec.setWidth_eq, BitVec.sub_self] at hidle
  calc run (s.cyclesRemaining.toNat + 1) s
      = step { s with cyclesRemaining := 0 } := by rw [run_add hidle, run_one]; rfl
    _ = clockEvent { s with cyclesRemaining := 0 } := step_of_nil he
    _ = exec s.instrAtPc { s with cyclesRemaining := 0 } := clockEvent_fetch h rfl

/-- Settles O11: a Reset leaves the count at 8, so eight Idle clocks count it down and the ninth fetches. -/
theorem ninthClockAfterResetFetches : Obligations.NinthClockAfterResetFetches := by
  intro s
  constructor
  · intro k hk
    exact run_idle_of_count_eq s.resetEvent_resetSeen rfl s.resetEvent_cyclesRemaining (by decide) hk
  · exact run_idle_then_fetch (s := { s.resetEvent with hostEvents := [] }) s.resetEvent_resetSeen rfl

end Sys2Proof.Machine
end

section
/-! The encoder and the decoder undo each other (spec/30_encoding.md R80 to R91). Both directions rest on one
fact: a decoded instruction depends on the bytes of its own length alone, so what follows them is free. -/

namespace Sys2Proof

open Sys2Proof.Machine

/-! ## The bytes an instruction is decoded from -/

/-- Of the first two bytes after the opcode, the decoder uses as many as the operand has. -/
theorem take_getD_append {l rest : List Byte} (h : l.length ≤ 2) :
    [(l ++ rest).getD 0 0, (l ++ rest).getD 1 0].take l.length = l := by
  match l, h with
  | [], _ => rfl
  | [_], _ => rfl
  | [_, _], _ => rfl

theorem take_getD {l : List Byte} {n : Nat} (hn : n ≤ 2) (hl : n ≤ l.length) :
    [l.getD 0 0, l.getD 1 0].take n = l.take n := by
  have hlen : (l.take n).length = n := List.length_take_of_le hl
  have h := take_getD_append (l := l.take n) (rest := l.drop n) (hlen.trans_le hn)
  rwa [List.take_append_drop, hlen] at h

/-- The encoder's bytes of every instruction are turned back into it by the decode table (R80, R87, R88). -/
theorem roundTrip (i : Instr) : Laws.RoundTrip.Statement i := by
  cases i with
  | adc m => exact Laws.RoundTrip.adc m
  | sbc m => exact Laws.RoundTrip.sbc m
  | and m => exact Laws.RoundTrip.and m
  | ora m => exact Laws.RoundTrip.ora m
  | eor m => exact Laws.RoundTrip.eor m
  | asl m => exact Laws.RoundTrip.asl m
  | lsr m => exact Laws.RoundTrip.lsr m
  | rol m => exact Laws.RoundTrip.rol m
  | ror m => exact Laws.RoundTrip.ror m
  | cmp m => exact Laws.RoundTrip.cmp m
  | cpx m => exact Laws.RoundTrip.cpx m
  | cpy m => exact Laws.RoundTrip.cpy m
  | inc m => exact Laws.RoundTrip.inc m
  | dec m => exact Laws.RoundTrip.dec m
  | inx => exact Laws.RoundTrip.inx
  | iny => exact Laws.RoundTrip.iny
  | dex => exact Laws.RoundTrip.dex
  | dey => exact Laws.RoundTrip.dey
  | lda m => exact Laws.RoundTrip.lda m
  | ldx m => exact Laws.RoundTrip.ldx m
  | ldy m => exact Laws.RoundTrip.ldy m
  | sta m => exact Laws.RoundTrip.sta m
  | stx m => exact Laws.RoundTrip.stx m
  | sty m => exact Laws.RoundTrip.sty m
  | tax => exact Laws.RoundTrip.tax
  | txa => exact Laws.RoundTrip.txa
  | tay => exact Laws.RoundTrip.tay
  | tya => exact Laws.RoundTrip.tya
  | tsx => exact Laws.RoundTrip.tsx
  | txs => exact Laws.RoundTrip.txs
  | pha => exact Laws.RoundTrip.pha
  | pla => exact Laws.RoundTrip.pla
  | php => exact Laws.RoundTrip.php
  | plp => exact Laws.RoundTrip.plp
  | bcc d => exact Laws.RoundTrip.bcc d
  | bcs d => exact Laws.RoundTrip.bcs d
  | beq d => exact Laws.RoundTrip.beq d
  | bne d => exact Laws.RoundTrip.bne d
  | bmi d => exact Laws.RoundTrip.bmi d
  | bpl d => exact Laws.RoundTrip.bpl d
  | bvc d => exact Laws.RoundTrip.bvc d
  | bvs d => exact Laws.RoundTrip.bvs d
  | jmp m => exact Laws.RoundTrip.jmp m
  | jsr w => exact Laws.RoundTrip.jsr w
  | rts => exact Laws.RoundTrip.rts
  | brk => exact Laws.RoundTrip.brk
  | rti => exact Laws.RoundTrip.rti
  | sec => exact Laws.RoundTrip.sec
  | clc => exact Laws.RoundTrip.clc
  | sei => exact Laws.RoundTrip.sei
  | cli => exact Laws.RoundTrip.cli
  | sed => exact Laws.RoundTrip.sed
  | cld => exact Laws.RoundTrip.cld
  | clv => exact Laws.RoundTrip.clv
  | bit m => exact Laws.RoundTrip.bit m
  | nop m => exact Laws.RoundTrip.nop m
  | xxx op => exact Laws.RoundTrip.xxx op

/-- Two bytes that begin with the operand bytes of `i` decode to `i` after its opcode byte. -/
theorem decodeBytes_of_take_eq {nv : List Byte} {i : Instr} (hwf : i.wellFormed nv = true) {c1 c2 : Byte}
    (h : [c1, c2].take i.operand.size = i.operand.bytes) : decodeBytes nv i.opcode c1 c2 = i := by
  have hi := roundTrip i nv hwf
  have hb : [i.operand.bytes.getD 0 0, i.operand.bytes.getD 1 0].take i.operand.size = i.operand.bytes := by
    have h2 : i.operand.bytes.length ≤ 2 := i.operand.bytes_length.trans_le i.operand.size_le
    simpa using take_getD_append (rest := []) h2
  have hc := decodeBytes_congr nv i.opcode (i.operand.bytes.getD 0 0) (i.operand.bytes.getD 1 0) c1 c2
  rw [hi] at hc
  exact hc (h.trans hb.symm)

/-! ## The two directions -/

/-- Settles O1: the decoder sees the operand bytes first, whatever follows them. -/
theorem decodeOfEncodeIsTheInstruction : Obligations.DecodeOfEncodeIsTheInstruction := by
  intro nv i rest hwf
  have hlen : i.operand.bytes.length = i.operand.size := i.operand.bytes_length
  have htake := take_getD_append (rest := rest) (hlen.trans_le i.operand.size_le)
  rw [hlen] at htake
  have hi := decodeBytes_of_take_eq hwf htake
  have hsize : ¬ (i.operand.bytes ++ rest).length < i.operand.size := by
    rw [List.length_append, hlen]
    omega
  simp only [encode, List.cons_append, decode, hi]
  rw [if_neg hsize, ← hlen, List.drop_left]

/-- Settles O2: the decoded instruction keeps the opcode byte and has for operand bytes the bytes it was
decoded from. -/
theorem decodedBytesAreTheEncoding : Obligations.DecodedBytesAreTheEncoding := by
  intro nv bs i rest h
  cases bs with
  | nil => cases h
  | cons op bytes =>
    simp only [decode] at h
    split at h
    · cases h
    next hsize =>
      cases h
      have hle := (decodeBytes nv op (bytes.getD 0 0) (bytes.getD 1 0)).operand.size_le
      refine ⟨decodeBytes_wellFormed nv op _ _, ?_⟩
      rw [encode, decodeBytes_opcode, decodeBytes_bytes, take_getD hle (Nat.le_of_not_lt hsize),
        List.cons_append, List.take_append_drop]

/-! ## The instruction at PC -/

/-- Reading the three bytes at PC, operand bytes first. -/
theorem holds_iff (s : State) (i : Instr) :
    s.holds i ↔ s.load s.pc = i.opcode ∧
      [s.load (s.pc + 1), s.load (s.pc + 2)].take i.operand.size = i.operand.bytes := by
  have h0 : s.pc + BitVec.ofNat 16 0 = s.pc := BitVec.add_zero s.pc
  have hsize : ∀ m : Operand, (∀ k, k < 1 + m.size →
      s.load (s.pc + BitVec.ofNat 16 k) = (i.opcode :: m.bytes).getD k 0) ↔
      s.load s.pc = i.opcode ∧ [s.load (s.pc + 1), s.load (s.pc + 2)].take m.size = m.bytes := by
    intro m
    cases m <;> simp [Operand.size, Operand.bytes, Nat.forall_lt_succ_right,
      Nat.le_one_iff_eq_zero_or_eq_one, or_imp, forall_and, h0, and_assoc]
  exact hsize i.operand

/-- The decoder's reading of the bytes at PC is an instruction that lies there. -/
theorem holds_instrAtPc (s : State) : s.holds s.instrAtPc :=
  (holds_iff s _).mpr ⟨(decodeBytes_opcode _ _ _ _).symm, (decodeBytes_bytes _ _ _ _).symm⟩

theorem instrAtPc_of_holds {s : State} {i : Instr} (hwf : i.wellFormed s.params.nopVariants = true)
    (h : s.holds i) : s.instrAtPc = i := by
  obtain ⟨hop, hbytes⟩ := (holds_iff s i).mp h
  rw [State.instrAtPc, hop, decodeBytes_of_take_eq hwf hbytes]

/-- Settles O7: the instruction is the one the decoder reads. -/
theorem exactlyOneInstructionAtPc : Obligations.ExactlyOneInstructionAtPc := fun s =>
  ⟨s.instrAtPc, decodeBytes_wellFormed _ _ _ _, holds_instrAtPc s,
    fun _ hwf h => (instrAtPc_of_holds hwf h).symm⟩

/-- Settles O6: a `Clock` at a boundary runs what the decoder reads at PC, and that is the instruction that
lies there. -/
theorem stepRunsTheInstructionAtPc : Obligations.StepRunsTheInstructionAtPc := by
  intro s i hseen hcount hwf hholds
  have hi := instrAtPc_of_holds hwf hholds
  constructor
  · intro he
    rw [step_of_nil he, clockEvent_fetch hseen hcount, hi]
  · intro es he
    have hfetch : clockEvent { s with hostEvents := es } = exec s.instrAtPc { s with hostEvents := es } :=
      clockEvent_fetch hseen hcount
    rw [step_of_cons he, ← hi, ← hfetch]
    rfl

/-! ## Words and opcode bytes written out -/

/-- Settles O4: each word is the encoding of its instruction and the bytes after it. -/
theorem specWordsDecode : Obligations.SpecWordsDecode := by
  have hword := decodeOfEncodeIsTheInstruction
  exact ⟨hword [] (.adc (.imm 0x50)) [] rfl, hword [] (.sbc (.izy 0x20)) [] rfl,
    hword [] (.ror .acc) [] rfl, hword [] (.dec (.abx 0x1234)) [] rfl,
    hword [] (.cpx (.abs 0x1234)) [] rfl, hword [] (.ldx (.zpy 0x10)) [] rfl,
    hword [] (.sta (.izx 0x20)) [] rfl, hword [] .txs [0xFF] rfl, hword [] .plp [] rfl,
    hword [] (.bne 0xFA) [] rfl, hword [] (.jmp (.ind 0x02FF)) [] rfl, hword [] (.jsr 0x9000) [] rfl,
    hword [] (.bit (.abs 0x1234)) [] rfl, hword [] (.xxx 0x1A) [0x55] rfl,
    hword [0x1A, 0xFC] (.nop (.variant 0x1A 0x55)) [] rfl, rfl, rfl⟩

/-- Settles O5: the cells of R88 are the arguments the encoder picks from. -/
theorem opcodeAssignments : Obligations.OpcodeAssignments := by
  intro b w
  exact ⟨rfl, rfl, rfl, rfl, rfl, rfl, rfl, rfl, rfl, rfl, rfl, rfl, rfl, rfl, rfl, rfl, rfl, rfl, rfl, rfl,
    rfl, rfl⟩

end Sys2Proof
end

section
/-! The memory port and the addressing-mode resolvers (spec/20_memory.md R51, R53; spec/41_addressing_modes.md
R130 to R144): what the resolvers write, with their addresses as plain arithmetic. -/

namespace Sys2Proof.Machine

/-! ## The memory port -/

/-- Canonical memories that read alike are equal: above the last address both read as the background. -/
theorem Memory.eq_of_read {m n : Memory} (hm : Memory.wf m = true) (hn : Memory.wf n = true)
    (h : ∀ a, Memory.read m a = Memory.read n a) : m = n := by
  refine Memory.eq_of_lookup hm hn fun k => ?_
  by_cases hk : k < 65536
  · have hread := h (BitVec.ofNat 16 k)
    simpa only [Memory.read, BitVec.toNat_ofNat, Nat.mod_eq_of_lt hk] using hread
  · rw [Memory.lookup_of_large hm (by omega), Memory.lookup_of_large hn (by omega)]

/-- Settles O16: read after write, the canonical form kept, and equality from equal reads. -/
theorem memoryReadsTheLastWrite : Obligations.MemoryReadsTheLastWrite :=
  ⟨fun m a _ v => ⟨Memory.read_write_same m a v, fun h => Memory.read_write_other m v h.symm⟩,
    fun _ a v h => Memory.wf_write h a v, fun _ _ => Memory.eq_of_read⟩

/-! ## Effective addresses as arithmetic -/

/-- Indexing in the zero page stays in it (R135, R136, R141). -/
theorem zext16_add (t i : Byte) : zext16 (t + i) = BitVec.ofNat 16 ((t.toNat + i.toNat) % 256) := by
  rw [zext16_eq_ofNat, BitVec.toNat_add]

theorem zext16_add_one (t : Byte) : zext16 (t + 1) = BitVec.ofNat 16 ((t.toNat + 1) % 256) :=
  zext16_add t 1

theorem zext16_add_add_one (t i : Byte) :
    zext16 (t + i + 1) = BitVec.ofNat 16 ((t.toNat + i.toNat + 1) % 256) := by
  rw [zext16_add_one, BitVec.toNat_add, Nat.mod_add_mod]

/-- Indexing from a 16-bit base carries into the high byte (R138, R139, R142). -/
theorem add_zext16 (w : Addr) (i : Byte) : w + zext16 i = BitVec.ofNat 16 (w.toNat + i.toNat) := by
  rw [BitVec.ofNat_add, BitVec.ofNat_toNat, BitVec.setWidth_eq, zext16_eq_ofNat]

/-- The page-cross bonus of an indexed address (R144). -/
theorem crossBonus_add_zext16 (w : Addr) (i : Byte) :
    crossBonus w (w + zext16 i) = if crossesPage w i then 1 else 0 := by
  rw [crossBonus_eq, add_zext16, BitVec.toNat_ofNat]
  by_cases h : w.toNat / 256 = (w.toNat + i.toNat) % 65536 / 256 <;> simp [crossesPage, h]

/-- A zero-page pointer as arithmetic: low byte first, both bytes in page 0 (R141, R142). -/
theorem State.zeroPagePointer_eq (s : State) (t : Byte) : s.zeroPagePointer t = BitVec.ofNat 16
    ((s.load (BitVec.ofNat 16 ((t.toNat + 1) % 256))).toNat * 256 +
      (s.load (BitVec.ofNat 16 t.toNat)).toNat) := by
  rw [State.zeroPagePointer, join16_eq_ofNat, zext16_add_one, zext16_eq_ofNat t]

theorem State.zeroPagePointer_add_eq (s : State) (t i : Byte) : s.zeroPagePointer (t + i) = BitVec.ofNat 16
    ((s.load (BitVec.ofNat 16 ((t.toNat + i.toNat + 1) % 256))).toNat * 256 +
      (s.load (BitVec.ofNat 16 ((t.toNat + i.toNat) % 256))).toNat) := by
  rw [State.zeroPagePointer, join16_eq_ofNat, zext16_add_add_one, zext16_add]

/-! ## The resolvers -/

/-- Settles O18: each resolver writes its address, here as arithmetic, and PC past its operand. -/
theorem directResolvers : Obligations.DirectResolvers := by
  intro s t w
  refine ⟨⟨rfl, rfl⟩, ⟨rfl, rfl⟩, ⟨?zp0, rfl⟩, ⟨?zpx, rfl⟩, ⟨?zpy, rfl⟩, ⟨rfl, rfl⟩,
    ⟨?abx, crossBonus_add_zext16 w s.x⟩, ⟨?aby, crossBonus_add_zext16 w s.y⟩⟩
  case zp0 => rw [← zext16_eq_ofNat]; rfl
  case zpx => rw [← zext16_add]; rfl
  case zpy => rw [← zext16_add]; rfl
  case abx => rw [← add_zext16]; rfl
  case aby => rw [← add_zext16]; rfl

/-- Settles O19: IMP writes no address, and the three others read their pointer first. -/
theorem impliedAndIndirectResolvers : Obligations.ImpliedAndIndirectResolvers := by
  intro s t w
  refine ⟨⟨?imp, rfl⟩, ⟨?ind, rfl⟩, ⟨?izx, rfl⟩, fun ptr hptr => ?izy⟩
  case imp =>
    have hpc : s.pc + BitVec.ofNat 16 0 = s.pc := BitVec.add_zero s.pc
    simp only [State.resolve, Operand.size, hpc, State.operandAddress, State.resolveRel, decide_true, if_true]
  case ind => rw [← join16_eq_ofNat, ← State.indirectTarget_eq]; rfl
  case izx => rw [← State.zeroPagePointer_add_eq]; rfl
  case izy =>
    have hpointer : BitVec.ofNat 16 ptr = s.zeroPagePointer t := by rw [hptr, State.zeroPagePointer_eq]
    have haddr : BitVec.ofNat 16 (ptr + s.y.toNat) = s.zeroPagePointer t + zext16 s.y := by
      rw [BitVec.ofNat_add, hpointer, zext16_eq_ofNat]
    rw [haddr, hpointer]
    exact ⟨rfl, crossBonus_add_zext16 _ s.y⟩

end Sys2Proof.Machine
end

section
/-! Every instruction as one operation in one frame (spec/40_fetch_decode_execute.md R111, R113). `exec` is
`operation` between the frame's two ends; what holds of all 57 instructions follows from a lemma about
`operation`, split along the constructors, and lemmas about the frame. -/

namespace Sys2Proof.Machine

/-! ## The operation and the state it starts from -/

/-- The state the operation of `i` starts from: after `FetchOperand()` where it fetches (R111, R146). -/
def State.started (s : State) (i : Instr) : State :=
  if fetchesOperand i then s.fetchedBy i else s.entered i

/-- The operation of an instruction on the operand `v` it fetched, with the bonus it owes (R113, R117). -/
def operation (i : Instr) (v : Byte) (u : State) : State × Nat :=
  match i with
  | .adc _ => (addWithCarry v u, 0)
  | .sbc _ => (addWithCarry (v ^^^ 0xFF) u, 0)
  | .and _ => (loadA (u.a &&& v) u, 0)
  | .ora _ => (loadA (u.a ||| v) u, 0)
  | .eor _ => (loadA (u.a ^^^ v) u, 0)
  | .asl _ => (shiftEffect (aslResult v) u, 0)
  | .lsr _ => (shiftEffect (lsrResult v) u, 0)
  | .rol _ => (shiftEffect (rolResult (getFlag u.p .C) v) u, 0)
  | .ror _ => (shiftEffect (rorResult (getFlag u.p .C) v) u, 0)
  | .cmp _ => ({ u with p := compareFlags u.p u.a v }, 0)
  | .cpx _ => ({ u with p := compareFlags u.p u.x v }, 0)
  | .cpy _ => ({ u with p := compareFlags u.p u.y v }, 0)
  | .inc _ => (storeZN (v + 1) u, 0)
  | .dec _ => (storeZN (v - 1) u, 0)
  | .inx => (loadX (u.x + 1) u, 0)
  | .iny => (loadY (u.y + 1) u, 0)
  | .dex => (loadX (u.x - 1) u, 0)
  | .dey => (loadY (u.y - 1) u, 0)
  | .lda _ => (loadA v u, 0)
  | .ldx _ => (loadX v u, 0)
  | .ldy _ => (loadY v u, 0)
  | .sta _ => (u.store u.addrAbs u.a, 0)
  | .stx _ => (u.store u.addrAbs u.x, 0)
  | .sty _ => (u.store u.addrAbs u.y, 0)
  | .tax => (loadX u.a u, 0)
  | .txa => (loadA u.x u, 0)
  | .tay => (loadY u.a u, 0)
  | .tya => (loadA u.y u, 0)
  | .tsx => (loadX u.sp u, 0)
  | .txs => ({ u with sp := u.x }, 0)
  | .pha => (u.push8 u.a, 0)
  | .pla => (loadA u.pop8.1 u.pop8.2, 0)
  | .php => (u.push8 (statusPushedByInstruction u.p), 0)
  | .plp => ({ u.pop8.2 with p := statusPulled u.pop8.1 }, 0)
  | .bcc _ => branchOn .C false u
  | .bcs _ => branchOn .C true u
  | .beq _ => branchOn .Z true u
  | .bne _ => branchOn .Z false u
  | .bmi _ => branchOn .N true u
  | .bpl _ => branchOn .N false u
  | .bvc _ => branchOn .V false u
  | .bvs _ => branchOn .V true u
  | .jmp _ => ({ u with pc := u.addrAbs }, 0)
  | .jsr _ => ({ u.push16 (u.pc - 1) with pc := u.addrAbs }, 0)
  | .rts => ({ u.pop16.2 with pc := u.pop16.1 + 1 }, 0)
  | .brk => (u.takeException irqVector (u.pc + 1) (statusPushedByInstruction u.p), 0)
  | .rti => (u.returnFromException, 0)
  | .sec => (writeFlag .C true u, 0)
  | .clc => (writeFlag .C false u, 0)
  | .sei => (writeFlag .I true u, 0)
  | .cli => (writeFlag .I false u, 0)
  | .sed => (writeFlag .D true u, 0)
  | .cld => (writeFlag .D false u, 0)
  | .clv => (writeFlag .V false u, 0)
  | .bit _ => ({ u with p := bitFlags u.p u.a v }, 0)
  | .nop m => (u, if m = .imp then 0 else 1)
  | .xxx _ => (u, 0)

/-- What the operation of `i` makes of the state `s` before the instruction. -/
def State.operated (s : State) (i : Instr) : State × Nat :=
  operation i (s.operandValue i.operand) (s.started i)

/-- The state after the instruction `i` (R111). -/
def State.after (s : State) (i : Instr) : State :=
  (s.operated i).1.finishInstr (s.cost i + (s.operated i).2)

/-- The next state of every instruction (R111, R113). -/
theorem exec_eq (i : Instr) (s : State) : exec i s = .next (s.after i) := by
  cases i with
  | adc m => exact exec_adc m s
  | sbc m => exact exec_sbc m s
  | and m => exact exec_and m s
  | ora m => exact exec_ora m s
  | eor m => exact exec_eor m s
  | asl m => exact exec_asl m s
  | lsr m => exact exec_lsr m s
  | rol m => exact exec_rol m s
  | ror m => exact exec_ror m s
  | cmp m => exact exec_cmp m s
  | cpx m => exact exec_cpx m s
  | cpy m => exact exec_cpy m s
  | inc m => exact exec_inc m s
  | dec m => exact exec_dec m s
  | inx => exact exec_inx s
  | iny => exact exec_iny s
  | dex => exact exec_dex s
  | dey => exact exec_dey s
  | lda m => exact exec_lda m s
  | ldx m => exact exec_ldx m s
  | ldy m => exact exec_ldy m s
  | sta m => exact exec_sta m s
  | stx m => exact exec_stx m s
  | sty m => exact exec_sty m s
  | tax => exact exec_tax s
  | txa => exact exec_txa s
  | tay => exact exec_tay s
  | tya => exact exec_tya s
  | tsx => exact exec_tsx s
  | txs => exact exec_txs s
  | pha => exact exec_pha s
  | pla => exact exec_pla s
  | php => exact exec_php s
  | plp => exact exec_plp s
  | bcc d => exact bcc_runsBranch.exec_eq d s
  | bcs d => exact bcs_runsBranch.exec_eq d s
  | beq d => exact beq_runsBranch.exec_eq d s
  | bne d => exact bne_runsBranch.exec_eq d s
  | bmi d => exact bmi_runsBranch.exec_eq d s
  | bpl d => exact bpl_runsBranch.exec_eq d s
  | bvc d => exact bvc_runsBranch.exec_eq d s
  | bvs d => exact bvs_runsBranch.exec_eq d s
  | jmp m => exact exec_jmp m s
  | jsr w => exact exec_jsr w s
  | rts => exact exec_rts s
  | brk => exact exec_brk s
  | rti => exact exec_rti s
  | sec => exact exec_sec s
  | clc => exact exec_clc s
  | sei => exact exec_sei s
  | cli => exact exec_cli s
  | sed => exact exec_sed s
  | cld => exact exec_cld s
  | clv => exact exec_clv s
  | bit m => exact exec_bit m s
  | nop m => exact exec_nop m s
  | xxx op => exact exec_xxx op s

theorem eq_of_exec {i : Instr} {s t : State} (h : exec i s = .next t) :
    t = s.after i := by
  rw [exec_eq] at h
  cases h
  rfl

/-- Settles O49: `exec_eq` names the next state. -/
theorem noInstructionStops : Obligations.NoInstructionStops := fun i s => ⟨_, exec_eq i s⟩

/-! ## The state the operation starts from -/

@[simp] theorem State.started_pc (s : State) (i : Instr) :
    (s.started i).pc = s.pc + BitVec.ofNat 16 i.length := by
  unfold State.started; split <;> simp
@[simp] theorem State.started_p (s : State) (i : Instr) : (s.started i).p = setFlag s.p .U true := by
  unfold State.started; split <;> simp
@[simp] theorem State.started_opcode (s : State) (i : Instr) : (s.started i).opcode = i.opcode := by
  unfold State.started; split <;> simp
@[simp] theorem State.started_isImplied (s : State) (i : Instr) :
    (s.started i).isImplied = decide (i.operand = .imp) := by
  unfold State.started; split <;> simp
@[simp] theorem State.started_addrRel (s : State) (i : Instr) :
    (s.started i).addrRel = s.resolveRel i.operand := by
  unfold State.started; split <;> simp

theorem State.started_addrAbs (s : State) (i : Instr) : (s.started i).addrAbs =
    if isImmediate i.operand then s.pc + 1 else s.operandAddress i.operand := by
  have hentered : (s.entered i).addrAbs =
      if isImmediate i.operand then s.pc + 1 else s.operandAddress i.operand := by
    simp only [State.entered, State.resolve_addrAbs, State.operandAddress_beginInstr]
    cases i.operand <;> rfl
  have hfetched : (s.fetchedBy i).addrAbs = (s.entered i).addrAbs := State.fetchOperand_addrAbs _ _
  unfold State.started
  split
  · rw [hfetched, hentered]
  · exact hentered

/-- `fetched` is the copy of A for IMP, and the operand where the operation fetches it (R132, R146). -/
theorem State.started_fetched (s : State) (i : Instr) : (s.started i).fetched =
    if i.operand = .imp ∨ fetchesOperand i = true then s.operandValue i.operand else s.fetched := by
  unfold State.started
  split
  next hf => rw [State.fetchedBy_fetched, if_pos (.inr hf)]
  next hf =>
    simp only [State.entered, State.resolve_fetched, State.beginInstr_a, State.beginInstr_fetched]
    by_cases himp : i.operand = .imp
    · rw [if_pos himp, if_pos (.inl himp), himp]; rfl
    · rw [if_neg himp, if_neg (by simp [himp, hf])]

/-! ## Branches and the others -/

/-- The instructions that test a flag are the eight branches (R241 to R248). -/
theorem runsBranch_of_branchTest {i : Instr} {f : Flag} {b : Bool} {d : Byte}
    (h : branchTest i = some (f, b, d)) : ∃ mk, RunsBranch mk f b ∧ i = mk d := by
  cases i with
  | bcc _ => cases h; exact ⟨_, bcc_runsBranch, rfl⟩
  | bcs _ => cases h; exact ⟨_, bcs_runsBranch, rfl⟩
  | bne _ => cases h; exact ⟨_, bne_runsBranch, rfl⟩
  | beq _ => cases h; exact ⟨_, beq_runsBranch, rfl⟩
  | bpl _ => cases h; exact ⟨_, bpl_runsBranch, rfl⟩
  | bmi _ => cases h; exact ⟨_, bmi_runsBranch, rfl⟩
  | bvc _ => cases h; exact ⟨_, bvc_runsBranch, rfl⟩
  | bvs _ => cases h; exact ⟨_, bvs_runsBranch, rfl⟩
  | _ => cases h

theorem operand_of_branchTest {i : Instr} {f : Flag} {b : Bool} {d : Byte}
    (h : branchTest i = some (f, b, d)) : i.operand = .rel d := by
  obtain ⟨_, hrun, rfl⟩ := runsBranch_of_branchTest h
  exact hrun.operand d

/-- Only branches have the relative mode (R88). -/
theorem operand_ne_rel_of_branchTest {i : Instr} (h : branchTest i = none) (d : Byte) :
    i.operand ≠ .rel d := by
  cases i with
  | adc m | sbc m | and m | ora m | eor m | cmp m | lda m => cases m <;> nofun
  | asl m | lsr m | rol m | ror m => cases m <;> nofun
  | inc m | dec m => cases m <;> nofun
  | cpx m | cpy m => cases m <;> nofun
  | ldx m | ldy m | sta m | stx m | sty m | bit m | jmp m | nop m => cases m <;> nofun
  | bcc _ | bcs _ | beq _ | bne _ | bmi _ | bpl _ | bvc _ | bvs _ => cases h
  | _ => nofun

/-- The operation of a branch that tests flag `f` for `b` (R240). -/
theorem State.operated_branch (s : State) {i : Instr} {f : Flag} {b : Bool} {d : Byte}
    (h : branchTest i = some (f, b, d)) : s.operated i = branchOn f b (s.entered i) := by
  cases i with
  | bcc _ | bcs _ | beq _ | bne _ | bmi _ | bpl _ | bvc _ | bvs _ => cases h; rfl
  | _ => cases h

/-- A branch fetches no operand (D15). -/
theorem State.started_branch (s : State) {i : Instr} {f : Flag} {b : Bool} {d : Byte}
    (h : branchTest i = some (f, b, d)) : s.started i = s.entered i := by
  cases i with
  | bcc _ | bcs _ | beq _ | bne _ | bmi _ | bpl _ | bvc _ | bvs _ => rfl
  | _ => cases h

/-- A taken branch goes to its target (R240). -/
theorem State.operated_branch_taken (s : State) {i : Instr} {f : Flag} {b : Bool} {d : Byte}
    (h : branchTest i = some (f, b, d)) (hf : getFlag s.p f = b) :
    s.operated i = ({ s.entered i with addrAbs := s.pc + 2 + sext16 d, pc := s.pc + 2 + sext16 d },
      branchBonus (s.pc + 2) (s.pc + 2 + sext16 d)) := by
  rw [s.operated_branch h]
  obtain ⟨_, hrun, rfl⟩ := runsBranch_of_branchTest h
  exact hrun.branchOn_taken d hf

/-- A branch that is not taken leaves the state it started from (R240). -/
theorem State.operated_branch_not_taken (s : State) {i : Instr} {f : Flag} {b : Bool} {d : Byte}
    (h : branchTest i = some (f, b, d)) (hf : getFlag s.p f ≠ b) :
    s.operated i = (s.started i, 0) := by
  rw [s.operated_branch h, s.started_branch h]
  obtain ⟨_, hrun, rfl⟩ := runsBranch_of_branchTest h
  exact hrun.branchOn_not_taken d hf

end Sys2Proof.Machine
end

section
/-! What every instruction leaves in PC, the count and the transients (spec/10_state.md R25, R41, R42;
spec/40_fetch_decode_execute.md R110, R113, R115). -/

namespace Sys2Proof.Machine

/-! ## The transients -/

/-- An operation writes none of `opcode`, `fetched`, `addr_rel` and `is_implied`. -/
structure KeepsTransients (u w : State) : Prop where
  opcode : w.opcode = u.opcode := by rfl
  fetched : w.fetched = u.fetched := by rfl
  addrRel : w.addrRel = u.addrRel := by rfl
  isImplied : w.isImplied = u.isImplied := by rfl

theorem shiftEffect_keepsTransients (r : Byte × Bool) (u : State) :
    KeepsTransients u (shiftEffect r u) where
  opcode := State.writeBack_opcode _ _
  fetched := State.writeBack_fetched _ _
  addrRel := State.writeBack_addrRel _ _
  isImplied := State.writeBack_isImplied _ _

theorem takeException_keepsTransients (vec ret : Addr) (st : Byte) (u : State) :
    KeepsTransients u (u.takeException vec ret st) where
  opcode := u.takeException_opcode vec ret st
  fetched := u.takeException_fetched vec ret st
  addrRel := u.takeException_addrRel vec ret st
  isImplied := u.takeException_isImplied vec ret st

theorem returnFromException_keepsTransients (u : State) : KeepsTransients u u.returnFromException where
  opcode := u.returnFromException_opcode
  fetched := u.returnFromException_fetched
  addrRel := u.returnFromException_addrRel
  isImplied := u.returnFromException_isImplied

theorem branchOn_keepsTransients (f : Flag) (b : Bool) (u : State) :
    KeepsTransients u (branchOn f b u).1 := by
  unfold branchOn branch
  split <;> exact {}

theorem operation_keepsTransients (i : Instr) (v : Byte) (u : State) :
    KeepsTransients u (operation i v u).1 := by
  cases i with
  | asl _ | lsr _ | rol _ | ror _ => exact shiftEffect_keepsTransients _ u
  | bcc _ | bcs _ | beq _ | bne _ | bmi _ | bpl _ | bvc _ | bvs _ => exact branchOn_keepsTransients _ _ u
  | brk => exact takeException_keepsTransients _ _ _ u
  | rti => exact returnFromException_keepsTransients u
  | _ => exact {}

/-- Only a taken branch writes `addr_abs` after the resolver (R240). -/
theorem operation_addrAbs {i : Instr} (h : branchTest i = none) (v : Byte) (u : State) :
    (operation i v u).1.addrAbs = u.addrAbs := by
  cases i with
  | asl _ | lsr _ | rol _ | ror _ => exact State.writeBack_addrAbs _ _
  | bcc _ | bcs _ | beq _ | bne _ | bmi _ | bpl _ | bvc _ | bvs _ => cases h
  | _ => rfl

/-- `addr_rel` after the resolver: only a branch has the relative mode (R143). -/
theorem State.resolveRel_operand (s : State) (i : Instr) : s.resolveRel i.operand =
    match branchTest i with | some (_, _, d) => d.signExtend 16 | none => s.addrRel := by
  split
  next h => rw [operand_of_branchTest h]; rfl
  next h =>
    have hne := operand_ne_rel_of_branchTest h
    revert hne
    cases i.operand with
    | rel d => exact fun hne => absurd rfl (hne d)
    | _ => exact fun _ => rfl

/-- Settles O51: the resolver and the operand fetch leave the transients, and the operation leaves them alone
but for the `addr_abs` of a taken branch. -/
theorem transientsAfterEveryInstruction : Obligations.TransientsAfterEveryInstruction := by
  intro i s t h
  cases eq_of_exec h
  have hkeep : KeepsTransients (s.started i) (s.operated i).1 := operation_keepsTransients i _ _
  refine ⟨hkeep.opcode.trans (s.started_opcode i), hkeep.isImplied.trans (s.started_isImplied i),
    hkeep.addrRel.trans ((s.started_addrRel i).trans (s.resolveRel_operand i)),
    hkeep.fetched.trans (s.started_fetched i), ?_⟩
  cases hb : branchTest i with
  | none =>
    exact .inr ⟨nofun, (operation_addrAbs hb _ _).trans (s.started_addrAbs i)⟩
  | some test =>
    obtain ⟨f, b, d⟩ := test
    by_cases hf : getFlag s.p f = b
    · refine .inl ⟨f, b, d, rfl, hf, ?_⟩
      rw [State.after, s.operated_branch_taken hb hf]
      rfl
    · refine .inr ⟨fun f' b' d' h' => by cases h'; exact hf, ?_⟩
      rw [State.after, s.operated_branch_not_taken hb hf]
      exact s.started_addrAbs i

/-! ## PC -/

theorem operation_pc {i : Instr} (h : transfersControl i = false) (v : Byte) (u : State) :
    (operation i v u).1.pc = u.pc := by
  cases i with
  | asl _ | lsr _ | rol _ | ror _ => exact State.writeBack_pc _ _
  | bcc _ | bcs _ | beq _ | bne _ | bmi _ | bpl _ | bvc _ | bvs _ | jmp _ | jsr _ | rts | brk | rti => cases h
  | _ => rfl

/-- An instruction that transfers no control falls through (R25). -/
theorem exec_falls {i : Instr} {s t : State} (h : exec i s = .next t) (hi : transfersControl i = false) :
    Falls i s t := by
  cases eq_of_exec h
  exact (operation_pc hi _ _).trans (s.started_pc i)

/-- Settles O52: `exec_falls` as numbers. -/
theorem sequentialInstructionsFallThrough : Obligations.SequentialInstructionsFallThrough := by
  intro i s t h hi
  rw [exec_falls h hi, BitVec.toNat_add, BitVec.toNat_ofNat, Nat.add_mod_mod]

/-! ## The count -/

theorem State.resolveBonus_eq_pageBonus (s : State) (m : Operand) : s.resolveBonus m = pageBonus s m := by
  cases m with
  | abx w => exact crossBonus_add_zext16 w s.x
  | aby w => exact crossBonus_add_zext16 w s.y
  | izy t => exact crossBonus_add_zext16 (s.zeroPagePointer t) s.y
  | _ => rfl

theorem operation_bonus {i : Instr} (h : branchTest i = none) (v : Byte) (u : State) :
    (operation i v u).2 = variantBonus i := by
  cases i with
  | nop m => cases m <;> rfl
  | bcc _ | bcs _ | beq _ | bne _ | bmi _ | bpl _ | bvc _ | bvs _ => cases h
  | _ => rfl

/-- The operation owes what R113 says. -/
theorem State.operated_bonus (s : State) (i : Instr) : (s.operated i).2 = operationBonus s i := by
  cases hb : branchTest i with
  | none => rw [State.operated, operation_bonus hb, operationBonus, hb]
  | some test =>
    obtain ⟨f, b, d⟩ := test
    simp only [operationBonus, hb]
    by_cases hf : getFlag s.p f = b
    · rw [s.operated_branch_taken hb hf, if_pos hf, branchBonus_eq]
      exact if_congr eq_comm rfl rfl
    · rw [s.operated_branch_not_taken hb hf, if_neg hf]

/-- No operand and operation together owe more than two cycles: a branch and a NOP variant cross no page. -/
theorem State.bonuses_le (s : State) (i : Instr) : s.resolveBonus i.operand + (s.operated i).2 ≤ 2 := by
  have hpage := s.resolveBonus_le i.operand
  cases hb : branchTest i with
  | none =>
    have hvariant : variantBonus i ≤ 1 := by
      cases i with
      | nop m => cases m <;> simp [variantBonus]
      | _ => exact Nat.zero_le 1
    rw [State.operated, operation_bonus hb]
    omega
  | some test =>
    obtain ⟨f, b, d⟩ := test
    have hzero : s.resolveBonus i.operand = 0 := by rw [operand_of_branchTest hb]; rfl
    by_cases hf : getFlag s.p f = b
    · have htaken := branchBonus_le (s.pc + 2) (s.pc + 2 + sext16 d)
      rw [s.operated_branch_taken hb hf]
      omega
    · rw [s.operated_branch_not_taken hb hf]
      omega

/-- The count fits in its byte with room to spare: at most 7 + 2 - 1 (R8, R110). -/
theorem exec_count {i : Instr} {s t : State} (h : exec i s = .next t) :
    t.cyclesRemaining.toNat = s.cost i + (s.operated i).2 - 1 ∧ t.cyclesRemaining.toNat ≤ 8 := by
  cases eq_of_exec h
  have hbase := Params.base_lt s.params i
  have hbonus := s.bonuses_le i
  have hcost : s.cost i = s.params.base i + s.resolveBonus i.operand := rfl
  rw [State.after, State.finishInstr_cyclesRemaining, BitVec.toNat_ofNat]
  omega

/-- Settles O53: the cost is base and page-cross bonus, and the operation adds its own. -/
theorem countAfterEveryInstruction : Obligations.CountAfterEveryInstruction := by
  intro i s t h
  rw [(exec_count h).1, State.cost, s.resolveBonus_eq_pageBonus, s.operated_bonus]

end Sys2Proof.Machine
end

section
/-! What no instruction depends on (spec/40_fetch_decode_execute.md R114, spec/10_state.md R40): the base
counts and the count (`retimed`), and the five transients (`withTransients`). Each operation is shown to act
alike on two states that differ in these alone. -/

namespace Sys2Proof.Machine

/-! ## The base counts and the count -/

/-- The state with another count and other overrides of the base counts. -/
def State.retimed (s : State) (c : Byte) (ov : List (Byte × Fin 8)) : State :=
  { s with cyclesRemaining := c, params := { s.params with baseOverrides := ov } }

theorem State.eq_retimed_of_untimed_eq {s s' : State} (h : s.untimed = s'.untimed) :
    s' = s.retimed s'.cyclesRemaining s'.params.baseOverrides := by
  obtain ⟨⟩ := s
  obtain ⟨⟩ := s'
  simp only [State.untimed, State.mk.injEq, Params.mk.injEq, true_and] at h
  simp only [State.retimed, h]

section
variable (s : State) (c : Byte) (ov : List (Byte × Fin 8))

theorem State.operandValue_retimed (m : Operand) : (s.retimed c ov).operandValue m = s.operandValue m := by
  cases m <;> rfl

theorem State.resolve_retimed (m : Operand) : (s.retimed c ov).resolve m = (s.resolve m).retimed c ov := by
  cases m <;> rfl

theorem State.fetchOperand_retimed (m : Operand) :
    (s.retimed c ov).fetchOperand m = (s.fetchOperand m).retimed c ov := by cases m <;> rfl

theorem State.entered_retimed (i : Instr) : (s.retimed c ov).entered i = (s.entered i).retimed c ov :=
  (s.beginInstr i.opcode).resolve_retimed c ov i.operand

theorem State.started_retimed (i : Instr) : (s.retimed c ov).started i = (s.started i).retimed c ov := by
  unfold State.started State.fetchedBy
  split
  · rw [State.entered_retimed, State.fetchOperand_retimed]
  · exact s.entered_retimed c ov i

theorem shiftEffect_retimed (r : Byte × Bool) :
    shiftEffect r (s.retimed c ov) = (shiftEffect r s).retimed c ov := by
  cases h : s.isImplied <;> simp [shiftEffect, State.writeBack, State.retimed, State.store, h]

theorem branchOn_retimed (f : Flag) (b : Bool) :
    branchOn f b (s.retimed c ov) = ((branchOn f b s).1.retimed c ov, (branchOn f b s).2) := by
  cases h : getFlag s.p f == b <;> simp only [branchOn, branch, State.retimed, h] <;> rfl

theorem operation_retimed (i : Instr) (v : Byte) :
    operation i v (s.retimed c ov) = ((operation i v s).1.retimed c ov, (operation i v s).2) := by
  cases i with
  | asl _ | lsr _ | rol _ | ror _ => exact congrArg (·, 0) (shiftEffect_retimed s c ov _)
  | bcc _ | bcs _ | beq _ | bne _ | bmi _ | bpl _ | bvc _ | bvs _ => exact branchOn_retimed s c ov _ _
  | _ => rfl

theorem State.operated_retimed (i : Instr) :
    (s.retimed c ov).operated i = ((s.operated i).1.retimed c ov, (s.operated i).2) := by
  rw [State.operated, State.operandValue_retimed, State.started_retimed]
  exact operation_retimed _ c ov i _

end

/-- Settles O54: only the end of an instruction reads the base counts, and it writes nothing from them but the
count. -/
theorem baseCyclesChangeNoResult : Obligations.BaseCyclesChangeNoResult := by
  intro i s s' h
  refine ⟨_, _, exec_eq i s, exec_eq i s', ?_⟩
  rw [State.eq_retimed_of_untimed_eq h, State.after, State.after, State.operated_retimed]
  rfl

/-! ## The transients -/

/-- The state with the transients of `u'` in place of its own. -/
def State.withTransients (u u' : State) : State :=
  { u with opcode := u'.opcode, fetched := u'.fetched, addrAbs := u'.addrAbs, addrRel := u'.addrRel
           isImplied := u'.isImplied }

theorem State.eq_withTransients {u u' : State} (h : u.untransient = u'.untransient) :
    u' = u.withTransients u' := by
  obtain ⟨⟩ := u
  obtain ⟨⟩ := u'
  simp only [State.untransient, State.mk.injEq, true_and] at h
  simp only [State.withTransients, h]

theorem State.cost_withTransients (s r : State) (i : Instr) : (s.withTransients r).cost i = s.cost i := by
  unfold State.cost
  cases i.operand <;> rfl

/-- The resolvers but IMP and REL write `addr_abs` whatever it was before (R133 to R142). -/
theorem State.operandAddress_withTransients (s r : State) {m : Operand} (himp : m ≠ .imp)
    (hrel : ∀ d, m ≠ .rel d) : (s.withTransients r).operandAddress m = s.operandAddress m := by
  cases m with
  | imp => exact absurd rfl himp
  | rel d => exact absurd rfl (hrel d)
  | _ => rfl

theorem State.operandValue_withTransients (s r : State) {m : Operand} (hrel : ∀ d, m ≠ .rel d) :
    (s.withTransients r).operandValue m = s.operandValue m := by
  cases m with
  | rel d => exact absurd rfl (hrel d)
  | _ => rfl

theorem State.started_addrAbs_withTransients (s r : State) {i : Instr} (hb : branchTest i = none)
    (himp : i.operand ≠ .imp) : ((s.withTransients r).started i).addrAbs = (s.started i).addrAbs := by
  rw [State.started_addrAbs, State.started_addrAbs,
    State.operandAddress_withTransients s r himp (operand_ne_rel_of_branchTest hb)]
  rfl

theorem State.untransient_fetchOperand (u : State) (m : Operand) :
    (u.fetchOperand m).untransient = u.untransient := by cases m <;> rfl

theorem State.untransient_started (s r : State) (i : Instr) :
    (s.started i).untransient = ((s.withTransients r).started i).untransient := by
  unfold State.started State.fetchedBy
  split
  · rw [State.untransient_fetchOperand, State.untransient_fetchOperand]
    rfl
  · rfl

theorem shiftEffect_untransient (r : Byte × Bool) {u u' : State} (himp : u'.isImplied = u.isImplied)
    (haddr : u.isImplied = false → u'.addrAbs = u.addrAbs) :
    (shiftEffect r u).untransient = (shiftEffect r (u.withTransients u')).untransient := by
  cases h : u.isImplied with
  | true => simp only [shiftEffect, State.writeBack, State.withTransients, himp, h]; rfl
  | false => simp only [shiftEffect, State.writeBack, State.withTransients, himp, h, haddr h]; rfl

/-- An operation that is no branch reads no transient but `is_implied` and, in a mode that has one, the
address the resolver wrote. -/
theorem operation_untransient {i : Instr} (hb : branchTest i = none) {u u' : State}
    (hrest : u.untransient = u'.untransient) (himp : u.isImplied = decide (i.operand = .imp))
    (himp' : u'.isImplied = u.isImplied) (haddr : i.operand ≠ .imp → u'.addrAbs = u.addrAbs) (v : Byte) :
    (operation i v u).1.untransient = (operation i v u').1.untransient := by
  rw [State.eq_withTransients hrest]
  cases i with
  | asl m | lsr m | rol m | ror m =>
    refine shiftEffect_untransient _ himp' fun h => haddr ?_
    exact of_decide_eq_false (himp.symm.trans h)
  | inc m | dec m | sta m | stx m | sty m | jmp m =>
    have ha := haddr (by cases m <;> nofun)
    simp only [operation, State.withTransients, ha]
    rfl
  | jsr w =>
    simp only [operation, State.withTransients, haddr nofun]
    rfl
  | bcc _ | bcs _ | beq _ | bne _ | bmi _ | bpl _ | bvc _ | bvs _ => cases hb
  | _ => rfl

/-- A branch reads `addr_rel`, which its resolver has just written (R143, R240). -/
theorem State.untransient_operated (s r : State) (i : Instr) :
    (s.operated i).1.untransient = ((s.withTransients r).operated i).1.untransient ∧
      (s.operated i).2 = ((s.withTransients r).operated i).2 := by
  cases hb : branchTest i with
  | none =>
    have hvalue := s.operandValue_withTransients r (operand_ne_rel_of_branchTest hb)
    simp only [State.operated, operation_bonus hb, hvalue, and_true]
    exact operation_untransient hb (s.untransient_started r i) (s.started_isImplied i) (by simp)
      (s.started_addrAbs_withTransients r hb) _
  | some test =>
    obtain ⟨f, b, d⟩ := test
    by_cases hf : getFlag s.p f = b
    · rw [s.operated_branch_taken hb hf, (s.withTransients r).operated_branch_taken hb hf]
      exact ⟨rfl, rfl⟩
    · rw [s.operated_branch_not_taken hb hf, (s.withTransients r).operated_branch_not_taken hb hf]
      exact ⟨s.untransient_started r i, rfl⟩

theorem State.untransient_finishInstr (u : State) (n : Nat) :
    (u.finishInstr n).untransient = u.untransient.finishInstr n := rfl

/-- Settles O55: what the operation leaves is the same but for the transients, and the end of the instruction
reads none of them. -/
theorem transientsInfluenceNothing : Obligations.TransientsInfluenceNothing := by
  intro i s s' h
  obtain ⟨hrest, hbonus⟩ := s.untransient_operated s' i
  refine ⟨_, _, exec_eq i s, exec_eq i s', ?_⟩
  rw [State.eq_withTransients h, State.after, State.after, State.untransient_finishInstr,
    State.untransient_finishInstr, ← hrest, ← hbonus, State.cost_withTransients]

end Sys2Proof.Machine
end

section
/-! The bus transactions of an instruction give its memory (spec/20_memory.md R65, R66;
spec/41_addressing_modes.md R148). The list is replayed in its three parts: the instruction's own bytes and the
pointer of its mode, which only read, and the operation. -/

namespace Sys2Proof.Machine

@[simp] theorem State.started_mem (s : State) (i : Instr) : (s.started i).mem = s.mem := by
  unfold State.started; split <;> simp

theorem holdsOperand_of_holds {s : State} {i : Instr} (h : s.holds i) : s.holdsOperand i.operand := by
  obtain ⟨-, hbytes⟩ := (holds_iff s i).mp h
  revert hbytes
  cases i.operand <;> simp [State.holdsOperand, Operand.size, Operand.bytes]

theorem State.getFlag_started (s : State) (i : Instr) {f : Flag} (h : f ≠ .U) :
    getFlag (s.started i).p f = getFlag s.p f := by
  rw [s.started_p, getFlag_setFlag_other _ _ h]

/-! ## The operation -/

/-- A store under any mode but IMP and IMM goes to the address the resolver wrote (R147). -/
theorem State.started_addrAbs_of_ne_imm (s : State) {i : Instr} (h : ∀ v, i.operand ≠ .imm v) :
    (s.started i).addrAbs = s.operandAddress i.operand := by
  rw [s.started_addrAbs]
  revert h
  cases i.operand with
  | imm v => exact fun h => absurd rfl (h v)
  | _ => exact fun _ => rfl

theorem replay_storeBus (s : State) (m : Operand) (v : Byte) : replay s.mem (s.storeBus m v) =
    some (if m = .imp then s.mem else Memory.write s.mem (s.operandAddress m) v) := by
  unfold State.storeBus
  split <;> rfl

theorem replay_storeBus_of_ne (s : State) {i : Instr} (himp : i.operand ≠ .imp)
    (himm : ∀ v, i.operand ≠ .imm v) (v : Byte) : replay s.mem (s.storeBus i.operand v) =
      some (Memory.write (s.started i).mem (s.started i).addrAbs v) := by
  rw [replay_storeBus, if_neg himp, s.started_mem, s.started_addrAbs_of_ne_imm himm]

/-- A shift fetches its operand and writes the result back: to no byte of memory under IMP (R147, R180). -/
theorem replay_shiftBus {s : State} {i : Instr} (h : s.holdsOperand i.operand)
    (himm : ∀ v, i.operand ≠ .imm v) (r : Byte × Bool) :
    replay s.mem (s.fetchBus i.operand ++ s.storeBus i.operand r.1) =
      some (shiftEffect r (s.started i)).mem := by
  rw [replay_append (replay_fetchBus h), replay_storeBus, shiftEffect, State.writeBack_mem]
  simp [s.started_addrAbs_of_ne_imm himm]

/-- U is set in the pushed status anyway, so the frame's own U does not show in it (R232, R254). -/
theorem State.started_status_pushed (s : State) (i : Instr) :
    statusPushedByInstruction (s.started i).p = statusPushedByInstruction s.p := by
  rw [s.started_p, statusPushedByInstruction_setU]

theorem State.started_brk_pc (s : State) : (s.started .brk).pc + 1 = s.pc + 2 := by
  rw [State.started_pc]
  exact BitVec.add_assoc s.pc 1 1

theorem State.started_jsr_pc (s : State) (w : Addr) : (s.started (.jsr w)).pc - 1 = s.pc + 2 := by
  rw [State.started_pc, show BitVec.ofNat 16 (Instr.jsr w).length = 2 + 1 from rfl, ← BitVec.add_assoc,
    BitVec.add_sub_cancel]

/-- Replaying the operation's transactions gives the memory the operation leaves (R148, second table). -/
theorem replay_operationBus {s : State} {i : Instr} (h : s.holdsOperand i.operand) :
    replay s.mem (s.operationBus i) = some (s.operated i).1.mem := by
  have hmem := s.started_mem i
  cases i with
  | adc _ | sbc _ | and _ | ora _ | eor _ | cmp _ | cpx _ | cpy _ | bit _ | lda _ | ldx _ | ldy _ =>
    exact (replay_fetchBus h).trans (congrArg some hmem.symm)
  | asl m | lsr m => exact replay_shiftBus h (ShiftMode.toOperand_ne_imm m) _
  | rol m | ror m =>
    simp only [State.operated, operation, s.getFlag_started _ (by decide : Flag.C ≠ .U)]
    exact replay_shiftBus h (ShiftMode.toOperand_ne_imm m) _
  | inc m =>
    exact (replay_append (replay_fetchBus h) _).trans
      (replay_storeBus_of_ne s (i := .inc m) (by cases m <;> nofun) (MemMode.toOperand_ne_imm m) _)
  | dec m =>
    exact (replay_append (replay_fetchBus h) _).trans
      (replay_storeBus_of_ne s (i := .dec m) (by cases m <;> nofun) (MemMode.toOperand_ne_imm m) _)
  | sta m =>
    exact replay_storeBus_of_ne s (i := .sta m) (by cases m <;> nofun) (StaMode.toOperand_ne_imm m) _
  | stx m =>
    exact replay_storeBus_of_ne s (i := .stx m) (by cases m <;> nofun) (StxMode.toOperand_ne_imm m) _
  | sty m =>
    exact replay_storeBus_of_ne s (i := .sty m) (by cases m <;> nofun) (StyMode.toOperand_ne_imm m) _
  | pha => rfl
  | php =>
    simp only [State.operated, operation, s.started_status_pushed]
    rfl
  | pla | plp | rts => simp [State.operationBus, State.operated, operation, loadA]
  | rti => simp [State.operationBus, State.operated, operation]
  | jsr w =>
    simp only [State.operated, operation, s.started_jsr_pc]
    rfl
  | brk =>
    simp only [State.operated, operation, s.started_brk_pc, s.started_status_pushed]
    exact replay_exceptionBus s irqVector (s.pc + 2) _ (by decide) (by decide)
  | bcc _ | bcs _ | beq _ | bne _ | bmi _ | bpl _ | bvc _ | bvs _ =>
    exact congrArg some ((branch_mem _ _).trans hmem).symm
  | _ => exact congrArg some hmem.symm

/-! ## The instruction -/

theorem replay_instrBus {s : State} {i : Instr} (h : s.holds i) :
    replay s.mem (s.instrBus i) = some (s.operated i).1.mem := by
  obtain ⟨hop, -⟩ := (holds_iff s i).mp h
  have hoperand := holdsOperand_of_holds h
  rw [State.instrBus, List.cons_append, replay_read hop, replay_append (replay_resolverBus hoperand),
    replay_operationBus hoperand]

/-- A list of transactions keeps the canonical form of memory: each write does. -/
theorem wf_of_replay {m n : Memory} {l : List BusCycle} (hm : Memory.wf m = true)
    (h : replay m l = some n) : Memory.wf n = true := by
  induction l generalizing m with
  | nil => cases h; exact hm
  | cons c l ih =>
    cases c with
    | read a v =>
      simp only [replay] at h
      split at h
      · exact ih hm h
      · cases h
    | write a v => exact ih (Memory.wf_write hm a v) h

end Sys2Proof.Machine
end

section
/-! The host's events (spec/00_scope.md R6, R7): which of them have a next state, what that state is, and the
invariant that every one of them keeps (spec/10_state.md R34, R43, R45). -/

namespace Sys2Proof.Machine

/-! ## What an event can do -/

/-- The transitions of the machine: what each event the host may issue leaves of a state (R110, R311, R313,
R340, R72). -/
inductive EventLeads (s : State) : HostEvent → State → Prop where
  | idle (hseen : s.resetSeen = true) (hcount : s.cyclesRemaining ≠ 0) : EventLeads s .clock s.idle
  | fetch {t : State} (hseen : s.resetSeen = true) (hcount : s.cyclesRemaining = 0)
      (hexec : exec s.instrAtPc s = .next t) : EventLeads s .clock t
  | reset : EventLeads s .reset s.resetEvent
  | irqMasked (hseen : s.resetSeen = true) (hcount : s.cyclesRemaining = 0)
      (hI : getFlag s.p .I = true) : EventLeads s .irq s
  | irqEnters (hseen : s.resetSeen = true) (hcount : s.cyclesRemaining = 0)
      (hI : getFlag s.p .I = false) : EventLeads s .irq (s.interruptEntry irqVector 7)
  | nmiEnters (hseen : s.resetSeen = true) (hcount : s.cyclesRemaining = 0) :
      EventLeads s .nmi (s.interruptEntry nmiVector 8)
  | write (a : Addr) (v : Byte) : EventLeads s (.write a v) (s.store a v)

/-- Every next state of an event is one of these. -/
theorem eventLeads_of_next {e : HostEvent} {s t : State} (h : hostEvent e s = .next t) :
    EventLeads s e t := by
  cases e with
  | clock =>
    simp only [hostEvent, clockEvent] at h
    split at h
    · cases h
    next hseen =>
      have hseen := Bool.eq_true_of_not_eq_false hseen
      split at h
      next hcount => cases h; exact .idle hseen hcount
      next hcount => exact .fetch hseen (not_not.mp hcount) h
  | reset => cases h; exact .reset
  | irq =>
    simp only [hostEvent, irqEvent] at h
    split at h
    · cases h
    next hseen =>
      have hseen := Bool.eq_true_of_not_eq_false hseen
      split at h
      · cases h
      next hcount =>
        have hcount := not_not.mp hcount
        split at h
        next hI => cases h; exact .irqMasked hseen hcount hI
        next hI => cases h; exact .irqEnters hseen hcount (Bool.eq_false_iff.mpr hI)
  | nmi =>
    simp only [hostEvent, nmiEvent] at h
    split at h
    · cases h
    next hseen =>
      split at h
      · cases h
      next hcount => cases h; exact .nmiEnters (Bool.eq_true_of_not_eq_false hseen) (not_not.mp hcount)
  | write a v => cases h; exact .write a v

/-! ## The step -/

/-- A step is the next event of the host on the state without that event (log 4). -/
theorem step_eq (s : State) :
    step s = hostEvent s.nextHostEvent { s with hostEvents := s.hostEvents.tail } := by
  cases he : s.hostEvents with
  | nil =>
    have hs : { s with hostEvents := [] } = s := by rw [← he]
    rw [step_of_nil he, State.nextHostEvent, he, List.tail_nil, hs]
    rfl
  | cons e es => rw [step_of_cons he, State.nextHostEvent, he]; rfl

/-! ### The host's contract -/

theorem clockEvent_beforeReset {s : State} (h : s.resetSeen = false) :
    clockEvent s = .refused .clockBeforeReset := if_pos h

theorem irqEvent_beforeReset {s : State} (h : s.resetSeen = false) :
    irqEvent s = .refused .irqBeforeReset := if_pos h

theorem nmiEvent_beforeReset {s : State} (h : s.resetSeen = false) :
    nmiEvent s = .refused .nmiBeforeReset := if_pos h

theorem irqEvent_midInstruction {s : State} (h : s.resetSeen = true) (hc : s.complete = false) :
    irqEvent s = .refused .irqMidInstruction := by
  rw [irqEvent, if_neg (by simp [h]), if_pos (beq_eq_false_iff_ne.mp hc)]

theorem nmiEvent_midInstruction {s : State} (h : s.resetSeen = true) (hc : s.complete = false) :
    nmiEvent s = .refused .nmiMidInstruction := by
  rw [nmiEvent, if_neg (by simp [h]), if_pos (beq_eq_false_iff_ne.mp hc)]

/-- An event has a next state exactly when the host may issue it (R7). -/
theorem exists_next_iff_permits (e : HostEvent) (s : State) :
    (∃ t, hostEvent e s = .next t) ↔ s.permits e = true := by
  constructor
  · rintro ⟨t, h⟩
    cases eventLeads_of_next h <;> simp_all [State.permits, State.complete]
  · intro h
    cases e with
    | clock =>
      have hseen : s.resetSeen = true := h
      by_cases hcount : s.cyclesRemaining = 0
      · exact ⟨_, (clockEvent_fetch hseen hcount).trans (exec_eq _ _)⟩
      · exact ⟨_, clockEvent_idle hseen hcount⟩
    | irq =>
      obtain ⟨hseen, hcomplete⟩ : s.resetSeen = true ∧ s.complete = true := by
        simpa [State.permits] using h
      have hcount := s.cyclesRemaining_of_complete hcomplete
      cases hI : getFlag s.p .I with
      | true => exact ⟨_, irqEvent_masked hseen hcount hI⟩
      | false => exact ⟨_, irqEvent_enters hseen hcount hI⟩
    | nmi =>
      obtain ⟨hseen, hcomplete⟩ : s.resetSeen = true ∧ s.complete = true := by
        simpa [State.permits] using h
      exact ⟨_, nmiEvent_enters hseen (s.cyclesRemaining_of_complete hcomplete)⟩
    | reset => exact ⟨_, rfl⟩
    | write a v => exact ⟨_, rfl⟩

/-- Settles O12: `permits` reads no list of events, so what holds of the event holds of the step. -/
theorem stepStopsExactlyOutsideTheHostContract : Obligations.StepStopsExactlyOutsideTheHostContract := by
  intro s
  simp only [step_eq]
  refine ⟨exists_next_iff_permits _ _, fun hseen he => ?_, fun hseen he => ?_, fun hseen he => ?_,
    fun hseen hc he => ?_, fun hseen hc he => ?_⟩ <;> rw [he]
  · exact clockEvent_beforeReset hseen
  · exact irqEvent_beforeReset hseen
  · exact nmiEvent_beforeReset hseen
  · exact irqEvent_midInstruction hseen hc
  · exact nmiEvent_midInstruction hseen hc

theorem State.idle_count {s : State} (h : s.cyclesRemaining ≠ 0) :
    s.idle.cyclesRemaining.toNat + 1 = s.cyclesRemaining.toNat := by
  have hpos : 1 ≤ s.cyclesRemaining.toNat :=
    Nat.one_le_iff_ne_zero.mpr fun hz => h (BitVec.eq_of_toNat_eq hz)
  rw [State.idle_cyclesRemaining, BitVec.toNat_sub_of_le hpos]
  exact Nat.sub_add_cancel hpos

/-- Settles O8: the step is `idle`. -/
theorem idleClockOnlyCountsDown : Obligations.IdleClockOnlyCountsDown := by
  intro s hseen he hcount
  exact ⟨s.idle, (step_of_nil he).trans (clockEvent_idle hseen hcount), State.idle_count hcount, rfl⟩

/-- Settles O9: the event is taken off the list and `resetEvent` writes the rest. -/
theorem resetEventSetsEveryRegister : Obligations.ResetEventSetsEveryRegister := by
  intro s es he
  exact ⟨_, step_of_cons he, rfl, rfl, rfl, rfl, rfl, State.read16_toNat _ resetVector, rfl, rfl, rfl, rfl,
    rfl, rfl, rfl, rfl, rfl, rfl⟩

/-- Settles O10: the vector of an empty memory is two background bytes. -/
theorem resetStateIsPowerOnReset : Obligations.ResetStateIsPowerOnReset := rfl

/-! ### An instruction and its Idle clocks -/

theorem exec_resetSeen_hostEvents {i : Instr} {s t : State} (h : exec i s = .next t) :
    t.resetSeen = s.resetSeen ∧ t.hostEvents = s.hostEvents := by
  obtain ⟨⟨-, -, -, -, hseen, hevents⟩, -⟩ := frameOfEveryInstruction i s t h
  exact ⟨hseen, hevents⟩

/-- Settles O15: the first step is the instruction, and the Idle clocks after it count down its count. -/
theorem instructionOccupiesItsClocks : Obligations.InstructionOccupiesItsClocks := by
  intro s hseen he hcount
  obtain ⟨t, ht⟩ := noInstructionStops s.instrAtPc s
  obtain ⟨htseen, htevents⟩ := exec_resetSeen_hostEvents ht
  have hstep : step s = .next t := by rw [step_of_nil he, clockEvent_fetch hseen hcount, ht]
  have hidle : ∀ k, k ≤ t.cyclesRemaining.toNat → run (k + 1) s =
      .next { t with cyclesRemaining := BitVec.ofNat 8 (t.cyclesRemaining.toNat - k) } := by
    intro k hk
    rw [run_succ_of_next hstep, run_idle_of_count_eq (htseen.trans hseen) (htevents.trans he)
      (BitVec.ofNat_toNat 8 t.cyclesRemaining).symm t.cyclesRemaining.isLt hk]
  refine ⟨t, ht, ?_, fun k hk1 hk => ?_⟩
  · rw [hidle _ le_rfl, Nat.sub_self]
    rfl
  · obtain ⟨j, rfl⟩ := Nat.exists_eq_add_of_le' hk1
    refine ⟨_, hidle j (by omega), beq_eq_false_iff_ne.mpr fun h => ?_⟩
    have hlt := t.cyclesRemaining.isLt
    have hzero := congrArg BitVec.toNat h
    rw [BitVec.toNat_ofNat, Nat.mod_eq_of_lt (by omega)] at hzero
    have : t.cyclesRemaining.toNat - j = 0 := hzero
    omega

/-! ## The bus transactions of an event -/

/-- Settles O56: the events that touch memory are the fetch of an instruction and the two entries; the others
only read. -/
theorem busTransactionsGiveTheMemory : Obligations.BusTransactionsGiveTheMemory := by
  intro e s t hcore h
  cases eventLeads_of_next h with
  | idle hseen hcount => rw [State.eventBus, State.complete, beq_false_of_ne hcount]; rfl
  | fetch hseen hcount hexec =>
    cases eq_of_exec hexec
    rw [State.eventBus, State.complete, hcount]
    exact replay_instrBus (holds_instrAtPc s)
  | reset => simp [State.eventBus]
  | irqMasked hseen hcount hI => rw [State.eventBus, if_pos hI]; rfl
  | irqEnters hseen hcount hI =>
    rw [State.eventBus, if_neg (by simp [hI]), replay_exceptionBus _ _ _ _ (by decide) (by decide)]
    simp
  | nmiEnters hseen hcount =>
    rw [State.eventBus, replay_exceptionBus _ _ _ _ (by decide) (by decide)]
    simp
  | write a v => exact absurd rfl (hcore a v)

/-! ## The invariant of a run -/

/-- After the first Reset the clause about the power-on registers says nothing. -/
theorem inv_of_resetSeen {t : State} (hmem : Memory.wf t.mem = true) (hparams : t.params.wf = true)
    (hcount : t.cyclesRemaining.toNat ≤ 8) (hU : getFlag t.p .U = true) (hseen : t.resetSeen = true) :
    t.Inv :=
  ⟨hmem, hparams, hcount, fun _ => hU, fun h => absurd (h.symm.trans hseen) Bool.false_ne_true⟩

/-- Taking an event off the list keeps the invariant. -/
theorem inv_hostEvents {s : State} (h : s.Inv) (es : List HostEvent) : { s with hostEvents := es }.Inv := by
  obtain ⟨hmem, hparams, hcount, hU, hpower⟩ := h
  exact ⟨hmem, hparams, hcount, hU,
    fun hseen => congrArg (fun u : State => { u with hostEvents := es }) (hpower hseen)⟩

/-- So does a host write, before the first Reset too. -/
theorem inv_store {s : State} (h : s.Inv) (a : Addr) (v : Byte) : (s.store a v).Inv := by
  obtain ⟨hmem, hparams, hcount, hU, hpower⟩ := h
  exact ⟨Memory.wf_write hmem a v, hparams, hcount, hU,
    fun hseen => congrArg (fun u : State => u.store a v) (hpower hseen)⟩

theorem inv_resetEvent {s : State} (h : s.Inv) : s.resetEvent.Inv := by
  obtain ⟨hmem, hparams, -, -, -⟩ := h
  have hU : getFlag s.resetEvent.p .U = true := by rw [State.resetEvent_p]; decide
  exact inv_of_resetSeen hmem hparams (Nat.le_refl 8) hU rfl

theorem inv_idle {s : State} (h : s.Inv) (hseen : s.resetSeen = true) (hcount : s.cyclesRemaining ≠ 0) :
    s.idle.Inv := by
  obtain ⟨hmem, hparams, hle, hU, -⟩ := h
  have hidle := State.idle_count hcount
  exact inv_of_resetSeen hmem hparams (by omega) (hU hseen) hseen

theorem inv_interruptEntry {s : State} (h : s.Inv) (hseen : s.resetSeen = true) (vec : Addr) {n : Byte}
    (hn : n.toNat ≤ 8) : (s.interruptEntry vec n).Inv := by
  obtain ⟨hmem, hparams, -, -, -⟩ := h
  refine inv_of_resetSeen ?_ (by simpa using hparams) (by simpa using hn) (by simp) (by simpa using hseen)
  rw [State.interruptEntry_mem, State.push16_mem]
  exact Memory.wf_write (Memory.wf_write (Memory.wf_write hmem _ _) _ _) _ _

/-- An instruction that lies at PC keeps the invariant: its stores are those of its bus transactions. -/
theorem inv_exec {i : Instr} {s t : State} (h : s.Inv) (hseen : s.resetSeen = true) (hi : s.holds i)
    (hexec : exec i s = .next t) : t.Inv := by
  obtain ⟨hmem, hparams, -, -, -⟩ := h
  obtain ⟨⟨-, -, hU, htparams, htseen, -⟩, -⟩ := frameOfEveryInstruction i s t hexec
  have hcount := (exec_count hexec).2
  refine inv_of_resetSeen ?_ (htparams ▸ hparams) hcount hU (htseen.trans hseen)
  cases eq_of_exec hexec
  exact wf_of_replay hmem (replay_instrBus hi)

theorem inv_of_eventLeads {e : HostEvent} {s t : State} (h : s.Inv) (hlead : EventLeads s e t) : t.Inv := by
  cases hlead with
  | idle hseen hcount => exact inv_idle h hseen hcount
  | fetch hseen hcount hexec => exact inv_exec h hseen (holds_instrAtPc s) hexec
  | reset => exact inv_resetEvent h
  | irqMasked hseen hcount hI => exact h
  | irqEnters hseen hcount hI => exact inv_interruptEntry h hseen _ (by decide)
  | nmiEnters hseen hcount => exact inv_interruptEntry h hseen _ (by decide)
  | write a v => exact inv_store h a v

/-- Settles O14: the event is taken off the list, and each event keeps the invariant. -/
theorem everyStepKeepsTheRunInvariant : Obligations.EveryStepKeepsTheRunInvariant := by
  intro s t h hstep
  rw [step_eq] at hstep
  exact inv_of_eventLeads (inv_hostEvents h _) (eventLeads_of_next hstep)

theorem inv_powerOn {mem : Memory} {ps : Params} (hmem : Memory.wf mem = true) (hparams : ps.wf = true) :
    (State.powerOn mem ps).Inv :=
  ⟨hmem, hparams, by simp [State.powerOn], nofun, fun _ => rfl⟩

/-- Settles O13: `State.reset` is the Reset of a power-on state. -/
theorem runInvariantHoldsAtReset : Obligations.RunInvariantHoldsAtReset := by
  have hreset : State.reset = (State.powerOn [] Params.default).resetEvent := resetStateIsPowerOnReset
  unfold Obligations.RunInvariantHoldsAtReset
  rw [hreset]
  exact inv_resetEvent (inv_powerOn Memory.wf_nil (by decide))

end Sys2Proof.Machine
end

section
/-! The instructions that write a register or the flags from their operand (spec/42_arithmetic_logical.md,
spec/44_compare_incdec.md, spec/45_load_store_transfer.md, spec/48_flag_bit_nop.md). Each result is read off the
operation; PC and the frame come from the rules about every instruction. -/

namespace Sys2Proof.Machine

/-! ## What the end of an instruction shows of its operation -/

/-- The frame of R37, of the state after an instruction. -/
theorem State.after_kept (s : State) (i : Instr) :
    Kept (regsWritten i) (flagsWritten i) s (s.after i) ∧ MemKept (s.storedTo i) s (s.after i) :=
  frameOfEveryInstruction i s _ (exec_eq i s)

/-- PC and the frame of an instruction that transfers no control (R25, R37). -/
theorem exec_sequential {i : Instr} {s t : State} (h : exec i s = .next t)
    (hi : transfersControl i = false) :
    Falls i s t ∧ Kept (regsWritten i) (flagsWritten i) s t ∧ MemKept (s.storedTo i) s t :=
  ⟨exec_falls h hi, frameOfEveryInstruction i s t h⟩

theorem State.getFlag_finishInstr (u : State) (n : Nat) {f : Flag} (h : f ≠ .U) :
    getFlag (u.finishInstr n).p f = getFlag u.p f :=
  getFlag_setFlag_other u.p true h

theorem znOf_finishInstr {u : State} {p v : Byte} (h : u.p = setZN p v) (n : Nat) :
    ZNof (u.finishInstr n) v := by
  refine ⟨?_, ?_⟩ <;> rw [State.getFlag_finishInstr _ _ (by decide), h, getFlag_setZN] <;> rfl

theorem State.getFlag_after (s : State) (i : Instr) {f : Flag} (h : f ≠ .U) :
    getFlag (s.after i).p f = getFlag (s.operated i).1.p f := State.getFlag_finishInstr _ _ h

theorem State.getFlag_U_after (s : State) (i : Instr) : getFlag (s.after i).p .U = true :=
  getFlag_setFlag_same (s.operated i).1.p .U true

theorem State.load_after (s : State) (i : Instr) (a : Addr) :
    (s.after i).load a = (s.operated i).1.load a := rfl

@[simp] theorem State.started_a (s : State) (i : Instr) : (s.started i).a = s.a := by
  unfold State.started; split <;> simp
@[simp] theorem State.started_sp (s : State) (i : Instr) : (s.started i).sp = s.sp := by
  unfold State.started; split <;> simp
@[simp] theorem State.started_load (s : State) (i : Instr) (a : Addr) : (s.started i).load a = s.load a :=
  State.load_congr (s.started_mem i) a

/-! ## One register, with Z and N from it -/

/-- An instruction whose operation writes `val` to `dst`, and Z and N from it. -/
theorem writesReg_of_operated {i : Instr} {dst : Reg} {val : State → Byte}
    (hreg : ∀ s : State, (s.operated i).1.reg dst = val s)
    (hzn : ∀ s : State, ∃ p, (s.operated i).1.p = setZN p ((s.operated i).1.reg dst))
    (hi : transfersControl i = false := by rfl) (hregs : regsWritten i = [dst] := by rfl)
    (hflags : flagsWritten i = [.Z, .N] := by rfl)
    (hmem : ∀ s : State, s.storedTo i = [] := by exact fun _ => rfl) : WritesReg i dst val := by
  intro s
  obtain ⟨hfalls, hkept, hmemkept⟩ := exec_sequential (exec_eq i s) hi
  obtain ⟨p, hp⟩ := hzn s
  rw [hregs, hflags] at hkept
  rw [hmem] at hmemkept
  exact ⟨_, exec_eq i s, hreg s, znOf_finishInstr (hreg s ▸ hp) _, hfalls, hkept, hmemkept⟩

/-- Settles O23: the operation is a load of the bitwise result. -/
theorem logicalInstructions : Obligations.LogicalInstructions := by
  intro m
  refine ⟨writesReg_of_operated (fun s => ?_) (fun _ => ⟨_, rfl⟩),
    writesReg_of_operated (fun s => ?_) (fun _ => ⟨_, rfl⟩),
    writesReg_of_operated (fun s => ?_) (fun _ => ⟨_, rfl⟩)⟩ <;>
  · simp only [State.operated, operation, State.started_a]
    rfl

/-- Settles O29: the operation is a load of the operand. -/
theorem loadInstructions : Obligations.LoadInstructions :=
  ⟨fun _ => writesReg_of_operated (fun _ => rfl) (fun _ => ⟨_, rfl⟩),
    fun _ => writesReg_of_operated (fun _ => rfl) (fun _ => ⟨_, rfl⟩),
    fun _ => writesReg_of_operated (fun _ => rfl) (fun _ => ⟨_, rfl⟩)⟩

/-- Settles O31: five transfers are loads from a register; TXS writes SP alone. -/
theorem transferInstructions : Obligations.TransferInstructions :=
  ⟨writesReg_of_operated (fun _ => rfl) (fun _ => ⟨_, rfl⟩),
    writesReg_of_operated (fun _ => rfl) (fun _ => ⟨_, rfl⟩),
    writesReg_of_operated (fun _ => rfl) (fun _ => ⟨_, rfl⟩),
    writesReg_of_operated (fun _ => rfl) (fun _ => ⟨_, rfl⟩),
    writesReg_of_operated (fun _ => rfl) (fun _ => ⟨_, rfl⟩),
    fun s => ⟨_, exec_eq .txs s, rfl, exec_sequential (exec_eq .txs s) rfl⟩⟩

theorem add_one_eq_ofNat (v : Byte) : v + 1 = BitVec.ofNat 8 (v.toNat + 1) := by
  rw [BitVec.ofNat_add, BitVec.ofNat_toNat, BitVec.setWidth_eq]
  rfl

theorem sub_one_eq_ofNat (v : Byte) : v - 1 = BitVec.ofNat 8 (v.toNat + 255) := by
  refine BitVec.eq_of_toNat_eq ?_
  rw [sp_sub_one_toNat, BitVec.toNat_ofNat]

/-- Settles O28: each is a load of the register's neighbour modulo 256. -/
theorem incrementAndDecrementRegisters : Obligations.IncrementAndDecrementRegisters :=
  ⟨writesReg_of_operated (fun s => add_one_eq_ofNat s.x) (fun _ => ⟨_, rfl⟩),
    writesReg_of_operated (fun s => add_one_eq_ofNat s.y) (fun _ => ⟨_, rfl⟩),
    writesReg_of_operated (fun s => sub_one_eq_ofNat s.x) (fun _ => ⟨_, rfl⟩),
    writesReg_of_operated (fun s => sub_one_eq_ofNat s.y) (fun _ => ⟨_, rfl⟩)⟩

/-! ## ADC and SBC -/

theorem carryIn_le (s : State) : carryIn s ≤ 1 := carryNat_le s.p

theorem carryNat_fetchedBy (s : State) (i : Instr) : carryNat (s.fetchedBy i).p = carryIn s := by
  rw [State.fetchedBy_p, carryNat_setFlag_other s.p true (by decide)]
  rfl

/-- U apart, the flags of `added` are those of the sum (R160). -/
theorem State.getFlag_added (s : State) (i : Instr) (v : Byte) {f : Flag} (h : f ≠ .U) :
    getFlag (s.added i v).p f = getFlag (addFlags (s.fetchedBy i).p (s.fetchedBy i).a v) f :=
  State.getFlag_finishInstr _ _ h

theorem State.added_carry (s : State) (i : Instr) (v : Byte) :
    getFlag (s.added i v).p .C = decide (s.a.toNat + v.toNat + carryIn s > 255) := by
  rw [s.getFlag_added i v (by decide), getFlag_addFlags, carrySum, carryNat_fetchedBy, State.fetchedBy_a]
  rfl

theorem State.added_overflow (s : State) (i : Instr) (v : Byte) :
    getFlag (s.added i v).p .V = true ↔ OutOfSignedRange (s.a.toInt + v.toInt + carryIn s) := by
  have h := addOverflow_iff (s.fetchedBy i).p (s.fetchedBy i).a v
  rw [carryNat_fetchedBy, State.fetchedBy_a] at h
  rw [s.getFlag_added i v (by decide), getFlag_addFlags, State.fetchedBy_a]
  exact h

theorem State.added_znOf (s : State) (i : Instr) (v : Byte) : ZNof (s.added i v) (s.added i v).a :=
  znOf_finishInstr (u := addWithCarry v (s.fetchedBy i)) rfl _

/-- Settles O20: the next state is `added` with the operand. -/
theorem adcAddsWithCarry : Obligations.AdcAddsWithCarry := by
  intro m s
  have hexec : exec (.adc m) s = .next (s.added (.adc m) (s.operandValue m.toOperand)) := exec_adc m s
  exact ⟨_, hexec, s.added_a_toNat _ _, s.added_carry _ _, s.added_overflow _ _, s.added_znOf _ _,
    exec_sequential hexec rfl⟩

/-- The one's complement, signed. -/
theorem xor_FF_toInt (v : Byte) : (v ^^^ 0xFF).toInt = -1 - v.toInt := by
  have hv := v.isLt
  rw [toInt_eq, toInt_eq, xor_FF_toNat]
  split <;> split <;> omega

/-- Settles O21: adding the one's complement and the carry is subtracting the operand and the borrow. -/
theorem sbcSubtractsWithBorrow : Obligations.SbcSubtractsWithBorrow := by
  intro m s
  have hexec : exec (.sbc m) s = .next (s.added (.sbc m) (s.operandValue m.toOperand ^^^ 0xFF)) :=
    exec_sbc m s
  have hc := carryIn_le s
  have hv := (s.operandValue m.toOperand).isLt
  refine ⟨_, hexec, ?diff, ?carry, ?overflow, s.added_znOf _ _, exec_sequential hexec rfl⟩
  case diff =>
    rw [s.added_a_toNat, xor_FF_toNat]
    omega
  case carry =>
    rw [s.added_carry, xor_FF_toNat]
    exact decide_eq_decide.mpr (by omega)
  case overflow =>
    rw [s.added_overflow, xor_FF_toInt]
    unfold OutOfSignedRange
    omega

/-! ## The flags -/

/-- An instruction whose operation writes one flag. -/
theorem writesFlag_of_operated {i : Instr} {f : Flag} {b : Bool}
    (hp : ∀ s : State, (s.operated i).1.p = setFlag (s.started i).p f b := by exact fun _ => rfl)
    (hU : f ≠ .U := by decide) (hi : transfersControl i = false := by rfl)
    (hregs : regsWritten i = [] := by rfl) (hflags : flagsWritten i = [f] := by rfl)
    (hmem : ∀ s : State, s.storedTo i = [] := by exact fun _ => rfl) : WritesFlag i f b := by
  intro s
  obtain ⟨hfalls, hkept, hmemkept⟩ := exec_sequential (exec_eq i s) hi
  rw [hregs, hflags] at hkept
  rw [hmem] at hmemkept
  refine ⟨_, exec_eq i s, ?_, hfalls, hkept, hmemkept⟩
  rw [State.getFlag_after _ _ hU, hp, getFlag_setFlag_same]

/-- Settles O46: each operation is `writeFlag`. -/
theorem flagInstructions : Obligations.FlagInstructions :=
  ⟨writesFlag_of_operated, writesFlag_of_operated, writesFlag_of_operated, writesFlag_of_operated,
    writesFlag_of_operated, writesFlag_of_operated, writesFlag_of_operated⟩

/-- Two bytes share no set bit (R277). -/
theorem and_eq_zero_iff_getLsbD (a v : Byte) :
    a &&& v = 0 ↔ ∀ k, k < 8 → (a.getLsbD k && v.getLsbD k) = false := by
  simp only [← BitVec.getLsbD_and]
  exact ⟨fun h k _ => by simp [h], fun h => BitVec.eq_of_getLsbD_eq fun k hk => by simpa using h k hk⟩

theorem getLsbD_seven_eq (v : Byte) : v.getLsbD 7 = decide (128 ≤ v.toNat) := by
  rw [← bit7_eq_getLsbD, bit7_eq]

theorem getLsbD_six_eq (v : Byte) : v.getLsbD 6 = decide (64 ≤ v.toNat % 128) := by
  revert v; decide

/-- Settles O47: the flags are those of `bitFlags`, U apart. -/
theorem bitTestsTheOperand : Obligations.BitTestsTheOperand := by
  intro m s
  have hflag : ∀ f, f ≠ .U → getFlag (s.after (.bit m)).p f =
      getFlag (bitFlags (s.started (.bit m)).p s.a (s.operandValue m.toOperand)) f := fun f hf => by
    rw [State.getFlag_after _ _ hf, ← s.started_a (.bit m)]
    rfl
  refine ⟨_, exec_eq (.bit m) s, ?Z, ?N, ?V, exec_sequential (exec_eq (.bit m) s) rfl⟩
  case Z =>
    rw [hflag _ (by decide), getFlag_bitFlags, ← and_eq_zero_iff_getLsbD]
    exact decide_eq_true_iff
  case N => rw [hflag _ (by decide), getFlag_bitFlags, ← getLsbD_seven_eq]; rfl
  case V => rw [hflag _ (by decide), getFlag_bitFlags, ← getLsbD_six_eq]; rfl

/-! ## NOP and XXX -/

/-- Settles O48: the operation is nothing, so what is left is the frame of the instruction. -/
theorem nopAndXxxDoNothing : Obligations.NopAndXxxDoNothing := by
  intro s
  refine ⟨?nop, fun op v => ?variant, fun op => ?xxx⟩
  case nop =>
    obtain ⟨hfalls, hkept, hmem⟩ := exec_sequential (exec_eq (.nop .imp) s) rfl
    have hbase : s.params.base (.nop .imp) ≤ 256 := by
      have := Params.base_lt s.params (.nop .imp)
      omega
    exact ⟨_, exec_eq (.nop .imp) s, hfalls, hkept, hmem, State.finishInstr_count _ hbase⟩
  case variant =>
    obtain ⟨hfalls, hkept, hmem⟩ := exec_sequential (exec_eq (.nop (.variant op v)) s) rfl
    exact ⟨_, exec_eq _ s, hfalls, hkept, hmem,
      (exec_count (exec_eq _ s)).1.trans (Nat.add_sub_cancel _ 1)⟩
  case xxx =>
    have hpc : s.pc + 1 + BitVec.ofNat 16 0 = s.pc + 1 := BitVec.add_zero (s.pc + 1)
    have hp : setFlag (setFlag s.p .U true) .U true = s.p ||| 0x20 := setFlag_setFlag s.p .U true true
    refine ⟨_, exec_eq (.xxx op) s, ?_⟩
    rw [← hp, ← hpc]
    rfl

end Sys2Proof.Machine
end

section
/-! The instructions that write memory at the resolved address (spec/43_shift_rotate.md,
spec/44_compare_incdec.md R194, R195; spec/45_load_store_transfer.md R213 to R215), and the shifts of A. -/

namespace Sys2Proof.Machine

theorem State.load_store_same (s : State) (a : Addr) (v : Byte) : (s.store a v).load a = v := by
  rw [State.load_store, if_pos rfl]

/-! ## Stores -/

/-- An instruction whose operation stores a register's byte at the resolved address. -/
theorem storesReg_of_operated {i : Instr} {reg : State → Byte} (himm : ∀ v, i.operand ≠ .imm v)
    (hop : ∀ s : State, (s.operated i).1 = (s.started i).store (s.started i).addrAbs (reg s) := by
      exact fun _ => rfl)
    (hi : transfersControl i = false := by rfl) (hregs : regsWritten i = [] := by rfl)
    (hflags : flagsWritten i = [] := by rfl)
    (hmem : ∀ s : State, s.storedTo i = [s.operandAddress i.operand] := by exact fun _ => rfl) :
    StoresReg i reg := by
  intro s
  obtain ⟨hfalls, hkept, hmemkept⟩ := exec_sequential (exec_eq i s) hi
  rw [hregs, hflags] at hkept
  rw [hmem] at hmemkept
  refine ⟨_, exec_eq i s, ?_, hfalls, hkept, hmemkept⟩
  rw [State.load_after, hop, s.started_addrAbs_of_ne_imm himm, State.load_store_same]

/-- Settles O30: each operation is one store of its register. -/
theorem storeInstructions : Obligations.StoreInstructions :=
  ⟨fun m => storesReg_of_operated (StaMode.toOperand_ne_imm m),
    fun m => storesReg_of_operated (StxMode.toOperand_ne_imm m),
    fun m => storesReg_of_operated (StyMode.toOperand_ne_imm m)⟩

/-- Settles O57: the stored byte lies where PC points next, and the decoder keeps the opcode byte it reads. -/
theorem storedCodeIsFetched : Obligations.StoredCodeIsFetched := by
  intro s
  obtain ⟨hsta, -, -⟩ := storeInstructions
  obtain ⟨t, hexec, hbyte, hfalls, -, -⟩ := hsta (.abs (s.pc + 3)) s
  have hpc : t.pc = s.pc + 3 := hfalls
  refine ⟨t, hexec, hpc, ?_⟩
  rw [State.instrAtPc, decodeBytes_opcode, hpc]
  exact hbyte

/-! ## INC and DEC -/

/-- Byte `v` stored at the resolved address, with Z and N from it (R194, R195). -/
theorem stores_of_operated_eq_storeZN {i : Instr} {s : State} {v : Byte} (himm : ∀ b, i.operand ≠ .imm b)
    (hop : (s.operated i).1 = storeZN v (s.started i)) :
    (s.after i).load (s.operandAddress i.operand) = v ∧ ZNof (s.after i) v := by
  constructor
  · rw [State.load_after, hop, ← s.started_addrAbs_of_ne_imm himm]
    exact (s.started i).load_store_same _ v
  · rw [State.after, hop]
    exact znOf_finishInstr rfl _

/-- Settles O27: each operation stores the neighbour of the byte it fetched. -/
theorem incrementAndDecrementMemory : Obligations.IncrementAndDecrementMemory := by
  intro m s
  have hvalue := MemMode.operandValue_eq m s
  constructor
  · obtain ⟨hbyte, hzn⟩ := stores_of_operated_eq_storeZN (i := .inc m) (s := s)
      (MemMode.toOperand_ne_imm m) rfl
    refine ⟨_, exec_eq (.inc m) s, ?_, hbyte.symm ▸ hzn, exec_sequential (exec_eq (.inc m) s) rfl⟩
    rw [← sp_add_one_toNat, ← hvalue]
    exact congrArg BitVec.toNat hbyte
  · obtain ⟨hbyte, hzn⟩ := stores_of_operated_eq_storeZN (i := .dec m) (s := s)
      (MemMode.toOperand_ne_imm m) rfl
    refine ⟨_, exec_eq (.dec m) s, ?_, hbyte.symm ▸ hzn, exec_sequential (exec_eq (.dec m) s) rfl⟩
    rw [← sp_sub_one_toNat, ← hvalue]
    exact congrArg BitVec.toNat hbyte

/-! ## Shifts and rotates -/

theorem shiftEffect_a_of_implied {u : State} (h : u.isImplied = true) (r : Byte × Bool) :
    (shiftEffect r u).a = r.1 := by
  simp [shiftEffect, h]

theorem load_shiftEffect_of_not_implied {u : State} (h : u.isImplied = false) (r : Byte × Bool) :
    (shiftEffect r u).load u.addrAbs = r.1 := by
  simp [shiftEffect, State.load, h]

/-- The instructions `mk m` shift: `f` of the carry and the operand is the result and the bit shifted out. -/
structure RunsShift (mk : ShiftMode → Instr) (f : Bool → Byte → Byte × Bool) : Prop where
  operated : ∀ m (s : State), (s.operated (mk m)).1 =
    shiftEffect (f (getFlag (s.started (mk m)).p .C) (s.operandValue m.toOperand)) (s.started (mk m)) := by
      exact fun _ _ => rfl
  operand : ∀ m, (mk m).operand = m.toOperand := by exact fun _ => rfl
  sequential : ∀ m, transfersControl (mk m) = false := by exact fun _ => rfl
  regsWritten : ∀ m, regsWritten (mk m) = if m = .acc then [.A] else [] := by exact fun _ => rfl
  flagsWritten : ∀ m, flagsWritten (mk m) = [.C, .Z, .N] := by exact fun _ => rfl
  storedTo : ∀ m (s : State), s.storedTo (mk m) =
    if m = .acc then [] else [s.operandAddress m.toOperand] := by exact fun _ _ => rfl

namespace RunsShift

variable {mk : ShiftMode → Instr} {f : Bool → Byte → Byte × Bool}

/-- The operation with the carry as it was before the instruction, which writes U before it shifts. -/
theorem operated_eq (h : RunsShift mk f) (m : ShiftMode) (s : State) : (s.operated (mk m)).1 =
    shiftEffect (f (getFlag s.p .C) (s.operandValue m.toOperand)) (s.started (mk m)) := by
  rw [h.operated, s.getFlag_started _ (by decide)]

theorem isImplied (h : RunsShift mk f) (m : ShiftMode) (s : State) :
    (s.started (mk m)).isImplied = decide (m = .acc) := by
  rw [s.started_isImplied, h.operand]
  exact decide_eq_decide.mpr ShiftMode.toOperand_eq_imp

theorem addrAbs (h : RunsShift mk f) (m : ShiftMode) (s : State) :
    (s.started (mk m)).addrAbs = s.operandAddress m.toOperand := by
  rw [s.started_addrAbs_of_ne_imm (h.operand m ▸ ShiftMode.toOperand_ne_imm m), h.operand]

/-- The flags after the instruction, U apart, are those of `shiftFlags` (R180). -/
theorem getFlag_after (h : RunsShift mk f) (m : ShiftMode) (s : State) {g : Flag} (hg : g ≠ .U) :
    getFlag (s.after (mk m)).p g =
      getFlag (shiftFlags (s.started (mk m)).p (f (getFlag s.p .C) (s.operandValue m.toOperand)).1
        (f (getFlag s.p .C) (s.operandValue m.toOperand)).2) g := by
  rw [State.getFlag_after _ _ hg, h.operated_eq, shiftEffect, State.writeBack_p]

/-- A shift of bytes that is the arithmetic `res` and `out` meets R180 with them. -/
theorem shiftsBy (h : RunsShift mk f) {res : Nat → Nat → Nat} {out : Nat → Bool}
    (hres : ∀ c v, (f c v).1 = BitVec.ofNat 8 (res (if c then 1 else 0) v.toNat))
    (hout : ∀ c v, (f c v).2 = out v.toNat) : ShiftsBy mk res out := by
  intro m s
  obtain ⟨hfalls, hkept, hmem⟩ := exec_sequential (exec_eq (mk m) s) (h.sequential m)
  rw [h.regsWritten, h.flagsWritten] at hkept
  rw [h.storedTo] at hmem
  have hr : (f (getFlag s.p .C) (s.operandValue m.toOperand)).1 =
      BitVec.ofNat 8 (res (carryIn s) (s.operandValue m.toOperand).toNat) := hres _ _
  refine ⟨_, exec_eq (mk m) s, ?C, ⟨?Z, ?N⟩, hfalls, fun hacc => ?acc, fun hacc => ?memory⟩
  case C => rw [h.getFlag_after _ _ (by decide), getFlag_shiftFlags, ← hout (getFlag s.p .C)]; rfl
  case Z => rw [h.getFlag_after _ _ (by decide), getFlag_shiftFlags, ← hr]; rfl
  case N => rw [h.getFlag_after _ _ (by decide), getFlag_shiftFlags, ← hr]; rfl
  case acc =>
    rw [if_pos hacc] at hkept hmem
    have himp : (s.started (mk m)).isImplied = true := (h.isImplied m s).trans (decide_eq_true hacc)
    refine ⟨?_, hkept, hmem⟩
    rw [State.after, State.finishInstr_a, h.operated_eq, shiftEffect_a_of_implied himp, hr]
  case memory =>
    rw [if_neg hacc] at hkept hmem
    have himp : (s.started (mk m)).isImplied = false := (h.isImplied m s).trans (decide_eq_false hacc)
    refine ⟨?_, hkept, hmem⟩
    rw [State.load_after, h.operated_eq, ← h.addrAbs, load_shiftEffect_of_not_implied himp, hr]

/-- A shift of A shows its result and its bit as A and C after it. -/
theorem acc_eq (h : RunsShift mk f) {s t : State} (hexec : exec (mk .acc) s = .next t) :
    (t.a, getFlag t.p .C) = f (getFlag s.p .C) s.a := by
  cases eq_of_exec hexec
  rw [h.getFlag_after _ _ (by decide), getFlag_shiftFlags, State.after, State.finishInstr_a, h.operated_eq,
    shiftEffect_a_of_implied (h.isImplied .acc s)]
  rfl

end RunsShift

theorem asl_runsShift : RunsShift .asl (fun _ => aslResult) where

theorem lsr_runsShift : RunsShift .lsr (fun _ => lsrResult) where

theorem rol_runsShift : RunsShift .rol rolResult where

theorem ror_runsShift : RunsShift .ror rorResult where

/-- Settles O24: the bytes and the bits shifted out, as the arithmetic of R181 to R184. -/
theorem shiftsAndRotates : Obligations.ShiftsAndRotates := by
  refine ⟨asl_runsShift.shiftsBy (fun _ v => ?asl) (fun _ => bit7_eq),
    lsr_runsShift.shiftsBy (fun _ v => ?lsr) (fun _ => bit0_eq),
    rol_runsShift.shiftsBy (fun c v => ?rol) (fun _ => bit7_eq),
    ror_runsShift.shiftsBy (fun c v => ?ror) (fun _ => bit0_eq)⟩
  case asl => revert v; decide
  case lsr => revert v; decide
  case rol => revert c v; decide
  case ror => revert c v; decide

/-! ## Nine rotates -/

/-- `k` executions of an instruction whose next state shows `f` of what the state before shows. -/
theorem execTimes_iterate {α : Type} {i : Instr} {g : State → α} {f : α → α}
    (h : ∀ {s t}, exec i s = .next t → g t = f (g s)) (k : Nat) (s : State) :
    ∃ t, execTimes i k s = .next t ∧ g t = f^[k] (g s) := by
  induction k generalizing s with
  | zero => exact ⟨s, rfl, rfl⟩
  | succ k ih =>
    obtain ⟨u, hu⟩ := noInstructionStops i s
    obtain ⟨t, ht, hg⟩ := ih u
    exact ⟨t, by rw [execTimes, hu]; exact ht, by rw [hg, h hu, Function.iterate_succ_apply]⟩

/-- Nine one-bit rotations of the nine bits are the identity: of 512 pairs, each checked. -/
theorem rol_iterate_nine (c : Bool) (v : Byte) :
    (fun r : Byte × Bool => rolResult r.2 r.1)^[9] (v, c) = (v, c) := by
  revert c v; decide +kernel

theorem ror_iterate_nine (c : Bool) (v : Byte) :
    (fun r : Byte × Bool => rorResult r.2 r.1)^[9] (v, c) = (v, c) := by
  revert c v; decide +kernel

/-- Settles O25: A and C after `k` rotates are the `k`-th iterate of one rotate, and the ninth is the identity. -/
theorem nineRotatesRestore : Obligations.NineRotatesRestore := by
  rintro _ s (rfl | rfl)
  · obtain ⟨t, ht, hg⟩ := execTimes_iterate (g := fun s => (s.a, getFlag s.p .C))
      (f := fun r => rolResult r.2 r.1) rol_runsShift.acc_eq 9 s
    rw [rol_iterate_nine] at hg
    exact ⟨t, ht, Prod.mk.inj hg⟩
  · obtain ⟨t, ht, hg⟩ := execTimes_iterate (g := fun s => (s.a, getFlag s.p .C))
      (f := fun r => rorResult r.2 r.1) ror_runsShift.acc_eq 9 s
    rw [ror_iterate_nine] at hg
    exact ⟨t, ht, Prod.mk.inj hg⟩

end Sys2Proof.Machine
end

section
/-! The stack instructions, the jumps, the subroutine calls, BRK and RTI (spec/46_stack.md;
spec/47_branch_jump_interrupt.md R250 to R256; spec/60_exceptions.md R320). The laws of two instructions in a row
follow from what the obligations say of each. -/

namespace Sys2Proof.Machine

/-! ## Two instructions in a row -/

theorem memKept_trans {as : List Addr} {s t u : State} (h₁ : MemKept as s t) (h₂ : MemKept [] t u) :
    MemKept as s u := fun a ha => (h₂ a List.not_mem_nil).trans (h₁ a ha)

/-- What neither of two updates writes is as it was before the first. -/
theorem kept_trans {rs rs' : List Reg} {fs fs' : List Flag} {s t u : State} (h₁ : Kept rs fs s t)
    (h₂ : Kept rs' fs' t u) : Kept (rs ++ rs') (fs ++ fs') s u := by
  obtain ⟨hreg₁, hflag₁, -, hparams₁, hseen₁, hevents₁⟩ := h₁
  obtain ⟨hreg₂, hflag₂, hU, hparams₂, hseen₂, hevents₂⟩ := h₂
  refine ⟨fun r hr => ?_, fun f hf hne => ?_, hU, hparams₂.trans hparams₁, hseen₂.trans hseen₁,
    hevents₂.trans hevents₁⟩
  · obtain ⟨h, h'⟩ := not_or.mp (mt List.mem_append.mpr hr)
    exact (hreg₂ r h').trans (hreg₁ r h)
  · obtain ⟨h, h'⟩ := not_or.mp (mt List.mem_append.mpr hf)
    exact (hflag₂ f h' hne).trans (hflag₁ f h hne)

/-- A register or flag that was written but has its old value counts as kept. -/
theorem kept_of_restored {rs rs' : List Reg} {fs fs' : List Flag} {s u : State} (h : Kept rs fs s u)
    (hreg : ∀ r ∈ rs, r ∉ rs' → u.reg r = s.reg r)
    (hflag : ∀ f ∈ fs, f ∉ fs' → f ≠ .U → getFlag u.p f = getFlag s.p f) : Kept rs' fs' s u := by
  obtain ⟨hreg', hflag', hrest⟩ := h
  refine ⟨fun r hr => ?_, fun f hf hU => ?_, hrest⟩
  · by_cases hmem : r ∈ rs
    · exact hreg r hmem hr
    · exact hreg' r hmem
  · by_cases hmem : f ∈ fs
    · exact hflag f hmem hf hU
    · exact hflag' f hmem hU

theorem sp_sub_one_add_one (sp : Byte) : sp - 1 + 1 = sp := BitVec.sub_add_cancel sp 1

/-! ## PHA, PHP, PLA and PLP -/

theorem getFlag_statusPushedByInstruction_eq_or (p : Byte) (f : Flag) :
    getFlag (statusPushedByInstruction p) f = (getFlag p f || f == .B || f == .U) := by
  rw [getFlag_statusPushedByInstruction]
  by_cases h : f = .B ∨ f = .U
  · obtain rfl | rfl := h <;> simp
  · obtain ⟨hB, hU⟩ := not_or.mp h
    simp [h, beq_false_of_ne hB, beq_false_of_ne hU]

/-- Settles O32: each operation is one push, of A or of P with B and U set. -/
theorem pushInstructions : Obligations.PushInstructions := by
  intro s
  refine ⟨⟨_, exec_eq .pha s, (s.started .pha).load_push8_same s.a, rfl,
      exec_sequential (exec_eq .pha s) rfl⟩,
    ⟨_, exec_eq .php s, fun f => ?_, rfl, exec_sequential (exec_eq .php s) rfl⟩⟩
  have hbyte : (s.after .php).load (stackSlot s.sp) =
      statusPushedByInstruction (s.started .php).p := (s.started .php).load_push8_same _
  rw [hbyte, s.started_status_pushed, getFlag_statusPushedByInstruction_eq_or]

/-- Settles O33: each operation is one pop, and PLP forces U. -/
theorem pullInstructions : Obligations.PullInstructions := by
  intro s
  refine ⟨⟨_, exec_eq .pla s, rfl, znOf_finishInstr rfl _, rfl, exec_sequential (exec_eq .pla s) rfl⟩,
    ⟨_, exec_eq .plp s, fun f hU => ?_, rfl, exec_sequential (exec_eq .plp s) rfl⟩⟩
  have hp : (s.operated .plp).1.p = statusPulled (s.load (stackSlot (s.sp + 1))) := rfl
  rw [State.getFlag_after _ _ hU, hp, getFlag_statusPulled, if_neg hU]

/-- Settles O34: the slot above the SP after the push is the slot pushed to. -/
theorem stackRoundTrips : Obligations.StackRoundTrips := by
  intro s
  obtain ⟨⟨t, ht, htbyte, htsp, -, htkept, htmem⟩, ⟨t', ht', htstatus, htsp', -, htkept', htmem'⟩⟩ :=
    pushInstructions s
  obtain ⟨⟨u, hu, hua, huzn, husp, -, hukept, humem⟩, -⟩ := pullInstructions t
  obtain ⟨-, ⟨u', hu', huflag, husp', -, ⟨-, -, huU, -⟩, humem'⟩⟩ := pullInstructions t'
  have hslot : stackSlot (t.sp + 1) = stackSlot s.sp := by rw [htsp, sp_sub_one_add_one]
  have hslot' : stackSlot (t'.sp + 1) = stackSlot s.sp := by rw [htsp', sp_sub_one_add_one]
  have ha : u.a = s.a := by rw [hua, hslot, htbyte]
  have hsp : u.sp = s.sp := by rw [husp, htsp, sp_sub_one_add_one]
  have hsp' : u'.sp = s.sp := by rw [husp', htsp', sp_sub_one_add_one]
  rw [hslot, htbyte] at huzn
  refine ⟨⟨t, u, ht, hu, ha, hsp, huzn, ?_, memKept_trans htmem humem⟩,
    ⟨t', u', ht', hu', hsp', ?_, memKept_trans htmem' humem'⟩⟩
  · refine kept_of_restored (kept_trans htkept hukept) (fun r hr _ => ?_) fun f hf hf' _ => absurd hf hf'
    obtain rfl | rfl : r = .SP ∨ r = .A := by cases r <;> simp_all
    · exact hsp
    · exact ha
  · have h30 : s.p ||| 0x30 = statusPushedByInstruction s.p := by
      rw [statusPushedByInstruction, BitVec.or_assoc]
      rfl
    refine status_ext fun f => ?_
    rw [h30, getFlag_statusPushedByInstruction_eq_or]
    by_cases hU : f = .U
    · rw [hU, huU]
      simp
    · rw [huflag f hU, hslot', htstatus]

/-! ## JMP, JSR and RTS -/

/-- Settles O36: the operation copies `addr_abs`, the operand itself or the target of the pointer. -/
theorem jmpLoadsPc : Obligations.JmpLoadsPc := by
  intro w s
  refine ⟨⟨_, exec_eq (.jmp (.abs w)) s, rfl, s.after_kept (.jmp (.abs w))⟩,
    ⟨_, exec_eq (.jmp (.ind w)) s, ?_, s.after_kept (.jmp (.ind w))⟩⟩
  have hpc : (s.after (.jmp (.ind w))).pc = s.indirectTarget w := rfl
  rw [hpc, State.indirectTarget_eq, join16_toNat]

/-- Settles O37: the return address is the byte before the next instruction. -/
theorem jsrPushesAndJumps : Obligations.JsrPushesAndJumps := by
  intro w s
  have hpc : (s.pc + 2).toNat = (s.pc.toNat + 2) % 65536 := BitVec.toNat_add s.pc 2
  have hload : ∀ a, (s.after (.jsr w)).load a = ((s.started (.jsr w)).push16 (s.pc + 2)).load a := by
    rw [← s.started_jsr_pc w]
    exact State.load_congr rfl
  have hhi := (s.started (.jsr w)).load_push16_hi (s.pc + 2)
  have hlo := (s.started (.jsr w)).load_push16_lo (s.pc + 2)
  rw [State.started_sp, ← hload] at hhi hlo
  refine ⟨_, exec_eq (.jsr w) s, rfl, ?hi, ?lo, sp_sub_one_sub_one s.sp, s.after_kept (.jsr w)⟩
  case hi => rw [hhi, hi8_toNat, hpc]
  case lo => rw [hlo, lo8_toNat, hpc, Nat.mod_mod_of_dvd _ (by decide)]

/-- Settles O38: the operation pops the word and adds one. -/
theorem rtsPopsAndIncrements : Obligations.RtsPopsAndIncrements := by
  intro s
  refine ⟨_, exec_eq .rts s, ?_, sp_add_two s.sp, s.after_kept .rts⟩
  have hpc : (s.after .rts).pc =
      join16 (s.load (stackSlot (s.sp + 1 + 1))) (s.load (stackSlot (s.sp + 1))) + 1 := rfl
  rw [hpc, sp_add_two, BitVec.toNat_add, join16_toNat]
  rfl

/-- Settles O39: RTS pops the two bytes JSR pushed. -/
theorem jsrThenRtsReturns : Obligations.JsrThenRtsReturns := by
  intro w s
  obtain ⟨t, ht, -, hhi, hlo, htsp, htkept, htmem⟩ := jsrPushesAndJumps w s
  obtain ⟨u, hu, hupc, husp, hukept, humem⟩ := rtsPopsAndIncrements t
  have hsp : t.sp + 2 = s.sp := by rw [htsp]; exact BitVec.sub_add_cancel s.sp 2
  have hsp' : t.sp + 1 = s.sp - 1 := by
    rw [htsp, ← sp_sub_one_sub_one, sp_sub_one_add_one]
  rw [hsp, hsp', hhi, hlo] at hupc
  have hpc : (s.pc + 3).toNat = (s.pc.toNat + 3) % 65536 := BitVec.toNat_add s.pc 3
  refine ⟨t, u, ht, hu, BitVec.eq_of_toNat_eq (by omega), ?_, memKept_trans htmem humem⟩
  refine kept_of_restored (kept_trans htkept hukept) (fun r hr _ => ?_) (by simp)
  obtain rfl : r = .SP := by simpa using hr
  exact husp.trans hsp

/-! ## BRK and RTI -/

/-- The frame an operation pushes is the frame its instruction pushes. -/
theorem pushedFrame_finishInstr {s u : State} {i : Instr} {ret : Addr} {status : Flag → Bool}
    (h : PushedFrame (s.started i) u ret status) (n : Nat) : PushedFrame s (u.finishInstr n) ret status := by
  obtain ⟨hsp, hhi, hlo, hstatus, hmem⟩ := h
  rw [State.started_sp] at hsp hhi hlo hmem
  simp only [State.started_sp] at hstatus
  exact ⟨hsp, hhi, hlo, hstatus, fun a ha => (hmem a ha).trans (s.started_load i a)⟩

/-- Settles O40: the operation takes the exception at the IRQ/BRK vector, which is outside the stack page. -/
theorem brkTakesTheException : Obligations.BrkTakesTheException := by
  intro s
  have hframe := takeException_pushedFrame (s.started .brk) irqVector (s.pc + 2)
    (getFlag_statusPushedByInstruction_eq_or s.p)
  have hpc := (s.started .brk).takeException_pc_of_large irqVector (s.pc + 2)
    (statusPushedByInstruction s.p) (by decide) (by decide)
  have hop : (s.operated .brk).1 = (s.started .brk).takeException irqVector (s.pc + 2)
      (statusPushedByInstruction s.p) := by
    rw [← s.started_brk_pc, ← s.started_status_pushed .brk]
    rfl
  refine ⟨_, exec_eq .brk s, ?frame, ?I, ?pc, (s.after_kept .brk).1⟩
  case frame => rw [State.after, hop]; exact pushedFrame_finishInstr hframe _
  case I => rw [State.getFlag_after _ _ (by decide), hop, State.takeException_p, getFlag_setFlag_same]
  case pc =>
    rw [State.after, State.finishInstr_pc, hop, hpc, State.read16_toNat]
    rfl

/-- Settles O41: the operation pops three bytes; the end of the instruction sets U, which the operation
clears (C4). -/
theorem rtiRestoresStatusAndPc : Obligations.RtiRestoresStatusAndPc := by
  intro s
  have hop : (s.operated .rti).1 = (s.started .rti).returnFromException := rfl
  have hp : (s.operated .rti).1.p = statusRestored (s.load (stackSlot (s.sp + 1))) := by
    rw [hop, State.returnFromException_p, State.started_load, State.started_sp]
  refine ⟨_, exec_eq .rti s, fun f hB hU => ?flag, ?B, s.getFlag_U_after .rti, ?pc, ?sp,
    s.after_kept .rti⟩
  case flag =>
    rw [State.getFlag_after _ _ hU, hp, getFlag_statusRestored, if_neg (not_or.mpr ⟨hB, hU⟩)]
  case B => rw [State.getFlag_after _ _ (by decide), hp, getFlag_statusRestored]; rfl
  case pc =>
    rw [State.after, State.finishInstr_pc, hop, State.returnFromException_pc, State.started_sp, sp_add_three,
      sp_add_two, join16_toNat, State.started_load, State.started_load]
  case sp =>
    rw [State.after, State.finishInstr_sp, hop, State.returnFromException_sp, State.started_sp, sp_add_three]

end Sys2Proof.Machine
end

section
/-! The handler's return (spec/60_exceptions.md R320) and the stored B across an interrupt entry
(spec/10_state.md R33). -/

namespace Sys2Proof.Machine

/-! ## The entry -/

/-- The vector and the count of an interrupt event that is taken: `Irq` with I = 0, or `Nmi` (R311, R313). -/
inductive Taken (s : State) : HostEvent → Addr → Byte → Prop where
  | irq (hI : getFlag s.p .I = false) : Taken s .irq irqVector 7
  | nmi : Taken s .nmi nmiVector 8

theorem step_of_taken {s : State} {e : HostEvent} {es : List HostEvent} {vec : Addr} {n : Byte}
    (h : Taken s e vec n) (he : s.hostEvents = e :: es) (hseen : s.resetSeen = true)
    (hcomplete : s.complete = true) :
    step s = .next (State.interruptEntry { s with hostEvents := es } vec n) := by
  have hcount := s.cyclesRemaining_of_complete hcomplete
  rw [step_of_cons he]
  cases h with
  | irq hI => exact irqEvent_enters hseen hcount hI
  | nmi => exact nmiEvent_enters hseen hcount

theorem interruptEntry_kept (s : State) (vec : Addr) (n : Byte) :
    Kept [.SP] [.I] s (s.interruptEntry vec n) := by
  have h := interruptEntry_spares s vec n
  exact ⟨h.reg, h.flag, by simp, h.params, h.resetSeen, h.hostEvents⟩

/-- Settles O44: of the stored flags the entry writes I and U alone. -/
theorem interruptEntryKeepsTheStoredBreakFlag : Obligations.InterruptEntryKeepsTheStoredBreakFlag := by
  intro s e es hevent he hseen hcomplete
  obtain ⟨vec, n, htaken⟩ : ∃ vec n, Taken s e vec n := by
    obtain ⟨rfl, hI⟩ | rfl := hevent
    · exact ⟨_, _, .irq hI⟩
    · exact ⟨_, _, .nmi⟩
  have hspares := interruptEntry_spares { s with hostEvents := es } vec n
  refine ⟨_, step_of_taken htaken he hseen hcomplete, ?_, hspares.flag .B (by decide) (by decide)⟩
  rw [State.interruptEntry_sp, sp_sub_three]

/-! ## The return -/

theorem sp_sub_three_add (sp : Byte) : sp - 3 + 1 = sp - 2 ∧ sp - 3 + 2 = sp - 1 ∧ sp - 3 + 3 = sp := by
  revert sp; decide

/-- RTI takes the frame of an interrupt entry back: SP and PC, and P but for B (R320). -/
theorem rti_after_pushedFrame {s t : State}
    (hframe : PushedFrame s t s.pc (fun f => f == .U || (f != .B && getFlag s.p f)))
    (hU : getFlag s.p .U = true) : ∃ u, exec .rti t = .next u ∧ u.pc = s.pc ∧ u.sp = s.sp ∧
      u.p = setFlag s.p .B false ∧ Kept [.SP] [.C, .Z, .I, .D, .B, .V, .N] t u ∧
      MemKept [stackSlot s.sp, stackSlot (s.sp - 1), stackSlot (s.sp - 2)] s u := by
  obtain ⟨hsp, hhi, hlo, hstatus, hmem⟩ := hframe
  obtain ⟨u, hu, huflag, huB, huU, hupc, husp, hukept, humem⟩ := rtiRestoresStatusAndPc t
  obtain ⟨hsp1, hsp2, hsp3⟩ := sp_sub_three_add s.sp
  rw [hsp, hsp1] at huflag
  rw [hsp, hsp2, hsp3, hhi, hlo, hi8_toNat, lo8_toNat] at hupc
  refine ⟨u, hu, BitVec.eq_of_toNat_eq (by omega), by rw [husp, hsp, hsp3], status_ext fun f => ?_, hukept,
    memKept_trans hmem humem⟩
  rw [getFlag_setFlag]
  by_cases hB : f = .B
  · rw [if_pos hB, hB, huB]
  · rw [if_neg hB]
    by_cases hfU : f = .U
    · rw [hfU, huU, hU]
    · rw [huflag f hB hfU, hstatus]
      simp [beq_false_of_ne hfU, bne, beq_false_of_ne hB]

/-- Settles O45: after the Idle clocks of the entry the RTI runs, and it takes the frame of the entry back. -/
theorem handlerReturnRestoresTheProgram : Obligations.HandlerReturnRestoresTheProgram := by
  intro s t e n hevent he hseen hcomplete hU hstep hrti
  obtain ⟨vec, htaken, hn⟩ : ∃ vec, Taken s e vec (BitVec.ofNat 8 n) ∧ n < 256 := by
    obtain ⟨rfl, rfl, hI⟩ | ⟨rfl, rfl⟩ := hevent
    · exact ⟨_, .irq hI, by decide⟩
    · exact ⟨_, .nmi, by decide⟩
  have ht : t = State.interruptEntry { s with hostEvents := [] } vec (BitVec.ofNat 8 n) :=
    Host.Outcome.next.inj (hstep.symm.trans (step_of_taken htaken he hseen hcomplete))
  have hentry := interruptEntry_kept { s with hostEvents := [] } vec (BitVec.ofNat 8 n)
  have hframe := interruptEntry_pushedFrame { s with hostEvents := [] } vec (BitVec.ofNat 8 n)
  have hcount := State.interruptEntry_cyclesRemaining { s with hostEvents := [] } vec (BitVec.ofNat 8 n)
  rw [← ht] at hentry hframe hcount
  obtain ⟨u, hu, hupc, husp, hup, hukept, humem⟩ := rti_after_pushedFrame
    (s := { s with hostEvents := [] }) (t := { t with cyclesRemaining := 0 }) hframe hU
  refine ⟨u, ?run, hupc, hup, ?kept, humem⟩
  case run =>
    obtain ⟨-, -, -, -, htseen, htevents⟩ := hentry
    have hrun := run_idle_then_fetch (htseen.trans hseen) htevents
    rw [hcount, BitVec.toNat_ofNat, Nat.mod_eq_of_lt hn, hrti, hu] at hrun
    rw [run_succ_of_next hstep, hrun]
  case kept =>
    have htkept : Kept [.SP] [.I] { s with hostEvents := [] } { t with cyclesRemaining := 0 } := hentry
    refine kept_of_restored (kept_trans htkept hukept) (fun r hr _ => ?_) fun f _ hB _ => ?_
    · obtain rfl : r = .SP := by simpa using hr
      exact husp
    · rw [hup, getFlag_setFlag_other _ _ (List.ne_of_not_mem_cons hB)]

end Sys2Proof.Machine
end
